-- ==== Sys2Proof/Word.lean ====
section
/-! DEFINITION. The word types of the block (spec 00_scope.md section 5.2, 10_state.md rules R21 to R25) and nothing that
computes: every conversion and every arithmetic helper stands in Decode.lean or under Machine/. -/

namespace Sys2Proof

/-- An MMIX `Byte`, 8 bits (R24). -/
abbrev Byte := BitVec 8

/-- An MMIX `Wyde`, 16 bits (R24). -/
abbrev Wyde := BitVec 16

/-- An MMIX `Tetra`, 32 bits (R24). -/
abbrev Tetra := BitVec 32

/-- An MMIX `Octa`, 64 bits (R24); also the width of every operand and result port. -/
abbrev Octa := BitVec 64

/-- A `FieldCode`, 6 bits, `F = 8*left + right` (R105). -/
abbrev FieldCode := BitVec 6

/-- A `MixAddr`, 12 bits unsigned (R23). -/
abbrev MixAddr := BitVec 12

/-- A MIX word: sign (true = negative) and 30-bit magnitude (R21); `+0` and `-0` are two values (R22). -/
structure MixWord where
  sign : Bool
  mag : BitVec 30
deriving DecidableEq, Repr

/-- What an index register holds: sign and 12-bit magnitude (R25). -/
structure MixIndex where
  sign : Bool
  mag : BitVec 12
deriving DecidableEq, Repr

/-- The ternary comparison value (R113). -/
inductive Cmp where
  | less
  | equal
  | greater
deriving DecidableEq, Repr

/-- The word `+0`, what reset and `MM.CLEAR` write (R30). -/
abbrev MixWord.plusZero : MixWord := ⟨false, 0⟩

end Sys2Proof
end

