-- ==== Sys2Proof/Config.lean ====
section
/-! DEFINITION. The parameters of the block (spec 00_scope.md rules R7 and R8). They are fixed when a block is created and no
command changes them; State carries them, so that every statement over all states is a statement over all parameters. -/

namespace Sys2Proof

/-- The parameters an implementation fixes (R7). A value outside its range makes no block (R8), so the ranges are part
of the type: `MIX_MEM_SIZE` 1 to 4096, `G_RESET` 0 to 256, `SPECIAL_NUMBERING` four distinct numbers of 5 bits. -/
structure Config where
  /-- `MIX_MEM_SIZE`, the number of MIX memory words. -/
  mixMemSize : Nat
  /-- `CHECK_ALIGNMENT`, fixed for a run (R34). -/
  checkAlignment : Bool
  /-- `G_RESET`, the value of `rG` after reset. -/
  gReset : Nat
  /-- The number of `rO` among the special registers. -/
  numRO : BitVec 5
  /-- The number of `rS`. -/
  numRS : BitVec 5
  /-- The number of `rL`. -/
  numRL : BitVec 5
  /-- The number of `rG`. -/
  numRG : BitVec 5
  size_pos : 1 ≤ mixMemSize
  size_le : mixMemSize ≤ 4096
  g_le : gReset ≤ 256
  distinct : numRO ≠ numRS ∧ numRO ≠ numRL ∧ numRO ≠ numRG ∧ numRS ≠ numRL ∧ numRS ≠ numRG ∧ numRL ≠ numRG
deriving DecidableEq, Repr

/-- `MIX_EA_MOD`, the modulus of the effective-address wrap, whatever `MIX_MEM_SIZE` is (R7, R222, C5). -/
def Config.mixEaMod : Nat := 4000

/-- `MMIX_PAGE_SIZE` (R7). -/
def Config.mmixPageSize : Nat := 4096

/-- The parameters of `State.reset`: the spec's default size 4000; checking on (DESIGN CHOICE, the spec leaves it OPEN, log 6);
`G_RESET` 255 and the conventional MMIX numbers of `rO`, `rS`, `rL`, `rG` (PRESUMED, the family's, log 7). -/
def Config.standard : Config where
  mixMemSize := 4000
  checkAlignment := true
  gReset := 255
  numRO := 10
  numRS := 11
  numRL := 20
  numRG := 19
  size_pos := by decide
  size_le := by decide
  g_le := by decide
  distinct := by decide

end Sys2Proof
end

