-- ==== Sys2Proof/Syntax.lean ====
section
/-! DEFINITION. The commands of the block (spec 30_encoding.md rules R100 to R104, opcode_table.json): `Instr`, one constructor
for each of the 126 rows, its operands of the types of rule R101; and what the outside world presents to the block, a
command on the command port or a reset (rules R100, R370). -/

namespace Sys2Proof

/-- One command with its operands, in the order of its rule (R118). -/
inductive Instr where
  -- MXA: MIX sign-magnitude arithmetic unit (40_mix_word_alu.md)
  /-- `FS.ENC`, opcode 0x00, rule R141. -/
  | fsEnc (left : BitVec 3) (right : BitVec 3)
  /-- `FS.DEC`, opcode 0x01, rule R142. -/
  | fsDec (f : FieldCode)
  /-- `MA.MAKE`, opcode 0x02, rule R143. -/
  | maMake (v : Octa)
  /-- `MX.MAKE`, opcode 0x08, rule R144. -/
  | mxMake (neg : Bool) (m : BitVec 32)
  /-- `MX.FROMINT`, opcode 0x09, rule R145. -/
  | mxFromint (v : BitVec 32)
  /-- `MX.TRUNC`, opcode 0x0A, rule R146. -/
  | mxTrunc (raw : BitVec 32)
  /-- `MX.TOINT`, opcode 0x0B, rule R147. -/
  | mxToint (w : MixWord)
  /-- `MX.SIGN`, opcode 0x0C, rule R148. -/
  | mxSign (w : MixWord)
  /-- `MX.MAG`, opcode 0x0D, rule R149. -/
  | mxMag (w : MixWord)
  /-- `MX.GETB`, opcode 0x0E, rule R150. -/
  | mxGetb (w : MixWord) (k : BitVec 3)
  /-- `MX.SETB`, opcode 0x0F, rule R151. -/
  | mxSetb (w : MixWord) (k : BitVec 3) (b : BitVec 8)
  /-- `MX.NEG`, opcode 0x10, rule R152. -/
  | mxNeg (w : MixWord)
  /-- `MX.ADD`, opcode 0x11, rule R153. -/
  | mxAdd (a : MixWord) (b : MixWord)
  /-- `MX.SUB`, opcode 0x12, rule R154. -/
  | mxSub (a : MixWord) (b : MixWord)
  /-- `MX.MUL`, opcode 0x13, rule R155. -/
  | mxMul (a : MixWord) (b : MixWord)
  /-- `MX.DIV`, opcode 0x14, rule R156. -/
  | mxDiv (hi : MixWord) (lo : MixWord) (d : MixWord)
  /-- `MX.CMP`, opcode 0x15, rule R157. -/
  | mxCmp (a : MixWord) (b : MixWord)
  /-- `MX.ISZERO`, opcode 0x16, rule R158. -/
  | mxIszero (w : MixWord)
  /-- `MX.EQBITS`, opcode 0x17, rule R159. -/
  | mxEqbits (a : MixWord) (b : MixWord)
  /-- `MX.SHL`, opcode 0x18, rule R161. -/
  | mxShl (w : MixWord) (n : BitVec 12)
  /-- `MX.SHR`, opcode 0x19, rule R162. -/
  | mxShr (w : MixWord) (n : BitVec 12)
  /-- `MX.ROL`, opcode 0x1A, rule R163. -/
  | mxRol (w : MixWord) (n : BitVec 12)
  /-- `MX.ROR`, opcode 0x1B, rule R164. -/
  | mxRor (w : MixWord) (n : BitVec 12)
  /-- `MX.SHLD`, opcode 0x1C, rule R166. -/
  | mxShld (hi : MixWord) (lo : MixWord) (n : BitVec 12)
  /-- `MX.SHRD`, opcode 0x1D, rule R167. -/
  | mxShrd (hi : MixWord) (lo : MixWord) (n : BitVec 12)
  /-- `MX.ROLD`, opcode 0x1E, rule R168. -/
  | mxRold (hi : MixWord) (lo : MixWord) (n : BitVec 12)
  /-- `MX.RORD`, opcode 0x1F, rule R169. -/
  | mxRord (hi : MixWord) (lo : MixWord) (n : BitVec 12)
  /-- `MX.FGET`, opcode 0x20, rule R182. -/
  | mxFget (w : MixWord) (f : FieldCode)
  /-- `MX.FPUT`, opcode 0x21, rule R183. -/
  | mxFput (old : MixWord) (v : MixWord) (f : FieldCode)
  -- MXM: MIX memory (41_mix_memory.md)
  /-- `MM.LOAD`, opcode 0x28, rule R200. -/
  | mmLoad (addr : MixAddr) (f : FieldCode)
  /-- `MM.STORE`, opcode 0x29, rule R201. -/
  | mmStore (v : MixWord) (addr : MixAddr) (f : FieldCode)
  /-- `MM.LOADPROG`, opcode 0x2A, rule R202. -/
  | mmLoadprog (start : MixAddr) (ws : List MixWord)
  /-- `MM.LOADIMG`, opcode 0x2B, rule R203. -/
  | mmLoadimg (start : MixAddr) (ws : List MixWord)
  /-- `MM.DUMP`, opcode 0x2C, rule R204. -/
  | mmDump (start : MixAddr) (count : BitVec 13)
  /-- `MM.CLEAR`, opcode 0x2D, rule R205. -/
  | mmClear
  /-- `MM.CLRRNG`, opcode 0x2E, rule R206. -/
  | mmClrrng (start : MixAddr) (count : BitVec 13)
  -- MXR: MIX register datapath (42_mix_regfile.md)
  /-- `MR.READ`, opcode 0x30, rule R220. -/
  | mrRead (id : BitVec 4)
  /-- `MR.WRITE`, opcode 0x31, rule R221. -/
  | mrWrite (v : MixWord) (id : BitVec 4)
  /-- `MR.EA`, opcode 0x32, rule R222. -/
  | mrEa (base : MixAddr) (idx : BitVec 3)
  /-- `MR.IDXOFF`, opcode 0x33, rule R223. -/
  | mrIdxoff (idx : BitVec 3)
  /-- `MR.GETOV`, opcode 0x34, rule R224. -/
  | mrGetov
  /-- `MR.SETOV`, opcode 0x35, rule R225. -/
  | mrSetov (b : Bool)
  /-- `MR.GETCI`, opcode 0x36, rule R226. -/
  | mrGetci
  /-- `MR.SETCI`, opcode 0x37, rule R227. -/
  | mrSetci (c : BitVec 2)
  -- MMI: MMIX fixed-width integer unit (43_mmix_int.md)
  /-- `ADD.B`, opcode 0x40, rule R241. -/
  | addB (a : Byte) (b : Byte)
  /-- `ADD.W`, opcode 0x41, rule R241. -/
  | addW (a : Wyde) (b : Wyde)
  /-- `ADD.T`, opcode 0x42, rule R241. -/
  | addT (a : Tetra) (b : Tetra)
  /-- `ADD.O`, opcode 0x43, rule R241. -/
  | addO (a : Octa) (b : Octa)
  /-- `SUB.B`, opcode 0x44, rule R242. -/
  | subB (a : Byte) (b : Byte)
  /-- `SUB.W`, opcode 0x45, rule R242. -/
  | subW (a : Wyde) (b : Wyde)
  /-- `SUB.T`, opcode 0x46, rule R242. -/
  | subT (a : Tetra) (b : Tetra)
  /-- `SUB.O`, opcode 0x47, rule R242. -/
  | subO (a : Octa) (b : Octa)
  /-- `MUL.B`, opcode 0x48, rule R243. -/
  | mulB (a : Byte) (b : Byte)
  /-- `MUL.W`, opcode 0x49, rule R243. -/
  | mulW (a : Wyde) (b : Wyde)
  /-- `MUL.T`, opcode 0x4A, rule R243. -/
  | mulT (a : Tetra) (b : Tetra)
  /-- `MUL.O`, opcode 0x4B, rule R243. -/
  | mulO (a : Octa) (b : Octa)
  /-- `ADDUO.B`, opcode 0x4C, rule R244. -/
  | adduoB (a : Byte) (b : Byte)
  /-- `ADDUO.W`, opcode 0x4D, rule R244. -/
  | adduoW (a : Wyde) (b : Wyde)
  /-- `ADDUO.T`, opcode 0x4E, rule R244. -/
  | adduoT (a : Tetra) (b : Tetra)
  /-- `ADDUO.O`, opcode 0x4F, rule R244. -/
  | adduoO (a : Octa) (b : Octa)
  /-- `ADDSO.B`, opcode 0x50, rule R245. -/
  | addsoB (a : Byte) (b : Byte)
  /-- `ADDSO.W`, opcode 0x51, rule R245. -/
  | addsoW (a : Wyde) (b : Wyde)
  /-- `ADDSO.T`, opcode 0x52, rule R245. -/
  | addsoT (a : Tetra) (b : Tetra)
  /-- `ADDSO.O`, opcode 0x53, rule R245. -/
  | addsoO (a : Octa) (b : Octa)
  /-- `SUBUO.B`, opcode 0x54, rule R246. -/
  | subuoB (a : Byte) (b : Byte)
  /-- `SUBUO.W`, opcode 0x55, rule R246. -/
  | subuoW (a : Wyde) (b : Wyde)
  /-- `SUBUO.T`, opcode 0x56, rule R246. -/
  | subuoT (a : Tetra) (b : Tetra)
  /-- `SUBUO.O`, opcode 0x57, rule R246. -/
  | subuoO (a : Octa) (b : Octa)
  /-- `SUBSO.B`, opcode 0x58, rule R247. -/
  | subsoB (a : Byte) (b : Byte)
  /-- `SUBSO.W`, opcode 0x59, rule R247. -/
  | subsoW (a : Wyde) (b : Wyde)
  /-- `SUBSO.T`, opcode 0x5A, rule R247. -/
  | subsoT (a : Tetra) (b : Tetra)
  /-- `SUBSO.O`, opcode 0x5B, rule R247. -/
  | subsoO (a : Octa) (b : Octa)
  /-- `MULUO.B`, opcode 0x5C, rule R248. -/
  | muluoB (a : Byte) (b : Byte)
  /-- `MULUO.W`, opcode 0x5D, rule R248. -/
  | muluoW (a : Wyde) (b : Wyde)
  /-- `MULUO.T`, opcode 0x5E, rule R248. -/
  | muluoT (a : Tetra) (b : Tetra)
  /-- `MULUO.O`, opcode 0x5F, rule R248. -/
  | muluoO (a : Octa) (b : Octa)
  /-- `MULSO.B`, opcode 0x60, rule R249. -/
  | mulsoB (a : Byte) (b : Byte)
  /-- `MULSO.W`, opcode 0x61, rule R249. -/
  | mulsoW (a : Wyde) (b : Wyde)
  /-- `MULSO.T`, opcode 0x62, rule R249. -/
  | mulsoT (a : Tetra) (b : Tetra)
  /-- `MULSO.O`, opcode 0x63, rule R249. -/
  | mulsoO (a : Octa) (b : Octa)
  /-- `MULFU.B`, opcode 0x64, rule R250. -/
  | mulfuB (a : Byte) (b : Byte)
  /-- `MULFU.W`, opcode 0x65, rule R250. -/
  | mulfuW (a : Wyde) (b : Wyde)
  /-- `MULFU.T`, opcode 0x66, rule R250. -/
  | mulfuT (a : Tetra) (b : Tetra)
  /-- `MULFU.O`, opcode 0x67, rule R250. -/
  | mulfuO (a : Octa) (b : Octa)
  /-- `DIVU.B`, opcode 0x68, rule R251. -/
  | divuB (a : Byte) (b : Byte)
  /-- `DIVU.W`, opcode 0x69, rule R251. -/
  | divuW (a : Wyde) (b : Wyde)
  /-- `DIVU.T`, opcode 0x6A, rule R251. -/
  | divuT (a : Tetra) (b : Tetra)
  /-- `DIVU.O`, opcode 0x6B, rule R251. -/
  | divuO (a : Octa) (b : Octa)
  /-- `CMPU.B`, opcode 0x6C, rule R252. -/
  | cmpuB (a : Byte) (b : Byte)
  /-- `CMPU.W`, opcode 0x6D, rule R252. -/
  | cmpuW (a : Wyde) (b : Wyde)
  /-- `CMPU.T`, opcode 0x6E, rule R252. -/
  | cmpuT (a : Tetra) (b : Tetra)
  /-- `CMPU.O`, opcode 0x6F, rule R252. -/
  | cmpuO (a : Octa) (b : Octa)
  /-- `CMPS.B`, opcode 0x70, rule R253. -/
  | cmpsB (a : Byte) (b : Byte)
  /-- `CMPS.W`, opcode 0x71, rule R253. -/
  | cmpsW (a : Wyde) (b : Wyde)
  /-- `CMPS.T`, opcode 0x72, rule R253. -/
  | cmpsT (a : Tetra) (b : Tetra)
  /-- `CMPS.O`, opcode 0x73, rule R253. -/
  | cmpsO (a : Octa) (b : Octa)
  /-- `SPLIT.W`, opcode 0x75, rule R254. -/
  | splitW (v : Wyde)
  /-- `SPLIT.T`, opcode 0x76, rule R254. -/
  | splitT (v : Tetra)
  /-- `SPLIT.O`, opcode 0x77, rule R254. -/
  | splitO (v : Octa)
  /-- `JOIN.W`, opcode 0x79, rule R255. -/
  | joinW (hi : Byte) (lo : Byte)
  /-- `JOIN.T`, opcode 0x7A, rule R255. -/
  | joinT (hi : Wyde) (lo : Wyde)
  /-- `JOIN.O`, opcode 0x7B, rule R255. -/
  | joinO (hi : Tetra) (lo : Tetra)
  /-- `TRUNC.B`, opcode 0x7C, rule R256. -/
  | truncB (v : Octa)
  /-- `TRUNC.W`, opcode 0x7D, rule R256. -/
  | truncW (v : Octa)
  /-- `TRUNC.T`, opcode 0x7E, rule R256. -/
  | truncT (v : Octa)
  /-- `TRUNC.O`, opcode 0x7F, rule R256. -/
  | truncO (v : Octa)
  /-- `SVAL.B`, opcode 0x80, rule R257. -/
  | svalB (v : Byte)
  /-- `SVAL.W`, opcode 0x81, rule R257. -/
  | svalW (v : Wyde)
  /-- `SVAL.T`, opcode 0x82, rule R257. -/
  | svalT (v : Tetra)
  /-- `SVAL.O`, opcode 0x83, rule R257. -/
  | svalO (v : Octa)
  -- MMM: MMIX byte-addressed memory (44_mmix_memory.md)
  /-- `LD.B`, opcode 0x90, rule R282. -/
  | ldB (addr : Octa)
  /-- `LD.W`, opcode 0x91, rule R283. -/
  | ldW (addr : Octa)
  /-- `LD.T`, opcode 0x92, rule R284. -/
  | ldT (addr : Octa)
  /-- `LD.O`, opcode 0x93, rule R285. -/
  | ldO (addr : Octa)
  /-- `ST.B`, opcode 0x94, rule R286. -/
  | stB (v : Byte) (addr : Octa)
  /-- `ST.W`, opcode 0x95, rule R287. -/
  | stW (v : Wyde) (addr : Octa)
  /-- `ST.T`, opcode 0x96, rule R288. -/
  | stT (v : Tetra) (addr : Octa)
  /-- `ST.O`, opcode 0x97, rule R289. -/
  | stO (v : Octa) (addr : Octa)
  /-- `MB.LOADIMG`, opcode 0x98, rule R290. -/
  | mbLoadimg (start : Octa) (bs : List Byte)
  /-- `MB.DUMP`, opcode 0x99, rule R291. -/
  | mbDump (start : Octa) (count : Octa)
  -- MMR: MMIX register-window ring controller (45_mmix_regwindow.md)
  /-- `GR.READ`, opcode 0xA0, rule R301. -/
  | grRead (r : BitVec 8)
  /-- `GR.WRITE`, opcode 0xA1, rule R302. -/
  | grWrite (v : Octa) (r : BitVec 8)
  /-- `SR.READ`, opcode 0xA2, rule R309. -/
  | srRead (n : BitVec 5)
  /-- `SR.WRITE`, opcode 0xA3, rule R310. -/
  | srWrite (v : Octa) (n : BitVec 5)
  /-- `PUSHF`, opcode 0xA4, rule R307. -/
  | pushf
  /-- `POPF`, opcode 0xA5, rule R308. -/
  | popf (size : BitVec 9)
deriving DecidableEq, Repr

/-- A command as it stands on the command port (R100, R101): the opcode, three operand ports of 64 bits taken in operand order,
and the stream of a sequence operand (R102). DESIGN CHOICE (log 1): the spec leaves the bundling of ports open. -/
structure Command where
  op : BitVec 8
  p0 : Octa
  p1 : Octa
  p2 : Octa
  stream : List Octa
deriving DecidableEq, Repr

/-- What the external engine can do to the block: issue a command (R100) or reset it (R370). -/
inductive Input where
  | command (c : Command)
  | reset
deriving DecidableEq, Repr

/-- The mnemonic of an instruction, as opcode_table.json spells it. -/
def Instr.mnemonic : Instr → String
  | .fsEnc _ _ => "FS.ENC"
  | .fsDec _ => "FS.DEC"
  | .maMake _ => "MA.MAKE"
  | .mxMake _ _ => "MX.MAKE"
  | .mxFromint _ => "MX.FROMINT"
  | .mxTrunc _ => "MX.TRUNC"
  | .mxToint _ => "MX.TOINT"
  | .mxSign _ => "MX.SIGN"
  | .mxMag _ => "MX.MAG"
  | .mxGetb _ _ => "MX.GETB"
  | .mxSetb _ _ _ => "MX.SETB"
  | .mxNeg _ => "MX.NEG"
  | .mxAdd _ _ => "MX.ADD"
  | .mxSub _ _ => "MX.SUB"
  | .mxMul _ _ => "MX.MUL"
  | .mxDiv _ _ _ => "MX.DIV"
  | .mxCmp _ _ => "MX.CMP"
  | .mxIszero _ => "MX.ISZERO"
  | .mxEqbits _ _ => "MX.EQBITS"
  | .mxShl _ _ => "MX.SHL"
  | .mxShr _ _ => "MX.SHR"
  | .mxRol _ _ => "MX.ROL"
  | .mxRor _ _ => "MX.ROR"
  | .mxShld _ _ _ => "MX.SHLD"
  | .mxShrd _ _ _ => "MX.SHRD"
  | .mxRold _ _ _ => "MX.ROLD"
  | .mxRord _ _ _ => "MX.RORD"
  | .mxFget _ _ => "MX.FGET"
  | .mxFput _ _ _ => "MX.FPUT"
  | .mmLoad _ _ => "MM.LOAD"
  | .mmStore _ _ _ => "MM.STORE"
  | .mmLoadprog _ _ => "MM.LOADPROG"
  | .mmLoadimg _ _ => "MM.LOADIMG"
  | .mmDump _ _ => "MM.DUMP"
  | .mmClear => "MM.CLEAR"
  | .mmClrrng _ _ => "MM.CLRRNG"
  | .mrRead _ => "MR.READ"
  | .mrWrite _ _ => "MR.WRITE"
  | .mrEa _ _ => "MR.EA"
  | .mrIdxoff _ => "MR.IDXOFF"
  | .mrGetov => "MR.GETOV"
  | .mrSetov _ => "MR.SETOV"
  | .mrGetci => "MR.GETCI"
  | .mrSetci _ => "MR.SETCI"
  | .addB _ _ => "ADD.B"
  | .addW _ _ => "ADD.W"
  | .addT _ _ => "ADD.T"
  | .addO _ _ => "ADD.O"
  | .subB _ _ => "SUB.B"
  | .subW _ _ => "SUB.W"
  | .subT _ _ => "SUB.T"
  | .subO _ _ => "SUB.O"
  | .mulB _ _ => "MUL.B"
  | .mulW _ _ => "MUL.W"
  | .mulT _ _ => "MUL.T"
  | .mulO _ _ => "MUL.O"
  | .adduoB _ _ => "ADDUO.B"
  | .adduoW _ _ => "ADDUO.W"
  | .adduoT _ _ => "ADDUO.T"
  | .adduoO _ _ => "ADDUO.O"
  | .addsoB _ _ => "ADDSO.B"
  | .addsoW _ _ => "ADDSO.W"
  | .addsoT _ _ => "ADDSO.T"
  | .addsoO _ _ => "ADDSO.O"
  | .subuoB _ _ => "SUBUO.B"
  | .subuoW _ _ => "SUBUO.W"
  | .subuoT _ _ => "SUBUO.T"
  | .subuoO _ _ => "SUBUO.O"
  | .subsoB _ _ => "SUBSO.B"
  | .subsoW _ _ => "SUBSO.W"
  | .subsoT _ _ => "SUBSO.T"
  | .subsoO _ _ => "SUBSO.O"
  | .muluoB _ _ => "MULUO.B"
  | .muluoW _ _ => "MULUO.W"
  | .muluoT _ _ => "MULUO.T"
  | .muluoO _ _ => "MULUO.O"
  | .mulsoB _ _ => "MULSO.B"
  | .mulsoW _ _ => "MULSO.W"
  | .mulsoT _ _ => "MULSO.T"
  | .mulsoO _ _ => "MULSO.O"
  | .mulfuB _ _ => "MULFU.B"
  | .mulfuW _ _ => "MULFU.W"
  | .mulfuT _ _ => "MULFU.T"
  | .mulfuO _ _ => "MULFU.O"
  | .divuB _ _ => "DIVU.B"
  | .divuW _ _ => "DIVU.W"
  | .divuT _ _ => "DIVU.T"
  | .divuO _ _ => "DIVU.O"
  | .cmpuB _ _ => "CMPU.B"
  | .cmpuW _ _ => "CMPU.W"
  | .cmpuT _ _ => "CMPU.T"
  | .cmpuO _ _ => "CMPU.O"
  | .cmpsB _ _ => "CMPS.B"
  | .cmpsW _ _ => "CMPS.W"
  | .cmpsT _ _ => "CMPS.T"
  | .cmpsO _ _ => "CMPS.O"
  | .splitW _ => "SPLIT.W"
  | .splitT _ => "SPLIT.T"
  | .splitO _ => "SPLIT.O"
  | .joinW _ _ => "JOIN.W"
  | .joinT _ _ => "JOIN.T"
  | .joinO _ _ => "JOIN.O"
  | .truncB _ => "TRUNC.B"
  | .truncW _ => "TRUNC.W"
  | .truncT _ => "TRUNC.T"
  | .truncO _ => "TRUNC.O"
  | .svalB _ => "SVAL.B"
  | .svalW _ => "SVAL.W"
  | .svalT _ => "SVAL.T"
  | .svalO _ => "SVAL.O"
  | .ldB _ => "LD.B"
  | .ldW _ => "LD.W"
  | .ldT _ => "LD.T"
  | .ldO _ => "LD.O"
  | .stB _ _ => "ST.B"
  | .stW _ _ => "ST.W"
  | .stT _ _ => "ST.T"
  | .stO _ _ => "ST.O"
  | .mbLoadimg _ _ => "MB.LOADIMG"
  | .mbDump _ _ => "MB.DUMP"
  | .grRead _ => "GR.READ"
  | .grWrite _ _ => "GR.WRITE"
  | .srRead _ => "SR.READ"
  | .srWrite _ _ => "SR.WRITE"
  | .pushf => "PUSHF"
  | .popf _ => "POPF"

end Sys2Proof
end

