-- ==== Sys2Proof/WellFormed.lean ====
section
/-! DEFINITION. Well-formed commands: the operands are values the operand types of spec 30_encoding.md rule R101 and the checks of
60_exceptions.md rule R342 call legal, as far as the operands alone decide it. Every term of `Instr` can stand on the ports and
is executed; an ill-formed one is what the spec answers with a contract violation (R341), and a driver that rules bad
operands out makes exactly these checks first (R390). -/

namespace Sys2Proof

/-- `0 <= left <= right <= 5` (R20, R140). -/
def pairLegal (left right : Nat) : Bool := decide (left ≤ right ∧ right ≤ 5)

/-- A `FieldCode` that is one of the 21 valid codes (R106, R140). -/
def fieldLegal (f : FieldCode) : Bool := pairLegal (f.toNat / 8) (f.toNat % 8)

/-- A byte position 1 to 5 (R150). -/
def byteNoLegal (k : BitVec 3) : Bool := decide (1 ≤ k.toNat ∧ k.toNat ≤ 5)

/-- The operands are legal values of their types (R101, R342, R390). -/
def Instr.wellFormed : Instr → Bool
  | .fsEnc left right => pairLegal left.toNat right.toNat
  | .fsDec f => fieldLegal f
  | .maMake _ => true
  | .mxMake _ m => decide (m.toNat < 2 ^ 30)
  | .mxFromint v => decide (v.toInt.natAbs < 2 ^ 30)
  | .mxTrunc _ => true
  | .mxToint _ => true
  | .mxSign _ => true
  | .mxMag _ => true
  | .mxGetb _ k => byteNoLegal k
  | .mxSetb _ k b => byteNoLegal k && decide (b.toNat < 64)
  | .mxNeg _ => true
  | .mxAdd _ _ => true
  | .mxSub _ _ => true
  | .mxMul _ _ => true
  | .mxDiv _ _ _ => true
  | .mxCmp _ _ => true
  | .mxIszero _ => true
  | .mxEqbits _ _ => true
  | .mxShl _ _ => true
  | .mxShr _ _ => true
  | .mxRol _ _ => true
  | .mxRor _ _ => true
  | .mxShld _ _ _ => true
  | .mxShrd _ _ _ => true
  | .mxRold _ _ _ => true
  | .mxRord _ _ _ => true
  | .mxFget _ f => fieldLegal f
  | .mxFput _ _ f => fieldLegal f
  | .mmLoad _ f => fieldLegal f
  | .mmStore _ _ f => fieldLegal f
  | .mmLoadprog _ _ => true
  | .mmLoadimg _ _ => true
  | .mmDump _ _ => true
  | .mmClear => true
  | .mmClrrng _ _ => true
  | .mrRead id => decide (id.toNat ≤ 8)
  | .mrWrite _ id => decide (id.toNat ≤ 8)
  | .mrEa _ _ => true
  | .mrIdxoff _ => true
  | .mrGetov => true
  | .mrSetov _ => true
  | .mrGetci => true
  | .mrSetci c => decide (c.toNat ≠ 3)
  | .addB _ _ => true
  | .addW _ _ => true
  | .addT _ _ => true
  | .addO _ _ => true
  | .subB _ _ => true
  | .subW _ _ => true
  | .subT _ _ => true
  | .subO _ _ => true
  | .mulB _ _ => true
  | .mulW _ _ => true
  | .mulT _ _ => true
  | .mulO _ _ => true
  | .adduoB _ _ => true
  | .adduoW _ _ => true
  | .adduoT _ _ => true
  | .adduoO _ _ => true
  | .addsoB _ _ => true
  | .addsoW _ _ => true
  | .addsoT _ _ => true
  | .addsoO _ _ => true
  | .subuoB _ _ => true
  | .subuoW _ _ => true
  | .subuoT _ _ => true
  | .subuoO _ _ => true
  | .subsoB _ _ => true
  | .subsoW _ _ => true
  | .subsoT _ _ => true
  | .subsoO _ _ => true
  | .muluoB _ _ => true
  | .muluoW _ _ => true
  | .muluoT _ _ => true
  | .muluoO _ _ => true
  | .mulsoB _ _ => true
  | .mulsoW _ _ => true
  | .mulsoT _ _ => true
  | .mulsoO _ _ => true
  | .mulfuB _ _ => true
  | .mulfuW _ _ => true
  | .mulfuT _ _ => true
  | .mulfuO _ _ => true
  | .divuB _ _ => true
  | .divuW _ _ => true
  | .divuT _ _ => true
  | .divuO _ _ => true
  | .cmpuB _ _ => true
  | .cmpuW _ _ => true
  | .cmpuT _ _ => true
  | .cmpuO _ _ => true
  | .cmpsB _ _ => true
  | .cmpsW _ _ => true
  | .cmpsT _ _ => true
  | .cmpsO _ _ => true
  | .splitW _ => true
  | .splitT _ => true
  | .splitO _ => true
  | .joinW _ _ => true
  | .joinT _ _ => true
  | .joinO _ _ => true
  | .truncB _ => true
  | .truncW _ => true
  | .truncT _ => true
  | .truncO _ => true
  | .svalB _ => true
  | .svalW _ => true
  | .svalT _ => true
  | .svalO _ => true
  | .ldB _ => true
  | .ldW _ => true
  | .ldT _ => true
  | .ldO _ => true
  | .stB _ _ => true
  | .stW _ _ => true
  | .stT _ _ => true
  | .stO _ _ => true
  | .mbLoadimg _ _ => true
  | .mbDump _ _ => true
  | .grRead _ => true
  | .grWrite _ _ => true
  | .srRead _ => true
  | .srWrite _ _ => true
  | .pushf => true
  | .popf size => decide (size.toNat ≤ 256)

/-- `i` is well formed. -/
abbrev Instr.WellFormed (i : Instr) : Prop := i.wellFormed = true

end Sys2Proof
end

