-- ==== Sys2Proof/Decode.lean ====
section
/-! DEFINITION. The decoder and the encoder of the command port (spec 30_encoding.md rules R100 to R107, R116, R117,
opcode_table.json). The decoder is total: each of the 256 opcodes is one of the 126 commands or is rejected by name. -/

namespace Sys2Proof

/-- Why a command is rejected: its opcode is one of the 130 reserved values (R116). -/
inductive DecodeReject where
  | reservedOpcode (op : BitVec 8)
deriving DecidableEq, Repr

/-- The word of a 31-bit pattern: bit 30 the sign, bits 29:0 the magnitude (R21). -/
def mixOfRaw (raw : BitVec 31) : MixWord := ⟨raw.getLsbD 30, raw.setWidth 30⟩

/-- The raw storage view of a word, 31 bits (R21). -/
def mixRaw (w : MixWord) : BitVec 31 := BitVec.ofBool w.sign ++ w.mag

/-- The low `w` bits of an operand port; the upper bits are ignored (R101, R240). -/
def portBits (w : Nat) (p : Octa) : BitVec w := p.setWidth w

/-- A `MixWord` operand: the low 31 bits of its port (R101). -/
def portMix (p : Octa) : MixWord := mixOfRaw (p.setWidth 31)

/-- A `Bool` operand: the low bit of its port (R101). -/
def portBool (p : Octa) : Bool := p.getLsbD 0

/-- A value of `w` bits on a 64-bit port, zero-extended (R240). -/
def bitsPort {w : Nat} (v : BitVec w) : Octa := v.setWidth 64

/-- A `MixWord` on a 64-bit port, in its raw form (R21). -/
def mixPort (w : MixWord) : Octa := (mixRaw w).setWidth 64

/-- A `Bool` on a 64-bit port. -/
def boolPort (b : Bool) : Octa := (BitVec.ofBool b).setWidth 64

/-- One row of the opcode map: the mnemonic, the opcode (mask 0xFF) and how its operands are read off the ports. -/
structure OpcodeRow where
  mnemonic : String
  op : BitVec 8
  read : Command → Instr

/-- Opcodes 0x00 to 0x21, field specification, construction and the MIX arithmetic unit (R104). -/
def rowsMxa : List OpcodeRow := [
  ⟨"FS.ENC", 0x00, fun c => .fsEnc (portBits 3 c.p0) (portBits 3 c.p1)⟩,
  ⟨"FS.DEC", 0x01, fun c => .fsDec (portBits 6 c.p0)⟩,
  ⟨"MA.MAKE", 0x02, fun c => .maMake c.p0⟩,
  ⟨"MX.MAKE", 0x08, fun c => .mxMake (portBool c.p0) (portBits 32 c.p1)⟩,
  ⟨"MX.FROMINT", 0x09, fun c => .mxFromint (portBits 32 c.p0)⟩,
  ⟨"MX.TRUNC", 0x0A, fun c => .mxTrunc (portBits 32 c.p0)⟩,
  ⟨"MX.TOINT", 0x0B, fun c => .mxToint (portMix c.p0)⟩,
  ⟨"MX.SIGN", 0x0C, fun c => .mxSign (portMix c.p0)⟩,
  ⟨"MX.MAG", 0x0D, fun c => .mxMag (portMix c.p0)⟩,
  ⟨"MX.GETB", 0x0E, fun c => .mxGetb (portMix c.p0) (portBits 3 c.p1)⟩,
  ⟨"MX.SETB", 0x0F, fun c => .mxSetb (portMix c.p0) (portBits 3 c.p1) (portBits 8 c.p2)⟩,
  ⟨"MX.NEG", 0x10, fun c => .mxNeg (portMix c.p0)⟩,
  ⟨"MX.ADD", 0x11, fun c => .mxAdd (portMix c.p0) (portMix c.p1)⟩,
  ⟨"MX.SUB", 0x12, fun c => .mxSub (portMix c.p0) (portMix c.p1)⟩,
  ⟨"MX.MUL", 0x13, fun c => .mxMul (portMix c.p0) (portMix c.p1)⟩,
  ⟨"MX.DIV", 0x14, fun c => .mxDiv (portMix c.p0) (portMix c.p1) (portMix c.p2)⟩,
  ⟨"MX.CMP", 0x15, fun c => .mxCmp (portMix c.p0) (portMix c.p1)⟩,
  ⟨"MX.ISZERO", 0x16, fun c => .mxIszero (portMix c.p0)⟩,
  ⟨"MX.EQBITS", 0x17, fun c => .mxEqbits (portMix c.p0) (portMix c.p1)⟩,
  ⟨"MX.SHL", 0x18, fun c => .mxShl (portMix c.p0) (portBits 12 c.p1)⟩,
  ⟨"MX.SHR", 0x19, fun c => .mxShr (portMix c.p0) (portBits 12 c.p1)⟩,
  ⟨"MX.ROL", 0x1A, fun c => .mxRol (portMix c.p0) (portBits 12 c.p1)⟩,
  ⟨"MX.ROR", 0x1B, fun c => .mxRor (portMix c.p0) (portBits 12 c.p1)⟩,
  ⟨"MX.SHLD", 0x1C, fun c => .mxShld (portMix c.p0) (portMix c.p1) (portBits 12 c.p2)⟩,
  ⟨"MX.SHRD", 0x1D, fun c => .mxShrd (portMix c.p0) (portMix c.p1) (portBits 12 c.p2)⟩,
  ⟨"MX.ROLD", 0x1E, fun c => .mxRold (portMix c.p0) (portMix c.p1) (portBits 12 c.p2)⟩,
  ⟨"MX.RORD", 0x1F, fun c => .mxRord (portMix c.p0) (portMix c.p1) (portBits 12 c.p2)⟩,
  ⟨"MX.FGET", 0x20, fun c => .mxFget (portMix c.p0) (portBits 6 c.p1)⟩,
  ⟨"MX.FPUT", 0x21, fun c => .mxFput (portMix c.p0) (portMix c.p1) (portBits 6 c.p2)⟩]

/-- Opcodes 0x28 to 0x37, MIX memory and MIX registers (R104). -/
def rowsMix : List OpcodeRow := [
  ⟨"MM.LOAD", 0x28, fun c => .mmLoad (portBits 12 c.p0) (portBits 6 c.p1)⟩,
  ⟨"MM.STORE", 0x29, fun c => .mmStore (portMix c.p0) (portBits 12 c.p1) (portBits 6 c.p2)⟩,
  ⟨"MM.LOADPROG", 0x2A, fun c => .mmLoadprog (portBits 12 c.p0) (c.stream.map portMix)⟩,
  ⟨"MM.LOADIMG", 0x2B, fun c => .mmLoadimg (portBits 12 c.p0) (c.stream.map portMix)⟩,
  ⟨"MM.DUMP", 0x2C, fun c => .mmDump (portBits 12 c.p0) (portBits 13 c.p1)⟩,
  ⟨"MM.CLEAR", 0x2D, fun _ => .mmClear⟩,
  ⟨"MM.CLRRNG", 0x2E, fun c => .mmClrrng (portBits 12 c.p0) (portBits 13 c.p1)⟩,
  ⟨"MR.READ", 0x30, fun c => .mrRead (portBits 4 c.p0)⟩,
  ⟨"MR.WRITE", 0x31, fun c => .mrWrite (portMix c.p0) (portBits 4 c.p1)⟩,
  ⟨"MR.EA", 0x32, fun c => .mrEa (portBits 12 c.p0) (portBits 3 c.p1)⟩,
  ⟨"MR.IDXOFF", 0x33, fun c => .mrIdxoff (portBits 3 c.p0)⟩,
  ⟨"MR.GETOV", 0x34, fun _ => .mrGetov⟩,
  ⟨"MR.SETOV", 0x35, fun c => .mrSetov (portBool c.p0)⟩,
  ⟨"MR.GETCI", 0x36, fun _ => .mrGetci⟩,
  ⟨"MR.SETCI", 0x37, fun c => .mrSetci (portBits 2 c.p0)⟩]

/-- Opcodes 0x40 to 0x67, MMIX add, subtract, multiply (R104). -/
def rowsMmiArith : List OpcodeRow := [
  ⟨"ADD.B", 0x40, fun c => .addB (portBits 8 c.p0) (portBits 8 c.p1)⟩,
  ⟨"ADD.W", 0x41, fun c => .addW (portBits 16 c.p0) (portBits 16 c.p1)⟩,
  ⟨"ADD.T", 0x42, fun c => .addT (portBits 32 c.p0) (portBits 32 c.p1)⟩,
  ⟨"ADD.O", 0x43, fun c => .addO c.p0 c.p1⟩,
  ⟨"SUB.B", 0x44, fun c => .subB (portBits 8 c.p0) (portBits 8 c.p1)⟩,
  ⟨"SUB.W", 0x45, fun c => .subW (portBits 16 c.p0) (portBits 16 c.p1)⟩,
  ⟨"SUB.T", 0x46, fun c => .subT (portBits 32 c.p0) (portBits 32 c.p1)⟩,
  ⟨"SUB.O", 0x47, fun c => .subO c.p0 c.p1⟩,
  ⟨"MUL.B", 0x48, fun c => .mulB (portBits 8 c.p0) (portBits 8 c.p1)⟩,
  ⟨"MUL.W", 0x49, fun c => .mulW (portBits 16 c.p0) (portBits 16 c.p1)⟩,
  ⟨"MUL.T", 0x4A, fun c => .mulT (portBits 32 c.p0) (portBits 32 c.p1)⟩,
  ⟨"MUL.O", 0x4B, fun c => .mulO c.p0 c.p1⟩,
  ⟨"ADDUO.B", 0x4C, fun c => .adduoB (portBits 8 c.p0) (portBits 8 c.p1)⟩,
  ⟨"ADDUO.W", 0x4D, fun c => .adduoW (portBits 16 c.p0) (portBits 16 c.p1)⟩,
  ⟨"ADDUO.T", 0x4E, fun c => .adduoT (portBits 32 c.p0) (portBits 32 c.p1)⟩,
  ⟨"ADDUO.O", 0x4F, fun c => .adduoO c.p0 c.p1⟩,
  ⟨"ADDSO.B", 0x50, fun c => .addsoB (portBits 8 c.p0) (portBits 8 c.p1)⟩,
  ⟨"ADDSO.W", 0x51, fun c => .addsoW (portBits 16 c.p0) (portBits 16 c.p1)⟩,
  ⟨"ADDSO.T", 0x52, fun c => .addsoT (portBits 32 c.p0) (portBits 32 c.p1)⟩,
  ⟨"ADDSO.O", 0x53, fun c => .addsoO c.p0 c.p1⟩,
  ⟨"SUBUO.B", 0x54, fun c => .subuoB (portBits 8 c.p0) (portBits 8 c.p1)⟩,
  ⟨"SUBUO.W", 0x55, fun c => .subuoW (portBits 16 c.p0) (portBits 16 c.p1)⟩,
  ⟨"SUBUO.T", 0x56, fun c => .subuoT (portBits 32 c.p0) (portBits 32 c.p1)⟩,
  ⟨"SUBUO.O", 0x57, fun c => .subuoO c.p0 c.p1⟩,
  ⟨"SUBSO.B", 0x58, fun c => .subsoB (portBits 8 c.p0) (portBits 8 c.p1)⟩,
  ⟨"SUBSO.W", 0x59, fun c => .subsoW (portBits 16 c.p0) (portBits 16 c.p1)⟩,
  ⟨"SUBSO.T", 0x5A, fun c => .subsoT (portBits 32 c.p0) (portBits 32 c.p1)⟩,
  ⟨"SUBSO.O", 0x5B, fun c => .subsoO c.p0 c.p1⟩,
  ⟨"MULUO.B", 0x5C, fun c => .muluoB (portBits 8 c.p0) (portBits 8 c.p1)⟩,
  ⟨"MULUO.W", 0x5D, fun c => .muluoW (portBits 16 c.p0) (portBits 16 c.p1)⟩,
  ⟨"MULUO.T", 0x5E, fun c => .muluoT (portBits 32 c.p0) (portBits 32 c.p1)⟩,
  ⟨"MULUO.O", 0x5F, fun c => .muluoO c.p0 c.p1⟩,
  ⟨"MULSO.B", 0x60, fun c => .mulsoB (portBits 8 c.p0) (portBits 8 c.p1)⟩,
  ⟨"MULSO.W", 0x61, fun c => .mulsoW (portBits 16 c.p0) (portBits 16 c.p1)⟩,
  ⟨"MULSO.T", 0x62, fun c => .mulsoT (portBits 32 c.p0) (portBits 32 c.p1)⟩,
  ⟨"MULSO.O", 0x63, fun c => .mulsoO c.p0 c.p1⟩,
  ⟨"MULFU.B", 0x64, fun c => .mulfuB (portBits 8 c.p0) (portBits 8 c.p1)⟩,
  ⟨"MULFU.W", 0x65, fun c => .mulfuW (portBits 16 c.p0) (portBits 16 c.p1)⟩,
  ⟨"MULFU.T", 0x66, fun c => .mulfuT (portBits 32 c.p0) (portBits 32 c.p1)⟩,
  ⟨"MULFU.O", 0x67, fun c => .mulfuO c.p0 c.p1⟩]

/-- Opcodes 0x68 to 0x83, MMIX divide, compare, split, join, convert (R104). -/
def rowsMmiRest : List OpcodeRow := [
  ⟨"DIVU.B", 0x68, fun c => .divuB (portBits 8 c.p0) (portBits 8 c.p1)⟩,
  ⟨"DIVU.W", 0x69, fun c => .divuW (portBits 16 c.p0) (portBits 16 c.p1)⟩,
  ⟨"DIVU.T", 0x6A, fun c => .divuT (portBits 32 c.p0) (portBits 32 c.p1)⟩,
  ⟨"DIVU.O", 0x6B, fun c => .divuO c.p0 c.p1⟩,
  ⟨"CMPU.B", 0x6C, fun c => .cmpuB (portBits 8 c.p0) (portBits 8 c.p1)⟩,
  ⟨"CMPU.W", 0x6D, fun c => .cmpuW (portBits 16 c.p0) (portBits 16 c.p1)⟩,
  ⟨"CMPU.T", 0x6E, fun c => .cmpuT (portBits 32 c.p0) (portBits 32 c.p1)⟩,
  ⟨"CMPU.O", 0x6F, fun c => .cmpuO c.p0 c.p1⟩,
  ⟨"CMPS.B", 0x70, fun c => .cmpsB (portBits 8 c.p0) (portBits 8 c.p1)⟩,
  ⟨"CMPS.W", 0x71, fun c => .cmpsW (portBits 16 c.p0) (portBits 16 c.p1)⟩,
  ⟨"CMPS.T", 0x72, fun c => .cmpsT (portBits 32 c.p0) (portBits 32 c.p1)⟩,
  ⟨"CMPS.O", 0x73, fun c => .cmpsO c.p0 c.p1⟩,
  ⟨"SPLIT.W", 0x75, fun c => .splitW (portBits 16 c.p0)⟩,
  ⟨"SPLIT.T", 0x76, fun c => .splitT (portBits 32 c.p0)⟩,
  ⟨"SPLIT.O", 0x77, fun c => .splitO c.p0⟩,
  ⟨"JOIN.W", 0x79, fun c => .joinW (portBits 8 c.p0) (portBits 8 c.p1)⟩,
  ⟨"JOIN.T", 0x7A, fun c => .joinT (portBits 16 c.p0) (portBits 16 c.p1)⟩,
  ⟨"JOIN.O", 0x7B, fun c => .joinO (portBits 32 c.p0) (portBits 32 c.p1)⟩,
  ⟨"TRUNC.B", 0x7C, fun c => .truncB c.p0⟩,
  ⟨"TRUNC.W", 0x7D, fun c => .truncW c.p0⟩,
  ⟨"TRUNC.T", 0x7E, fun c => .truncT c.p0⟩,
  ⟨"TRUNC.O", 0x7F, fun c => .truncO c.p0⟩,
  ⟨"SVAL.B", 0x80, fun c => .svalB (portBits 8 c.p0)⟩,
  ⟨"SVAL.W", 0x81, fun c => .svalW (portBits 16 c.p0)⟩,
  ⟨"SVAL.T", 0x82, fun c => .svalT (portBits 32 c.p0)⟩,
  ⟨"SVAL.O", 0x83, fun c => .svalO c.p0⟩]

/-- Opcodes 0x90 to 0xA5, MMIX memory and the register window (R104). -/
def rowsMmix : List OpcodeRow := [
  ⟨"LD.B", 0x90, fun c => .ldB c.p0⟩,
  ⟨"LD.W", 0x91, fun c => .ldW c.p0⟩,
  ⟨"LD.T", 0x92, fun c => .ldT c.p0⟩,
  ⟨"LD.O", 0x93, fun c => .ldO c.p0⟩,
  ⟨"ST.B", 0x94, fun c => .stB (portBits 8 c.p0) c.p1⟩,
  ⟨"ST.W", 0x95, fun c => .stW (portBits 16 c.p0) c.p1⟩,
  ⟨"ST.T", 0x96, fun c => .stT (portBits 32 c.p0) c.p1⟩,
  ⟨"ST.O", 0x97, fun c => .stO c.p0 c.p1⟩,
  ⟨"MB.LOADIMG", 0x98, fun c => .mbLoadimg c.p0 (c.stream.map (portBits 8))⟩,
  ⟨"MB.DUMP", 0x99, fun c => .mbDump c.p0 c.p1⟩,
  ⟨"GR.READ", 0xA0, fun c => .grRead (portBits 8 c.p0)⟩,
  ⟨"GR.WRITE", 0xA1, fun c => .grWrite c.p0 (portBits 8 c.p1)⟩,
  ⟨"SR.READ", 0xA2, fun c => .srRead (portBits 5 c.p0)⟩,
  ⟨"SR.WRITE", 0xA3, fun c => .srWrite c.p0 (portBits 5 c.p1)⟩,
  ⟨"PUSHF", 0xA4, fun _ => .pushf⟩,
  ⟨"POPF", 0xA5, fun c => .popf (portBits 9 c.p0)⟩]

/-- The whole opcode map, 126 rows (R104). -/
def opcodeRows : List OpcodeRow := rowsMxa ++ rowsMix ++ rowsMmiArith ++ rowsMmiRest ++ rowsMmix

/-- The row of an opcode, if the opcode is not reserved. -/
def opcodeRow (op : BitVec 8) : Option OpcodeRow := opcodeRows.find? (fun r => r.op == op)

/-- The decoder: the command's row reads its operands off the ports; a reserved opcode is rejected by name (R116). -/
def decode (c : Command) : Except DecodeReject Instr :=
  match opcodeRow c.op with
  | some r => .ok (r.read c)
  | none => .error (.reservedOpcode c.op)

/-- A command with the given operand ports; ports it does not use carry zero. -/
def onPorts (op : BitVec 8) (ports : List Octa) (stream : List Octa) : Command where
  op := op
  p0 := ports.getD 0 0
  p1 := ports.getD 1 0
  p2 := ports.getD 2 0
  stream := stream

/-- The encoder: the opcode and the operand values as they stand on the ports (R100, R118, 95_test_vectors.md section 9). -/
def encode : Instr → Command
  | .fsEnc left right => onPorts 0x00 [bitsPort left, bitsPort right] []
  | .fsDec f => onPorts 0x01 [bitsPort f] []
  | .maMake v => onPorts 0x02 [v] []
  | .mxMake neg m => onPorts 0x08 [boolPort neg, bitsPort m] []
  | .mxFromint v => onPorts 0x09 [bitsPort v] []
  | .mxTrunc raw => onPorts 0x0A [bitsPort raw] []
  | .mxToint w => onPorts 0x0B [mixPort w] []
  | .mxSign w => onPorts 0x0C [mixPort w] []
  | .mxMag w => onPorts 0x0D [mixPort w] []
  | .mxGetb w k => onPorts 0x0E [mixPort w, bitsPort k] []
  | .mxSetb w k b => onPorts 0x0F [mixPort w, bitsPort k, bitsPort b] []
  | .mxNeg w => onPorts 0x10 [mixPort w] []
  | .mxAdd a b => onPorts 0x11 [mixPort a, mixPort b] []
  | .mxSub a b => onPorts 0x12 [mixPort a, mixPort b] []
  | .mxMul a b => onPorts 0x13 [mixPort a, mixPort b] []
  | .mxDiv hi lo d => onPorts 0x14 [mixPort hi, mixPort lo, mixPort d] []
  | .mxCmp a b => onPorts 0x15 [mixPort a, mixPort b] []
  | .mxIszero w => onPorts 0x16 [mixPort w] []
  | .mxEqbits a b => onPorts 0x17 [mixPort a, mixPort b] []
  | .mxShl w n => onPorts 0x18 [mixPort w, bitsPort n] []
  | .mxShr w n => onPorts 0x19 [mixPort w, bitsPort n] []
  | .mxRol w n => onPorts 0x1A [mixPort w, bitsPort n] []
  | .mxRor w n => onPorts 0x1B [mixPort w, bitsPort n] []
  | .mxShld hi lo n => onPorts 0x1C [mixPort hi, mixPort lo, bitsPort n] []
  | .mxShrd hi lo n => onPorts 0x1D [mixPort hi, mixPort lo, bitsPort n] []
  | .mxRold hi lo n => onPorts 0x1E [mixPort hi, mixPort lo, bitsPort n] []
  | .mxRord hi lo n => onPorts 0x1F [mixPort hi, mixPort lo, bitsPort n] []
  | .mxFget w f => onPorts 0x20 [mixPort w, bitsPort f] []
  | .mxFput old v f => onPorts 0x21 [mixPort old, mixPort v, bitsPort f] []
  | .mmLoad addr f => onPorts 0x28 [bitsPort addr, bitsPort f] []
  | .mmStore v addr f => onPorts 0x29 [mixPort v, bitsPort addr, bitsPort f] []
  | .mmLoadprog start ws => onPorts 0x2A [bitsPort start] (ws.map mixPort)
  | .mmLoadimg start ws => onPorts 0x2B [bitsPort start] (ws.map mixPort)
  | .mmDump start count => onPorts 0x2C [bitsPort start, bitsPort count] []
  | .mmClear => onPorts 0x2D [] []
  | .mmClrrng start count => onPorts 0x2E [bitsPort start, bitsPort count] []
  | .mrRead id => onPorts 0x30 [bitsPort id] []
  | .mrWrite v id => onPorts 0x31 [mixPort v, bitsPort id] []
  | .mrEa base idx => onPorts 0x32 [bitsPort base, bitsPort idx] []
  | .mrIdxoff idx => onPorts 0x33 [bitsPort idx] []
  | .mrGetov => onPorts 0x34 [] []
  | .mrSetov b => onPorts 0x35 [boolPort b] []
  | .mrGetci => onPorts 0x36 [] []
  | .mrSetci c => onPorts 0x37 [bitsPort c] []
  | .addB a b => onPorts 0x40 [bitsPort a, bitsPort b] []
  | .addW a b => onPorts 0x41 [bitsPort a, bitsPort b] []
  | .addT a b => onPorts 0x42 [bitsPort a, bitsPort b] []
  | .addO a b => onPorts 0x43 [a, b] []
  | .subB a b => onPorts 0x44 [bitsPort a, bitsPort b] []
  | .subW a b => onPorts 0x45 [bitsPort a, bitsPort b] []
  | .subT a b => onPorts 0x46 [bitsPort a, bitsPort b] []
  | .subO a b => onPorts 0x47 [a, b] []
  | .mulB a b => onPorts 0x48 [bitsPort a, bitsPort b] []
  | .mulW a b => onPorts 0x49 [bitsPort a, bitsPort b] []
  | .mulT a b => onPorts 0x4A [bitsPort a, bitsPort b] []
  | .mulO a b => onPorts 0x4B [a, b] []
  | .adduoB a b => onPorts 0x4C [bitsPort a, bitsPort b] []
  | .adduoW a b => onPorts 0x4D [bitsPort a, bitsPort b] []
  | .adduoT a b => onPorts 0x4E [bitsPort a, bitsPort b] []
  | .adduoO a b => onPorts 0x4F [a, b] []
  | .addsoB a b => onPorts 0x50 [bitsPort a, bitsPort b] []
  | .addsoW a b => onPorts 0x51 [bitsPort a, bitsPort b] []
  | .addsoT a b => onPorts 0x52 [bitsPort a, bitsPort b] []
  | .addsoO a b => onPorts 0x53 [a, b] []
  | .subuoB a b => onPorts 0x54 [bitsPort a, bitsPort b] []
  | .subuoW a b => onPorts 0x55 [bitsPort a, bitsPort b] []
  | .subuoT a b => onPorts 0x56 [bitsPort a, bitsPort b] []
  | .subuoO a b => onPorts 0x57 [a, b] []
  | .subsoB a b => onPorts 0x58 [bitsPort a, bitsPort b] []
  | .subsoW a b => onPorts 0x59 [bitsPort a, bitsPort b] []
  | .subsoT a b => onPorts 0x5A [bitsPort a, bitsPort b] []
  | .subsoO a b => onPorts 0x5B [a, b] []
  | .muluoB a b => onPorts 0x5C [bitsPort a, bitsPort b] []
  | .muluoW a b => onPorts 0x5D [bitsPort a, bitsPort b] []
  | .muluoT a b => onPorts 0x5E [bitsPort a, bitsPort b] []
  | .muluoO a b => onPorts 0x5F [a, b] []
  | .mulsoB a b => onPorts 0x60 [bitsPort a, bitsPort b] []
  | .mulsoW a b => onPorts 0x61 [bitsPort a, bitsPort b] []
  | .mulsoT a b => onPorts 0x62 [bitsPort a, bitsPort b] []
  | .mulsoO a b => onPorts 0x63 [a, b] []
  | .mulfuB a b => onPorts 0x64 [bitsPort a, bitsPort b] []
  | .mulfuW a b => onPorts 0x65 [bitsPort a, bitsPort b] []
  | .mulfuT a b => onPorts 0x66 [bitsPort a, bitsPort b] []
  | .mulfuO a b => onPorts 0x67 [a, b] []
  | .divuB a b => onPorts 0x68 [bitsPort a, bitsPort b] []
  | .divuW a b => onPorts 0x69 [bitsPort a, bitsPort b] []
  | .divuT a b => onPorts 0x6A [bitsPort a, bitsPort b] []
  | .divuO a b => onPorts 0x6B [a, b] []
  | .cmpuB a b => onPorts 0x6C [bitsPort a, bitsPort b] []
  | .cmpuW a b => onPorts 0x6D [bitsPort a, bitsPort b] []
  | .cmpuT a b => onPorts 0x6E [bitsPort a, bitsPort b] []
  | .cmpuO a b => onPorts 0x6F [a, b] []
  | .cmpsB a b => onPorts 0x70 [bitsPort a, bitsPort b] []
  | .cmpsW a b => onPorts 0x71 [bitsPort a, bitsPort b] []
  | .cmpsT a b => onPorts 0x72 [bitsPort a, bitsPort b] []
  | .cmpsO a b => onPorts 0x73 [a, b] []
  | .splitW v => onPorts 0x75 [bitsPort v] []
  | .splitT v => onPorts 0x76 [bitsPort v] []
  | .splitO v => onPorts 0x77 [v] []
  | .joinW hi lo => onPorts 0x79 [bitsPort hi, bitsPort lo] []
  | .joinT hi lo => onPorts 0x7A [bitsPort hi, bitsPort lo] []
  | .joinO hi lo => onPorts 0x7B [bitsPort hi, bitsPort lo] []
  | .truncB v => onPorts 0x7C [v] []
  | .truncW v => onPorts 0x7D [v] []
  | .truncT v => onPorts 0x7E [v] []
  | .truncO v => onPorts 0x7F [v] []
  | .svalB v => onPorts 0x80 [bitsPort v] []
  | .svalW v => onPorts 0x81 [bitsPort v] []
  | .svalT v => onPorts 0x82 [bitsPort v] []
  | .svalO v => onPorts 0x83 [v] []
  | .ldB addr => onPorts 0x90 [addr] []
  | .ldW addr => onPorts 0x91 [addr] []
  | .ldT addr => onPorts 0x92 [addr] []
  | .ldO addr => onPorts 0x93 [addr] []
  | .stB v addr => onPorts 0x94 [bitsPort v, addr] []
  | .stW v addr => onPorts 0x95 [bitsPort v, addr] []
  | .stT v addr => onPorts 0x96 [bitsPort v, addr] []
  | .stO v addr => onPorts 0x97 [v, addr] []
  | .mbLoadimg start bs => onPorts 0x98 [start] (bs.map bitsPort)
  | .mbDump start count => onPorts 0x99 [start, count] []
  | .grRead r => onPorts 0xA0 [bitsPort r] []
  | .grWrite v r => onPorts 0xA1 [v, bitsPort r] []
  | .srRead n => onPorts 0xA2 [bitsPort n] []
  | .srWrite v n => onPorts 0xA3 [v, bitsPort n] []
  | .pushf => onPorts 0xA4 [] []
  | .popf size => onPorts 0xA5 [bitsPort size] []

/-- The command whose bits are `w`, bit 0 the least significant bit of the opcode, of which only the low `nbits` count:
bits 7:0 the opcode, then the three operand ports of 64 bits, then an empty stream. DESIGN CHOICE (log 3). -/
def commandOfWord (nbits w : Nat) : Command :=
  let v := w % 2 ^ nbits
  { op := BitVec.ofNat 8 v
    p0 := BitVec.ofNat 64 (v / 2 ^ 8)
    p1 := BitVec.ofNat 64 (v / 2 ^ 72)
    p2 := BitVec.ofNat 64 (v / 2 ^ 136)
    stream := [] }

/-- What the decoder reads from a command whose bits are `w` (numbered as opcode_table.json numbers them). -/
def decodeTableWord (nbits w : Nat) : Option Instr :=
  match decode (commandOfWord nbits w) with
  | .ok i => some i
  | .error _ => none

end Sys2Proof
end

