-- ==== Sys2Proof/Machine/State.lean ====
section
/-! DEFINITION. The state of the block (spec 10_state.md), its response port (30_encoding.md rule R103), the reasons a step can
stop, and the state after reset (70_reset_and_hazards.md rule R370). -/

namespace Sys2Proof.Machine

/-- The kinds of contract violation, what the output `cv_kind` shows (R342); codes 11 to 15 do not exist (U8). -/
inductive CvKind where
  | none
  | fieldSpec
  | magnitude
  | byteIndex
  | byteValue
  | registerIndex
  | operand
  | opcode
  | stackUnderflow
  | geometry
  | frameUnderflow
deriving DecidableEq, Repr

/-- The runtime condition of an MMIX memory access, `err` on the response port (R103, R345). -/
inductive MemErr where
  | none
  | misaligned
deriving DecidableEq, Repr

/-- The response port (R103): four result ports of 64 bits, the sequence result of the bulk dumps (R102), `ovf`, `valid`
and `err`. A narrower result stands zero-extended (R240); a MIX word in its raw form (R21). DESIGN CHOICE (log 4). -/
structure Response where
  r0 : Octa
  r1 : Octa
  r2 : Octa
  r3 : Octa
  seq : List Octa
  ovf : Bool
  valid : Bool
  err : MemErr
deriving DecidableEq, Repr

/-- Every part of the response port zero: the port before the first command (log 4). -/
def Response.zero : Response where
  r0 := 0
  r1 := 0
  r2 := 0
  r3 := 0
  seq := []
  ovf := false
  valid := false
  err := .none

/-- The state of the block. The spec's own pieces first, then the block's output and input, which stand in the state
because a step is a function of the state alone (log 2, log 4). -/
structure State where
  /-- The parameters of this block; no command writes them (R7, R8, R34). -/
  cfg : Config
  /-- The accumulator `A` (R25). -/
  regA : MixWord
  /-- The extension `X` (R25). -/
  regX : MixWord
  /-- The index registers `I1` to `I6`, `Ik` at position `k - 1` (R25). -/
  idx : Vector MixIndex 6
  /-- The jump register `J` (R25). -/
  regJ : MixAddr
  /-- The overflow toggle `OV` (R25). -/
  ov : Bool
  /-- The comparison indicator `CI` (R25). -/
  ci : Cmp
  /-- MIX memory: the words that are not `+0`, by index, indexes rising (R29, R30). -/
  mixmem : List (Nat × MixWord)
  /-- MMIX memory: the bytes that are not zero, by address, addresses rising (R31). -/
  mmixmem : List Host.Cell
  /-- `allocated`: the base addresses of the pages that exist, rising (R31, R32). -/
  allocated : List Nat
  /-- The backing array `general[0..255]` (R35). -/
  general : Vector Octa 256
  /-- The special registers `special[0..31]`, `rO`, `rS`, `rL`, `rG` among them (R35, R36). -/
  special : Vector Octa 32
  /-- `memoryStack`: of its `rS div 8` entries (R42) those that are not zero, by entry number from the bottom, rising (R311). -/
  memoryStack : List (Nat × Octa)
  /-- The block output `fatal` (R44). -/
  fatal : Bool
  /-- The block output `cv_kind` (R44, R342). -/
  cvKind : CvKind
  /-- The response port after the last command (R103). -/
  resp : Response
  /-- What the external engine does next, oldest first (R60, R100, R370). -/
  inputs : List Input
deriving DecidableEq, Repr

/-- The reasons a step stops with a fault: none. Every contract violation of the spec is a next state with `fatal` set (R341, log 5), and
every address, register number and operand has a defined outcome (93_implementation_defined.md part 1), so nothing raises a fault;
the type has no constructor, which is safe. -/
inductive Fault
deriving DecidableEq, Repr

/-- The reasons a step is refused. -/
inductive Refusal where
  /-- An instruction that has no meaning in the model yet, by its mnemonic: raised by an arm of `exec` alone, and by none of
  them now. Safe: the machine stops where the hardware goes on. -/
  | notModelled (mnemonic : String)
deriving DecidableEq, Repr

/-- A block of the given parameters right after reset (R28, R30, R33, R43, R44, R370). -/
def State.resetWith (cfg : Config) : State where
  cfg := cfg
  regA := MixWord.plusZero
  regX := MixWord.plusZero
  idx := Vector.replicate 6 ⟨false, 0⟩
  regJ := 0
  ov := false
  ci := .equal
  mixmem := []
  mmixmem := []
  allocated := []
  general := Vector.replicate 256 0
  special := (Vector.replicate 32 0).set cfg.numRG.toNat (BitVec.ofNat 64 cfg.gReset) cfg.numRG.isLt
  memoryStack := []
  fatal := false
  cvKind := .none
  resp := Response.zero
  inputs := []

/-- The machine right after reset: the block of the standard parameters, no input pending. -/
def State.reset : State := State.resetWith Config.standard

end Sys2Proof.Machine
end

