-- ==== Sys2Proof/Machine/Ops.lean ====
section
/-! DEFINITION. The named operations over the state that every meaning is built from: what a command leaves on the response
port, raising a contract violation and leaving it by reset (spec 60_exceptions.md), the two memories (20_memory.md), the MIX
registers (42_mix_regfile.md) and the register-window ring (45_mmix_regwindow.md). -/

namespace Sys2Proof.Machine

/-! ### The response port (R103) -/

/-- The answer of a command that completes and has no result: everything zero but `valid`, which is 0 only for a command
that returns nil (R103, R251). -/
def answer0 : Response := { Response.zero with valid := true }

/-- One result. -/
def answer1 (r0 : Octa) : Response := { answer0 with r0 := r0 }

/-- Two results. -/
def answer2 (r0 r1 : Octa) : Response := { answer0 with r0 := r0, r1 := r1 }

/-- Four results. -/
def answer4 (r0 r1 r2 r3 : Octa) : Response := { answer0 with r0 := r0, r1 := r1, r2 := r2, r3 := r3 }

/-- One result and an overflow bit. -/
def answerOvf (r0 : Octa) (ovf : Bool) : Response := { answer0 with r0 := r0, ovf := ovf }

/-- A sequence result (R102). -/
def answerSeq (xs : List Octa) : Response := { answer0 with seq := xs }

/-- "Returns nil": `valid` is 0 and the results are zero (R103, R156). -/
def answerNil : Response := { answer0 with valid := false }

/-- A refused MMIX memory access: `err = Misaligned` and the results zero (R281, R345). -/
def answerMisaligned : Response := { answer0 with err := .misaligned }

/-- The code of a comparison value (R113). -/
def cmpCode : Cmp → BitVec 2
  | .less => 0
  | .equal => 1
  | .greater => 2

/-- The comparison value of a code; 3 is none (R113). -/
def cmpOfCode (c : BitVec 2) : Option Cmp :=
  if c = 0 then some .less else if c = 1 then some .equal else if c = 2 then some .greater else none

/-- The 4-bit code of a violation, the output `cv_kind` (R342). -/
def cvCode : CvKind → BitVec 4
  | .none => 0
  | .fieldSpec => 1
  | .magnitude => 2
  | .byteIndex => 3
  | .byteValue => 4
  | .registerIndex => 5
  | .operand => 6
  | .opcode => 7
  | .stackUnderflow => 8
  | .geometry => 9
  | .frameUnderflow => 10

/-- The 2-bit code of `err` (R103). -/
def errCode : MemErr → BitVec 2
  | .none => 0
  | .misaligned => 1

/-! ### Violations and the shape of every command (R341, R348, R380) -/

/-- What a violation, and a command ignored while fatal, answers: every result zero (R341) and `valid` 1, which is 0 exactly for a
command that returns nil (R103, log 9). -/
def answerViolation (s : State) : State := { s with resp := answer0 }

/-- `raise CV(kind)`: the state before the command, `fatal` set, the kind recorded, every result zero (R341). -/
def raiseCV (k : CvKind) (s : State) : State :=
  answerViolation { s with fatal := true, cvKind := k }

/-- One command: ignored while `fatal` (R341); else its whole effect and its answer, or a violation and nothing else (R380, R381).
`act` is computed from the state before the command. -/
def perform (s : State) (act : Except CvKind (State × Response)) : Host.Outcome State Fault Refusal :=
  if s.fatal then .next (answerViolation s)
  else match act with
    | .error k => .next (raiseCV k s)
    | .ok (t, r) => .next { t with resp := r }

/-- A command that changes no state and always answers. -/
def respond (s : State) (r : Response) : Host.Outcome State Fault Refusal := perform s (.ok (s, r))

/-- A reserved opcode on the command port: `CV(Opcode)` unless the block is fatal already (R116, R348). -/
def rejectOpcode (s : State) : Host.Outcome State Fault Refusal := perform s (.error .opcode)

/-- The reset input, the only way out of the fatal state (R351, R370, R371): every piece of the block at its reset value, the
parameters kept, what the engine does next untouched. -/
def applyReset (s : State) : State := { State.resetWith s.cfg with inputs := s.inputs }

/-! ### Sparse storage: a list of (key, value), keys rising, no entry equal to what an unlisted key reads as -/

/-- The value at a key, `d` where nothing is listed. -/
def sparseRead {α : Type} (d : α) : List (Nat × α) → Nat → α
  | [], _ => d
  | (j, v) :: m, k => if j = k then v else sparseRead d m k

/-- The list without the entries of a key. -/
def sparseErase {α : Type} (m : List (Nat × α)) (k : Nat) : List (Nat × α) := m.filter (fun e => e.1 ≠ k)

/-- The list with an entry put before the first larger key. -/
def sparseInsert {α : Type} (k : Nat) (v : α) : List (Nat × α) → List (Nat × α)
  | [] => [(k, v)]
  | (j, w) :: m => if k < j then (k, v) :: (j, w) :: m else (j, w) :: sparseInsert k v m

/-- Writing a value; the value an unlisted key reads as removes the entry. -/
def sparseWrite {α : Type} [DecidableEq α] (d : α) (m : List (Nat × α)) (k : Nat) (v : α) : List (Nat × α) :=
  if v = d then sparseErase m k else sparseInsert k v (sparseErase m k)

/-- The entries of the keys below `n`. -/
def sparseTake {α : Type} (m : List (Nat × α)) (n : Nat) : List (Nat × α) := m.filter (fun e => e.1 < n)

/-- The canonical form: keys strictly rising, no entry holding the default. -/
abbrev SparseWf {α : Type} (d : α) (m : List (Nat × α)) : Prop :=
  m.Pairwise (fun e f => e.1 < f.1) ∧ ∀ e ∈ m, e.2 ≠ d

/-- The canonical form of MMIX memory: an unlisted address reads as zero (R33, R76). -/
abbrev Memory.wf (m : List Host.Cell) : Prop := SparseWf (0 : Byte) m

/-! ### MIX memory (R71, R72) -/

/-- `MixRead`: the word at an index reduced modulo `MIX_MEM_SIZE` (R71). The argument is an integer sum that is not cut to
12 bits first (R203). -/
def mixRead (s : State) (a : Nat) : MixWord := sparseRead MixWord.plusZero s.mixmem (a % s.cfg.mixMemSize)

/-- `MixWrite` (R72). -/
def mixWrite (s : State) (a : Nat) (w : MixWord) : State :=
  { s with mixmem := sparseWrite MixWord.plusZero s.mixmem (a % s.cfg.mixMemSize) w }

/-- Consecutive words from an index on, in increasing order, wrapping per word (R203). -/
def mixWriteSeq (s : State) (start : Nat) : List MixWord → State
  | [] => s
  | w :: ws => mixWriteSeq (mixWrite s start w) (start + 1) ws

/-- The words of a range, wrapping per word (R204). -/
def mixReadSeq (s : State) (start : Nat) : Nat → List MixWord
  | 0 => []
  | n + 1 => mixRead s start :: mixReadSeq s (start + 1) n

/-- All of MIX memory `+0`, as at reset (R205). -/
def mixClear (s : State) : State := { s with mixmem := [] }

/-! ### MMIX memory (R75 to R78) -/

/-- The base of the page of an address, `addr & ~0xFFF` (R75). -/
def pageBase (addr : Octa) : Nat := addr.toNat / Config.mmixPageSize * Config.mmixPageSize

/-- A set of page bases with one more; rising, no repeats. -/
def insertPage (b : Nat) : List Nat → List Nat
  | [] => [b]
  | p :: ps => if b < p then b :: p :: ps else if b = p then p :: ps else p :: insertPage b ps

/-- The byte at an address; zero where nothing was written (R75, R76). -/
def byteAt (s : State) (addr : Octa) : Byte := sparseRead 0 s.mmixmem addr.toNat

/-- One byte written; its page is allocated first, also when the byte is zero (R77). -/
def setByte (s : State) (addr : Octa) (b : Byte) : State :=
  { s with
    mmixmem := sparseWrite 0 s.mmixmem addr.toNat b
    allocated := insertPage (pageBase addr) s.allocated }

/-- The bytes from an address on, the address wrapping at `2^64` (R76, R291). -/
def loadBytes (s : State) (addr : Octa) : Nat → List Byte
  | 0 => []
  | n + 1 => byteAt s addr :: loadBytes s (addr + 1) n

/-- Bytes written from an address on in increasing order, the address wrapping at `2^64` (R77, R290). -/
def storeBytes (s : State) (addr : Octa) : List Byte → State
  | [] => s
  | b :: bs => storeBytes (setByte s addr b) (addr + 1) bs

/-- The number a byte sequence spells, the first byte the most significant (R76, R79). -/
def joinBytes (bs : List Byte) : Nat := bs.foldl (fun acc b => acc * 256 + b.toNat) 0

/-- The `n` bytes of a number, the most significant first (R77, R79). -/
def splitBytes (v : Nat) : Nat → List Byte
  | 0 => []
  | n + 1 => BitVec.ofNat 8 (v / 256 ^ n) :: splitBytes v n

/-- `MemRead(addr, n)` (R76). -/
def memRead (s : State) (addr : Octa) (n : Nat) : BitVec (8 * n) := BitVec.ofNat (8 * n) (joinBytes (loadBytes s addr n))

/-- `MemWrite(addr, n, v)` (R77). -/
def memWrite (s : State) (addr : Octa) (n : Nat) (v : BitVec (8 * n)) : State := storeBytes s addr (splitBytes v.toNat n)

/-- The alignment check of an access of `n` bytes fails: the address is no multiple of `n` and checking is on (R82, R281). -/
def misaligned (s : State) (addr : Octa) (n : Nat) : Bool := decide (addr.toNat % n ≠ 0) && s.cfg.checkAlignment

/-! ### MIX registers (R110, R111, R220, R221) -/

/-- The registers a `MixRegId` can name (R110). -/
inductive MixReg where
  | a
  | x
  | i (k : Fin 6)
  | j
deriving DecidableEq, Repr

/-- The register of an identifier: 0 `A`, 1 `X`, 2 to 7 `I1` to `I6`, 8 `J`, none for 9 to 15 (R110). -/
def mixRegOf (id : BitVec 4) : Option MixReg :=
  if id = 0 then some .a
  else if id = 1 then some .x
  else if h : 2 ≤ id.toNat ∧ id.toNat ≤ 7 then some (.i ⟨id.toNat - 2, by omega⟩)
  else if id = 8 then some .j
  else none

/-- The index register of an index number: 1 to 6; none for 0 and 7 (R111). -/
def idxRegOf (n : BitVec 3) : Option (Fin 6) :=
  if h : 1 ≤ n.toNat ∧ n.toNat ≤ 6 then some ⟨n.toNat - 1, by omega⟩ else none

/-- Reading a MIX register as a word: index registers widened with zero bytes, `J` positive (R220). -/
def mixRegRead (s : State) : MixReg → MixWord
  | .a => s.regA
  | .x => s.regX
  | .i k => ⟨s.idx[k].sign, s.idx[k].mag.setWidth 30⟩
  | .j => ⟨false, s.regJ.setWidth 30⟩

/-- Writing a word to a MIX register: index registers keep the sign and the low 12 magnitude bits, `J` the low 12
magnitude bits (R221). -/
def mixRegWrite (s : State) (v : MixWord) : MixReg → State
  | .a => { s with regA := v }
  | .x => { s with regX := v }
  | .i k => { s with idx := s.idx.set k ⟨v.sign, v.mag.setWidth 12⟩ }
  | .j => { s with regJ := v.mag.setWidth 12 }

/-! ### The backing array and the special registers (R35 to R38, R300) -/

/-- `general[p]`, the physical slot `p`. -/
def generalAt (s : State) (p : BitVec 8) : Octa := s.general[p.toNat]'p.isLt

/-- `general[p] <- v`. -/
def setGeneral (s : State) (p : BitVec 8) (v : Octa) : State := { s with general := s.general.set p.toNat v p.isLt }

/-- `special[n]`. -/
def specialAt (s : State) (n : BitVec 5) : Octa := s.special[n.toNat]'n.isLt

/-- `special[n] <- v`. -/
def setSpecial (s : State) (n : BitVec 5) (v : Octa) : State := { s with special := s.special.set n.toNat v n.isLt }

/-- `rO`. -/
def rO (s : State) : Octa := specialAt s s.cfg.numRO

/-- `rS`. -/
def rS (s : State) : Octa := specialAt s s.cfg.numRS

/-- `rL`. -/
def rL (s : State) : Octa := specialAt s s.cfg.numRL

/-- `rG`. -/
def rG (s : State) : Octa := specialAt s s.cfg.numRG

/-- The local threshold `L`, the value of `rL` (R36). -/
def thresholdL (s : State) : Nat := (rL s).toNat

/-- The global threshold `G`, the value of `rG` (R36). -/
def thresholdG (s : State) : Nat := (rG s).toNat

/-- The pointer `α = (rO div 8) mod 256` (R300). -/
def alpha (s : State) : BitVec 8 := BitVec.ofNat 8 ((rO s).toNat / 8)

/-- The pointer `β = (α + L) mod 256` (R300). -/
def beta (s : State) : BitVec 8 := alpha s + BitVec.ofNat 8 (thresholdL s)

/-- The pointer `γ = (rS div 8) mod 256` (R300). -/
def gamma (s : State) : BitVec 8 := BitVec.ofNat 8 ((rS s).toNat / 8)

/-- The physical slot of a local register, `(α + i) mod 256` (R41). -/
def localSlot (s : State) (i : BitVec 8) : BitVec 8 := alpha s + i

/-! ### The spill stack (R42, R304, R306, R311) -/

/-- `len(memoryStack)`: always `special[rS] div 8` (R42). -/
def stackLen (s : State) : Nat := (rS s).toNat / 8

/-- Entry number `k` of the spill stack, from 0 at the bottom; entries that were only zero-filled read 0 (R42, R311). -/
def stackEntry (s : State) (k : Nat) : Octa := sparseRead 0 s.memoryStack k

/-- Writing `rS` resizes the stack to `v div 8` entries: truncation on shrink, zeros on growth (R311). -/
def setRS (s : State) (v : Octa) : State :=
  { setSpecial s s.cfg.numRS v with memoryStack := sparseTake s.memoryStack (v.toNat / 8) }

/-- `Spill`: `general[γ]` becomes the top entry and `rS` advances by 8 (R304). At `2^64` `rS` wraps (DEDUCED, log 10). -/
def spill (s : State) : State :=
  setRS { s with memoryStack := sparseWrite 0 s.memoryStack (stackLen s) (generalAt s (gamma s)) } (rS s + 8)

/-- `Fill`: `rS` moves back by 8 and the top entry returns to `general[γ]`, `γ` taken after the move; an empty stack is a
violation (R306). -/
def fill (s : State) : Except CvKind State :=
  if stackLen s = 0 then .error .stackUnderflow
  else
    let t := setRS s (rS s - 8)
    .ok (setGeneral t (gamma t) (stackEntry s (stackLen s - 1)))

/-! ### Growth and frame pop (R303, R308, R317) -/

/-- `GrowStep`: `L` first, then a spill if `β == γ` (R303). -/
def growStep (s : State) : State :=
  let t := setSpecial s s.cfg.numRL (rL s + 1)
  if beta t = gamma t then spill t else t

/-- `ensureCapacityForGrowth(delta)`: `delta` growth steps (R317). -/
def growBy : Nat → State → State
  | 0, s => s
  | n + 1, s => growBy n (growStep s)

/-- One step of `POPF`: a fill if `α == γ`, then `rO` back by 8 (R308). -/
def popStep (s : State) : Except CvKind State :=
  match (if alpha s = gamma s then fill s else .ok s) with
  | .error k => .error k
  | .ok t => if (rO t).toNat < 8 then .error .frameUnderflow else .ok (setSpecial t t.cfg.numRO (rO t - 8))

/-- `n` steps of `POPF`; the first violation ends them (R308). -/
def popSteps : Nat → State → Except CvKind State
  | 0, s => .ok s
  | n + 1, s =>
    match popStep s with
    | .error k => .error k
    | .ok t => popSteps n t

end Sys2Proof.Machine
end

