-- ==== Sys2Proof/Machine/Operands.lean ====
section
/-! DEFINITION. The operand forms: field codes, the bytes and the value of a MIX word, field extraction and insertion
(spec 00_scope.md section 5.2, 40_mix_word_alu.md rules R140, R180, R181). -/

namespace Sys2Proof.Machine

/-- `mag(w)` as an integer. -/
def magOf (w : MixWord) : Nat := w.mag.toNat

/-- `val(w) = (-1)^sgn(w) * mag(w)` (00_scope.md section 5.2). -/
def valOf (w : MixWord) : Int := if w.sign then -(w.mag.toNat : Int) else (w.mag.toNat : Int)

/-- The signed value of an index register (42_mix_regfile.md introduction). -/
def idxValOf (x : MixIndex) : Int := if x.sign then -(x.mag.toNat : Int) else (x.mag.toNat : Int)

/-- `mixword(s, m)`; a magnitude of `2^30` or more is reduced modulo `2^30`. -/
def mixword (sgn : Bool) (m : Nat) : MixWord := ⟨sgn, BitVec.ofNat 30 m⟩

/-- `byte(w, k) = (mag(w) div 64^(5-k)) mod 64`, byte 1 the most significant (R21). -/
def byteOf (w : MixWord) (k : Nat) : Nat := magOf w / 64 ^ (5 - k) % 64

/-- The magnitude whose bytes 1 to `n` are `f 1` to `f n`, byte 1 the most significant. -/
def packBytes (f : Nat → Nat) : Nat → Nat
  | 0 => 0
  | n + 1 => packBytes f n * 64 + f (n + 1) % 64

/-- `left` of a field code (R105). -/
def fieldLeft (f : FieldCode) : Nat := f.toNat / 8

/-- `right` of a field code (R105). -/
def fieldRight (f : FieldCode) : Nat := f.toNat % 8

/-- The code is valid: `0 <= left <= right <= 5` (R140). -/
def fieldValid (f : FieldCode) : Bool := decide (fieldLeft f ≤ fieldRight f ∧ fieldRight f ≤ 5)

/-- `lo(F) = max(left, 1)` (R140). -/
def fieldLo (f : FieldCode) : Nat := max (fieldLeft f) 1

/-- `n(F)`, the byte count: 0 for `(0,0)`, else `right - lo + 1` (R140). -/
def fieldCount (f : FieldCode) : Nat := fieldRight f + 1 - fieldLo f

/-- `withSign(F)` (R140). -/
def fieldSigned (f : FieldCode) : Bool := decide (fieldLeft f = 0)

/-- `FieldExtract(w, F)`: the selected bytes right-aligned over zeros, the sign only if `left = 0` (R180). -/
def fieldExtract (w : MixWord) (f : FieldCode) : MixWord :=
  let n := fieldCount f
  mixword (fieldSigned f && w.sign)
    (packBytes (fun k => if k ≤ 5 - n then 0 else byteOf w (fieldLo f - 1 + (k - (5 - n)))) 5)

/-- `FieldInsert(old, v, F)`: the rightmost `n` bytes of `v` at the selected positions, every other byte of `old`, the sign
of `v` only if `left = 0` (R181). -/
def fieldInsert (old v : MixWord) (f : FieldCode) : MixWord :=
  let n := fieldCount f
  mixword (if fieldSigned f then v.sign else old.sign)
    (packBytes (fun k => if fieldLo f ≤ k ∧ k ≤ fieldRight f then byteOf v (5 - n + (k - fieldLo f + 1)) else byteOf old k) 5)

end Sys2Proof.Machine
end

