-- ==== Sys2Proof/Machine/Flags.lean ====
section
/-! DEFINITION. Every overflow bit and every comparison of the block: MIX overflow (spec 40_mix_word_alu.md rule R153), the
overflow-reporting MMIX variants (43_mmix_int.md rules R244 to R249), and the ternary comparisons (R157, R252, R253).
All of them are values on the response port; none of them writes `OV` or `CI` (10_state.md rule R27). -/

namespace Sys2Proof.Machine

/-- MIX overflow: the true sum leaves the 30-bit magnitudes (R153). -/
def mixOverflow (sum : Int) : Bool := decide (2 ^ 30 ≤ sum.natAbs)

/-- Unsigned overflow at width `w`: the true result is `2^w` or more (R244, R248). -/
def unsignedOverflow (w : Nat) (n : Nat) : Bool := decide (2 ^ w ≤ n)

/-- Borrow: the true difference is negative (R246). -/
def borrows {w : Nat} (a b : BitVec w) : Bool := decide (a.toNat < b.toNat)

/-- Signed overflow at width `w`: the true result is outside `MIN_W .. MAX_W` (R245, R247, R249). -/
def signedOverflow (w : Nat) (t : Int) : Bool := decide (t < -(2 ^ (w - 1)) ∨ 2 ^ (w - 1) - 1 < t)

/-- The ternary comparison of two integers (R113). -/
def compareInt (a b : Int) : Cmp := if a < b then .less else if a = b then .equal else .greater

/-- A comparison value on a result port. -/
def cmpPort (c : Cmp) : Octa := bitsPort (cmpCode c)

end Sys2Proof.Machine
end

