-- ==== Sys2Proof/Machine/MixAlu.lean ====
section
/-! DEFINITION. MIX sign-magnitude arithmetic with field extraction (MXA, spec 40_mix_word_alu.md). No command here reads or writes any
state but the response port. -/

namespace Sys2Proof.Machine

/-- The result and the overflow bit of a sum or difference: sign re-derived from the true value, magnitude modulo `2^30` (R153). -/
def sumAnswer (sum : Int) : Response := answerOvf (mixPort (mixword (decide (sum < 0)) sum.natAbs)) (mixOverflow sum)

/-- The 60-bit magnitude of the pair `(hi, lo)` (R165). -/
def pairMag (hi lo : MixWord) : Nat := magOf hi * 2 ^ 30 + magOf lo

/-- Byte `d_k` of a 60-bit magnitude, `k` from 1 to 10 (R165). -/
def pairByte (m : Nat) (k : Nat) : Nat := m / 64 ^ (10 - k) % 64

/-- A 60-bit magnitude as two words, each with the sign of the operand in its position (R165, R166). -/
def pairAnswer (hi lo : MixWord) (m : Nat) : Response :=
  answer2 (mixPort (mixword hi.sign (m / 2 ^ 30))) (mixPort (mixword lo.sign (m % 2 ^ 30)))

/-- `FS.ENC` (R141): `8*left + right` of a valid pair. -/
def execFsEnc (left : BitVec 3) (right : BitVec 3) (s : State) : Host.Outcome State Fault Refusal :=
  perform s (if left ≤ right ∧ right ≤ 5 then .ok (s, answer1 (bitsPort (BitVec.ofNat 6 (8 * left.toNat + right.toNat)))) else .error .fieldSpec)

/-- `FS.DEC` (R142): `left`, `right`, `includesSign`, `byteCount` of a valid code. -/
def execFsDec (f : FieldCode) (s : State) : Host.Outcome State Fault Refusal :=
  perform s (if fieldValid f then
      .ok (s, answer4 (BitVec.ofNat 64 (fieldLeft f)) (BitVec.ofNat 64 (fieldRight f)) (boolPort (fieldSigned f)) (BitVec.ofNat 64 (fieldCount f)))
    else .error .fieldSpec)

/-- `MA.MAKE` (R143): the low 12 bits. -/
def execMaMake (v : Octa) (s : State) : Host.Outcome State Fault Refusal :=
  respond s (answer1 (bitsPort (BitVec.ofNat 12 (v.toNat % 4096))))

/-- `MX.MAKE` (R144): a word from sign and magnitude. -/
def execMxMake (neg : Bool) (m : BitVec 32) (s : State) : Host.Outcome State Fault Refusal :=
  perform s (if 2 ^ 30 ≤ m.toNat then .error .magnitude else .ok (s, answer1 (mixPort (mixword neg m.toNat))))

/-- `MX.FROMINT` (R145): a word from a signed 32-bit integer; 0 gives `+0`. -/
def execMxFromint (v : BitVec 32) (s : State) : Host.Outcome State Fault Refusal :=
  perform s (if 2 ^ 30 ≤ v.toInt.natAbs then .error .magnitude else .ok (s, answer1 (mixPort (mixword (decide (v.toInt < 0)) v.toInt.natAbs))))

/-- `MX.TRUNC` (R146): bits 30:0 of the raw pattern. -/
def execMxTrunc (raw : BitVec 32) (s : State) : Host.Outcome State Fault Refusal :=
  respond s (answer1 (mixPort (mixOfRaw (raw.setWidth 31))))

/-- `MX.TOINT` (R147): the signed value as a 32-bit integer. -/
def execMxToint (w : MixWord) (s : State) : Host.Outcome State Fault Refusal :=
  respond s (answer1 (bitsPort (BitVec.ofInt 32 (valOf w))))

/-- `MX.SIGN` (R148): the sign bit. -/
def execMxSign (w : MixWord) (s : State) : Host.Outcome State Fault Refusal :=
  respond s (answer1 (boolPort w.sign))

/-- `MX.MAG` (R149): the magnitude. -/
def execMxMag (w : MixWord) (s : State) : Host.Outcome State Fault Refusal :=
  respond s (answer1 (bitsPort w.mag))

/-- `MX.GETB` (R150): byte `k`, 1 the most significant. -/
def execMxGetb (w : MixWord) (k : BitVec 3) (s : State) : Host.Outcome State Fault Refusal :=
  perform s (if k.toNat < 1 ∨ 5 < k.toNat then .error .byteIndex else .ok (s, answer1 (BitVec.ofNat 64 (byteOf w k.toNat))))

/-- `MX.SETB` (R151): byte `k` replaced; the position is checked before the value (R348). -/
def execMxSetb (w : MixWord) (k : BitVec 3) (b : BitVec 8) (s : State) : Host.Outcome State Fault Refusal :=
  perform s (if k.toNat < 1 ∨ 5 < k.toNat then .error .byteIndex
    else if 64 ≤ b.toNat then .error .byteValue
    else .ok (s, answer1 (mixPort (mixword w.sign
      (magOf w - byteOf w k.toNat * 64 ^ (5 - k.toNat) + b.toNat * 64 ^ (5 - k.toNat))))))

/-- `MX.NEG` (R152): the sign flipped. -/
def execMxNeg (w : MixWord) (s : State) : Host.Outcome State Fault Refusal :=
  respond s (answer1 (mixPort ⟨!w.sign, w.mag⟩))

/-- `MX.ADD` (R153): the sum of the signed values. -/
def execMxAdd (a : MixWord) (b : MixWord) (s : State) : Host.Outcome State Fault Refusal :=
  respond s (sumAnswer (valOf a + valOf b))

/-- `MX.SUB` (R154): the difference of the signed values. -/
def execMxSub (a : MixWord) (b : MixWord) (s : State) : Host.Outcome State Fault Refusal :=
  respond s (sumAnswer (valOf a - valOf b))

/-- `MX.MUL` (R155): the 60-bit product as two words, both with the XOR sign. -/
def execMxMul (a : MixWord) (b : MixWord) (s : State) : Host.Outcome State Fault Refusal :=
  respond s (answer2 (mixPort (mixword (a.sign ^^ b.sign) (magOf a * magOf b / 2 ^ 30)))
    (mixPort (mixword (a.sign ^^ b.sign) (magOf a * magOf b % 2 ^ 30))))

/-- `MX.DIV` (R156): quotient and remainder of the pair by `d`; a zero divisor returns nil and never raises (R344, R348). -/
def execMxDiv (hi : MixWord) (lo : MixWord) (d : MixWord) (s : State) : Host.Outcome State Fault Refusal :=
  perform s (if magOf d = 0 then .ok (s, answerNil)
    else if 2 ^ 30 ≤ pairMag hi lo / magOf d then .error .magnitude
    else .ok (s, answer2 (mixPort (mixword (hi.sign ^^ d.sign) (pairMag hi lo / magOf d))) (mixPort (mixword hi.sign (pairMag hi lo % magOf d)))))

/-- `MX.CMP` (R157): comparison by signed value, the two zeros equal. -/
def execMxCmp (a : MixWord) (b : MixWord) (s : State) : Host.Outcome State Fault Refusal :=
  respond s (answer1 (cmpPort (compareInt (valOf a) (valOf b))))

/-- `MX.ISZERO` (R158): the magnitude is zero. -/
def execMxIszero (w : MixWord) (s : State) : Host.Outcome State Fault Refusal :=
  respond s (answer1 (boolPort (decide (magOf w = 0))))

/-- `MX.EQBITS` (R159): sign and magnitude both equal. -/
def execMxEqbits (a : MixWord) (b : MixWord) (s : State) : Host.Outcome State Fault Refusal :=
  respond s (answer1 (boolPort (decide (a = b))))

/-- `MX.SHL` (R161): left by `n` bytes, zeros in, sign kept (R160). -/
def execMxShl (w : MixWord) (n : BitVec 12) (s : State) : Host.Outcome State Fault Refusal :=
  respond s (answer1 (mixPort (mixword w.sign (if 5 ≤ n.toNat then 0 else magOf w * 64 ^ n.toNat % 2 ^ 30))))

/-- `MX.SHR` (R162): right by `n` bytes, zeros in, sign kept (R160). -/
def execMxShr (w : MixWord) (n : BitVec 12) (s : State) : Host.Outcome State Fault Refusal :=
  respond s (answer1 (mixPort (mixword w.sign (if 5 ≤ n.toNat then 0 else magOf w / 64 ^ n.toNat))))

/-- `MX.ROL` (R163): the five bytes rotated left, sign kept. -/
def execMxRol (w : MixWord) (n : BitVec 12) (s : State) : Host.Outcome State Fault Refusal :=
  respond s (answer1 (mixPort (mixword w.sign (packBytes (fun k => byteOf w ((k - 1 + n.toNat % 5) % 5 + 1)) 5))))

/-- `MX.ROR` (R164): the five bytes rotated right, sign kept; `+ 5` keeps the floored modulus of R164 in the natural numbers. -/
def execMxRor (w : MixWord) (n : BitVec 12) (s : State) : Host.Outcome State Fault Refusal :=
  respond s (answer1 (mixPort (mixword w.sign (packBytes (fun k => byteOf w ((k - 1 + 5 - n.toNat % 5) % 5 + 1)) 5))))

/-- `MX.SHLD` (R166): the ten bytes left by `n`. -/
def execMxShld (hi : MixWord) (lo : MixWord) (n : BitVec 12) (s : State) : Host.Outcome State Fault Refusal :=
  respond s (pairAnswer hi lo (if 10 ≤ n.toNat then 0 else pairMag hi lo * 64 ^ n.toNat % 2 ^ 60))

/-- `MX.SHRD` (R167): the ten bytes right by `n`. -/
def execMxShrd (hi : MixWord) (lo : MixWord) (n : BitVec 12) (s : State) : Host.Outcome State Fault Refusal :=
  respond s (pairAnswer hi lo (if 10 ≤ n.toNat then 0 else pairMag hi lo / 64 ^ n.toNat))

/-- `MX.ROLD` (R168): the ten bytes rotated left. -/
def execMxRold (hi : MixWord) (lo : MixWord) (n : BitVec 12) (s : State) : Host.Outcome State Fault Refusal :=
  respond s (pairAnswer hi lo (packBytes (fun k => pairByte (pairMag hi lo) ((k - 1 + n.toNat % 10) % 10 + 1)) 10))

/-- `MX.RORD` (R169): the ten bytes rotated right. -/
def execMxRord (hi : MixWord) (lo : MixWord) (n : BitVec 12) (s : State) : Host.Outcome State Fault Refusal :=
  respond s (pairAnswer hi lo (packBytes (fun k => pairByte (pairMag hi lo) ((k - 1 + 10 - n.toNat % 10) % 10 + 1)) 10))

/-- `MX.FGET` (R182): field extraction (R180). -/
def execMxFget (w : MixWord) (f : FieldCode) (s : State) : Host.Outcome State Fault Refusal :=
  perform s (if fieldValid f then .ok (s, answer1 (mixPort (fieldExtract w f))) else .error .fieldSpec)

/-- `MX.FPUT` (R183): field insertion (R181). -/
def execMxFput (old : MixWord) (v : MixWord) (f : FieldCode) (s : State) : Host.Outcome State Fault Refusal :=
  perform s (if fieldValid f then .ok (s, answer1 (mixPort (fieldInsert old v f))) else .error .fieldSpec)

end Sys2Proof.Machine
end

