-- ==== Sys2Proof/Machine/MixMem.lean ====
section
/-! DEFINITION. MIX memory with field-aware load and store (MXM, spec 41_mix_memory.md). -/

namespace Sys2Proof.Machine

/-- `MM.LOAD` (R200): the selected field of the word at `addr`. -/
def execMmLoad (addr : MixAddr) (f : FieldCode) (s : State) : Host.Outcome State Fault Refusal :=
  perform s (if fieldValid f then .ok (s, answer1 (mixPort (fieldExtract (mixRead s addr.toNat) f))) else .error .fieldSpec)

/-- `MM.STORE` (R201): the field of the word at `addr` replaced, one indivisible read-modify-write (R73). -/
def execMmStore (v : MixWord) (addr : MixAddr) (f : FieldCode) (s : State) : Host.Outcome State Fault Refusal :=
  perform s (if fieldValid f then .ok (mixWrite s addr.toNat (fieldInsert (mixRead s addr.toNat) v f), answer0) else .error .fieldSpec)

/-- `MM.LOADPROG` (R202): the operation of `MM.LOADIMG` under the second name (D14). -/
def execMmLoadprog (start : MixAddr) (ws : List MixWord) (s : State) : Host.Outcome State Fault Refusal :=
  perform s (.ok (mixWriteSeq s start.toNat ws, answer0))

/-- `MM.LOADIMG` (R203): a sequence of words from `start` on, wrapping per word. -/
def execMmLoadimg (start : MixAddr) (ws : List MixWord) (s : State) : Host.Outcome State Fault Refusal :=
  perform s (.ok (mixWriteSeq s start.toNat ws, answer0))

/-- `MM.DUMP` (R204): the words of a range. -/
def execMmDump (start : MixAddr) (count : BitVec 13) (s : State) : Host.Outcome State Fault Refusal :=
  respond s (answerSeq ((mixReadSeq s start.toNat count.toNat).map mixPort))

/-- `MM.CLEAR` (R205): every word `+0`. -/
def execMmClear (s : State) : Host.Outcome State Fault Refusal :=
  perform s (.ok (mixClear s, answer0))

/-- `MM.CLRRNG` (R206): `+0` to the words of a range. -/
def execMmClrrng (start : MixAddr) (count : BitVec 13) (s : State) : Host.Outcome State Fault Refusal :=
  perform s (.ok (mixWriteSeq s start.toNat (List.replicate count.toNat MixWord.plusZero), answer0))

end Sys2Proof.Machine
end

