-- ==== Sys2Proof/Machine/MixReg.lean ====
section
/-! DEFINITION. MIX register datapath (MXR, spec 42_mix_regfile.md). -/

namespace Sys2Proof.Machine

/-- The signed offset of an index number: the value of `I1` to `I6`; 0 for the numbers 0 and 7, which name no register (R111, R223). -/
def idxOffset (s : State) (n : BitVec 3) : Int :=
  match idxRegOf n with
  | some k => idxValOf s.idx[k]
  | none => 0

/-- `MR.READ` (R220): the register as a word. -/
def execMrRead (id : BitVec 4) (s : State) : Host.Outcome State Fault Refusal :=
  perform s (match mixRegOf id with
    | some r => .ok (s, answer1 (mixPort (mixRegRead s r)))
    | none => .error .registerIndex)

/-- `MR.WRITE` (R221): the register written, truncating. -/
def execMrWrite (v : MixWord) (id : BitVec 4) (s : State) : Host.Outcome State Fault Refusal :=
  perform s (match mixRegOf id with
    | some r => .ok (mixRegWrite s v r, answer0)
    | none => .error .registerIndex)

/-- `MR.EA` (R222): the base as given for index 0, else base plus offset in `0 .. 3999` (floored modulo). -/
def execMrEa (base : MixAddr) (idx : BitVec 3) (s : State) : Host.Outcome State Fault Refusal :=
  respond s (answer1 (bitsPort (if idx = 0 then base
    else BitVec.ofNat 12 (((base.toNat : Int) + idxOffset s idx) % (Config.mixEaMod : Int)).toNat)))

/-- `MR.IDXOFF` (R223): the signed offset as a 32-bit integer. -/
def execMrIdxoff (idx : BitVec 3) (s : State) : Host.Outcome State Fault Refusal :=
  respond s (answer1 (bitsPort (BitVec.ofInt 32 (idxOffset s idx))))

/-- `MR.GETOV` (R224): `OV`; reading does not clear it. -/
def execMrGetov (s : State) : Host.Outcome State Fault Refusal :=
  respond s (answer1 (boolPort s.ov))

/-- `MR.SETOV` (R225): `OV <- b`. -/
def execMrSetov (b : Bool) (s : State) : Host.Outcome State Fault Refusal :=
  perform s (.ok ({ s with ov := b }, answer0))

/-- `MR.GETCI` (R226): `CI`. -/
def execMrGetci (s : State) : Host.Outcome State Fault Refusal :=
  respond s (answer1 (cmpPort s.ci))

/-- `MR.SETCI` (R227): `CI <- c`; the code 3 is no value (R113). -/
def execMrSetci (c : BitVec 2) (s : State) : Host.Outcome State Fault Refusal :=
  perform s (match cmpOfCode c with
    | some v => .ok ({ s with ci := v }, answer0)
    | none => .error .operand)

end Sys2Proof.Machine
end

