-- ==== Sys2Proof/Machine/MmixInt.lean ====
section
/-! DEFINITION. MMIX fixed-width integer unit (MMI, spec 43_mmix_int.md). Operands arrive cut to their width (R240); no command here raises
a violation or touches any state but the response port. -/

namespace Sys2Proof.Machine

/-- `ADD`: the sum modulo `2^W` (R241). -/
def wrapAdd {w : Nat} (a b : BitVec w) : BitVec w := BitVec.ofNat w (a.toNat + b.toNat)

/-- `SUB`: the difference modulo `2^W`, floored (R242). -/
def wrapSub {w : Nat} (a b : BitVec w) : BitVec w := BitVec.ofInt w ((a.toNat : Int) - (b.toNat : Int))

/-- `MUL`: the product modulo `2^W` (R243). -/
def wrapMul {w : Nat} (a b : BitVec w) : BitVec w := BitVec.ofNat w (a.toNat * b.toNat)

/-- A true signed result `t` wrapped to width `w`, with the signed overflow bit (R245, R247, R249). -/
def signedAnswer (w : Nat) (t : Int) : Response := answerOvf (bitsPort (BitVec.ofInt w t)) (signedOverflow w t)

/-- `MULFU`: high and low half of the `2W`-bit unsigned product (R250). -/
def fullMulAnswer {w : Nat} (a b : BitVec w) : Response :=
  answer2 (bitsPort (BitVec.ofNat w (a.toNat * b.toNat / 2 ^ w))) (bitsPort (BitVec.ofNat w (a.toNat * b.toNat % 2 ^ w)))

/-- `DIVU`: quotient and remainder; by zero, quotient 0 and remainder the dividend (R251). -/
def divideAnswer {w : Nat} (a b : BitVec w) : Response :=
  if b.toNat = 0 then answer2 0 (bitsPort a)
  else answer2 (bitsPort (BitVec.ofNat w (a.toNat / b.toNat))) (bitsPort (BitVec.ofNat w (a.toNat % b.toNat)))

/-- `ADD.B` (R241): the sum modulo `2^W`. -/
def execAddB (a : Byte) (b : Byte) (s : State) : Host.Outcome State Fault Refusal :=
  respond s (answer1 (bitsPort (wrapAdd a b)))

/-- `ADD.W` (R241): the sum modulo `2^W`. -/
def execAddW (a : Wyde) (b : Wyde) (s : State) : Host.Outcome State Fault Refusal :=
  respond s (answer1 (bitsPort (wrapAdd a b)))

/-- `ADD.T` (R241): the sum modulo `2^W`. -/
def execAddT (a : Tetra) (b : Tetra) (s : State) : Host.Outcome State Fault Refusal :=
  respond s (answer1 (bitsPort (wrapAdd a b)))

/-- `ADD.O` (R241): the sum modulo `2^W`. -/
def execAddO (a : Octa) (b : Octa) (s : State) : Host.Outcome State Fault Refusal :=
  respond s (answer1 (bitsPort (wrapAdd a b)))

/-- `SUB.B` (R242): the difference modulo `2^W`. -/
def execSubB (a : Byte) (b : Byte) (s : State) : Host.Outcome State Fault Refusal :=
  respond s (answer1 (bitsPort (wrapSub a b)))

/-- `SUB.W` (R242): the difference modulo `2^W`. -/
def execSubW (a : Wyde) (b : Wyde) (s : State) : Host.Outcome State Fault Refusal :=
  respond s (answer1 (bitsPort (wrapSub a b)))

/-- `SUB.T` (R242): the difference modulo `2^W`. -/
def execSubT (a : Tetra) (b : Tetra) (s : State) : Host.Outcome State Fault Refusal :=
  respond s (answer1 (bitsPort (wrapSub a b)))

/-- `SUB.O` (R242): the difference modulo `2^W`. -/
def execSubO (a : Octa) (b : Octa) (s : State) : Host.Outcome State Fault Refusal :=
  respond s (answer1 (bitsPort (wrapSub a b)))

/-- `MUL.B` (R243): the product modulo `2^W`. -/
def execMulB (a : Byte) (b : Byte) (s : State) : Host.Outcome State Fault Refusal :=
  respond s (answer1 (bitsPort (wrapMul a b)))

/-- `MUL.W` (R243): the product modulo `2^W`. -/
def execMulW (a : Wyde) (b : Wyde) (s : State) : Host.Outcome State Fault Refusal :=
  respond s (answer1 (bitsPort (wrapMul a b)))

/-- `MUL.T` (R243): the product modulo `2^W`. -/
def execMulT (a : Tetra) (b : Tetra) (s : State) : Host.Outcome State Fault Refusal :=
  respond s (answer1 (bitsPort (wrapMul a b)))

/-- `MUL.O` (R243): the product modulo `2^W`. -/
def execMulO (a : Octa) (b : Octa) (s : State) : Host.Outcome State Fault Refusal :=
  respond s (answer1 (bitsPort (wrapMul a b)))

/-- `ADDUO.B` (R244): the sum, carry reported. -/
def execAdduoB (a : Byte) (b : Byte) (s : State) : Host.Outcome State Fault Refusal :=
  respond s (answerOvf (bitsPort (wrapAdd a b)) (unsignedOverflow 8 (a.toNat + b.toNat)))

/-- `ADDUO.W` (R244): the sum, carry reported. -/
def execAdduoW (a : Wyde) (b : Wyde) (s : State) : Host.Outcome State Fault Refusal :=
  respond s (answerOvf (bitsPort (wrapAdd a b)) (unsignedOverflow 16 (a.toNat + b.toNat)))

/-- `ADDUO.T` (R244): the sum, carry reported. -/
def execAdduoT (a : Tetra) (b : Tetra) (s : State) : Host.Outcome State Fault Refusal :=
  respond s (answerOvf (bitsPort (wrapAdd a b)) (unsignedOverflow 32 (a.toNat + b.toNat)))

/-- `ADDUO.O` (R244): the sum, carry reported. -/
def execAdduoO (a : Octa) (b : Octa) (s : State) : Host.Outcome State Fault Refusal :=
  respond s (answerOvf (bitsPort (wrapAdd a b)) (unsignedOverflow 64 (a.toNat + b.toNat)))

/-- `ADDSO.B` (R245): the sum, signed overflow reported. -/
def execAddsoB (a : Byte) (b : Byte) (s : State) : Host.Outcome State Fault Refusal :=
  respond s (signedAnswer 8 (a.toInt + b.toInt))

/-- `ADDSO.W` (R245): the sum, signed overflow reported. -/
def execAddsoW (a : Wyde) (b : Wyde) (s : State) : Host.Outcome State Fault Refusal :=
  respond s (signedAnswer 16 (a.toInt + b.toInt))

/-- `ADDSO.T` (R245): the sum, signed overflow reported. -/
def execAddsoT (a : Tetra) (b : Tetra) (s : State) : Host.Outcome State Fault Refusal :=
  respond s (signedAnswer 32 (a.toInt + b.toInt))

/-- `ADDSO.O` (R245): the sum, signed overflow reported. -/
def execAddsoO (a : Octa) (b : Octa) (s : State) : Host.Outcome State Fault Refusal :=
  respond s (signedAnswer 64 (a.toInt + b.toInt))

/-- `SUBUO.B` (R246): the difference, borrow reported. -/
def execSubuoB (a : Byte) (b : Byte) (s : State) : Host.Outcome State Fault Refusal :=
  respond s (answerOvf (bitsPort (wrapSub a b)) (borrows a b))

/-- `SUBUO.W` (R246): the difference, borrow reported. -/
def execSubuoW (a : Wyde) (b : Wyde) (s : State) : Host.Outcome State Fault Refusal :=
  respond s (answerOvf (bitsPort (wrapSub a b)) (borrows a b))

/-- `SUBUO.T` (R246): the difference, borrow reported. -/
def execSubuoT (a : Tetra) (b : Tetra) (s : State) : Host.Outcome State Fault Refusal :=
  respond s (answerOvf (bitsPort (wrapSub a b)) (borrows a b))

/-- `SUBUO.O` (R246): the difference, borrow reported. -/
def execSubuoO (a : Octa) (b : Octa) (s : State) : Host.Outcome State Fault Refusal :=
  respond s (answerOvf (bitsPort (wrapSub a b)) (borrows a b))

/-- `SUBSO.B` (R247): the difference, signed overflow reported. -/
def execSubsoB (a : Byte) (b : Byte) (s : State) : Host.Outcome State Fault Refusal :=
  respond s (signedAnswer 8 (a.toInt - b.toInt))

/-- `SUBSO.W` (R247): the difference, signed overflow reported. -/
def execSubsoW (a : Wyde) (b : Wyde) (s : State) : Host.Outcome State Fault Refusal :=
  respond s (signedAnswer 16 (a.toInt - b.toInt))

/-- `SUBSO.T` (R247): the difference, signed overflow reported. -/
def execSubsoT (a : Tetra) (b : Tetra) (s : State) : Host.Outcome State Fault Refusal :=
  respond s (signedAnswer 32 (a.toInt - b.toInt))

/-- `SUBSO.O` (R247): the difference, signed overflow reported. -/
def execSubsoO (a : Octa) (b : Octa) (s : State) : Host.Outcome State Fault Refusal :=
  respond s (signedAnswer 64 (a.toInt - b.toInt))

/-- `MULUO.B` (R248): the product, unsigned overflow reported. -/
def execMuluoB (a : Byte) (b : Byte) (s : State) : Host.Outcome State Fault Refusal :=
  respond s (answerOvf (bitsPort (wrapMul a b)) (unsignedOverflow 8 (a.toNat * b.toNat)))

/-- `MULUO.W` (R248): the product, unsigned overflow reported. -/
def execMuluoW (a : Wyde) (b : Wyde) (s : State) : Host.Outcome State Fault Refusal :=
  respond s (answerOvf (bitsPort (wrapMul a b)) (unsignedOverflow 16 (a.toNat * b.toNat)))

/-- `MULUO.T` (R248): the product, unsigned overflow reported. -/
def execMuluoT (a : Tetra) (b : Tetra) (s : State) : Host.Outcome State Fault Refusal :=
  respond s (answerOvf (bitsPort (wrapMul a b)) (unsignedOverflow 32 (a.toNat * b.toNat)))

/-- `MULUO.O` (R248): the product, unsigned overflow reported. -/
def execMuluoO (a : Octa) (b : Octa) (s : State) : Host.Outcome State Fault Refusal :=
  respond s (answerOvf (bitsPort (wrapMul a b)) (unsignedOverflow 64 (a.toNat * b.toNat)))

/-- `MULSO.B` (R249): the product, signed overflow reported. -/
def execMulsoB (a : Byte) (b : Byte) (s : State) : Host.Outcome State Fault Refusal :=
  respond s (signedAnswer 8 (a.toInt * b.toInt))

/-- `MULSO.W` (R249): the product, signed overflow reported. -/
def execMulsoW (a : Wyde) (b : Wyde) (s : State) : Host.Outcome State Fault Refusal :=
  respond s (signedAnswer 16 (a.toInt * b.toInt))

/-- `MULSO.T` (R249): the product, signed overflow reported. -/
def execMulsoT (a : Tetra) (b : Tetra) (s : State) : Host.Outcome State Fault Refusal :=
  respond s (signedAnswer 32 (a.toInt * b.toInt))

/-- `MULSO.O` (R249): the product, signed overflow reported. -/
def execMulsoO (a : Octa) (b : Octa) (s : State) : Host.Outcome State Fault Refusal :=
  respond s (signedAnswer 64 (a.toInt * b.toInt))

/-- `MULFU.B` (R250): the full unsigned product, high and low half. -/
def execMulfuB (a : Byte) (b : Byte) (s : State) : Host.Outcome State Fault Refusal :=
  respond s (fullMulAnswer a b)

/-- `MULFU.W` (R250): the full unsigned product, high and low half. -/
def execMulfuW (a : Wyde) (b : Wyde) (s : State) : Host.Outcome State Fault Refusal :=
  respond s (fullMulAnswer a b)

/-- `MULFU.T` (R250): the full unsigned product, high and low half. -/
def execMulfuT (a : Tetra) (b : Tetra) (s : State) : Host.Outcome State Fault Refusal :=
  respond s (fullMulAnswer a b)

/-- `MULFU.O` (R250): the full unsigned product, high and low half. -/
def execMulfuO (a : Octa) (b : Octa) (s : State) : Host.Outcome State Fault Refusal :=
  respond s (fullMulAnswer a b)

/-- `DIVU.B` (R251): unsigned quotient and remainder, `(0, a)` by zero. -/
def execDivuB (a : Byte) (b : Byte) (s : State) : Host.Outcome State Fault Refusal :=
  respond s (divideAnswer a b)

/-- `DIVU.W` (R251): unsigned quotient and remainder, `(0, a)` by zero. -/
def execDivuW (a : Wyde) (b : Wyde) (s : State) : Host.Outcome State Fault Refusal :=
  respond s (divideAnswer a b)

/-- `DIVU.T` (R251): unsigned quotient and remainder, `(0, a)` by zero. -/
def execDivuT (a : Tetra) (b : Tetra) (s : State) : Host.Outcome State Fault Refusal :=
  respond s (divideAnswer a b)

/-- `DIVU.O` (R251): unsigned quotient and remainder, `(0, a)` by zero. -/
def execDivuO (a : Octa) (b : Octa) (s : State) : Host.Outcome State Fault Refusal :=
  respond s (divideAnswer a b)

/-- `CMPU.B` (R252): unsigned comparison. -/
def execCmpuB (a : Byte) (b : Byte) (s : State) : Host.Outcome State Fault Refusal :=
  respond s (answer1 (cmpPort (compareInt a.toNat b.toNat)))

/-- `CMPU.W` (R252): unsigned comparison. -/
def execCmpuW (a : Wyde) (b : Wyde) (s : State) : Host.Outcome State Fault Refusal :=
  respond s (answer1 (cmpPort (compareInt a.toNat b.toNat)))

/-- `CMPU.T` (R252): unsigned comparison. -/
def execCmpuT (a : Tetra) (b : Tetra) (s : State) : Host.Outcome State Fault Refusal :=
  respond s (answer1 (cmpPort (compareInt a.toNat b.toNat)))

/-- `CMPU.O` (R252): unsigned comparison. -/
def execCmpuO (a : Octa) (b : Octa) (s : State) : Host.Outcome State Fault Refusal :=
  respond s (answer1 (cmpPort (compareInt a.toNat b.toNat)))

/-- `CMPS.B` (R253): signed comparison. -/
def execCmpsB (a : Byte) (b : Byte) (s : State) : Host.Outcome State Fault Refusal :=
  respond s (answer1 (cmpPort (compareInt a.toInt b.toInt)))

/-- `CMPS.W` (R253): signed comparison. -/
def execCmpsW (a : Wyde) (b : Wyde) (s : State) : Host.Outcome State Fault Refusal :=
  respond s (answer1 (cmpPort (compareInt a.toInt b.toInt)))

/-- `CMPS.T` (R253): signed comparison. -/
def execCmpsT (a : Tetra) (b : Tetra) (s : State) : Host.Outcome State Fault Refusal :=
  respond s (answer1 (cmpPort (compareInt a.toInt b.toInt)))

/-- `CMPS.O` (R253): signed comparison. -/
def execCmpsO (a : Octa) (b : Octa) (s : State) : Host.Outcome State Fault Refusal :=
  respond s (answer1 (cmpPort (compareInt a.toInt b.toInt)))

/-- `SPLIT.W` (R254): the more significant half, then the other. -/
def execSplitW (v : Wyde) (s : State) : Host.Outcome State Fault Refusal :=
  respond s (answer2 (bitsPort (v.extractLsb' 8 8)) (bitsPort (v.extractLsb' 0 8)))

/-- `SPLIT.T` (R254): the more significant half, then the other. -/
def execSplitT (v : Tetra) (s : State) : Host.Outcome State Fault Refusal :=
  respond s (answer2 (bitsPort (v.extractLsb' 16 16)) (bitsPort (v.extractLsb' 0 16)))

/-- `SPLIT.O` (R254): the more significant half, then the other. -/
def execSplitO (v : Octa) (s : State) : Host.Outcome State Fault Refusal :=
  respond s (answer2 (bitsPort (v.extractLsb' 32 32)) (bitsPort (v.extractLsb' 0 32)))

/-- `JOIN.W` (R255): `hi` above `lo`. -/
def execJoinW (hi : Byte) (lo : Byte) (s : State) : Host.Outcome State Fault Refusal :=
  respond s (answer1 (bitsPort (hi ++ lo)))

/-- `JOIN.T` (R255): `hi` above `lo`. -/
def execJoinT (hi : Wyde) (lo : Wyde) (s : State) : Host.Outcome State Fault Refusal :=
  respond s (answer1 (bitsPort (hi ++ lo)))

/-- `JOIN.O` (R255): `hi` above `lo`. -/
def execJoinO (hi : Tetra) (lo : Tetra) (s : State) : Host.Outcome State Fault Refusal :=
  respond s (answer1 (bitsPort (hi ++ lo)))

/-- `TRUNC.B` (R256): the low `W` bits. -/
def execTruncB (v : Octa) (s : State) : Host.Outcome State Fault Refusal :=
  respond s (answer1 (bitsPort (v.setWidth 8)))

/-- `TRUNC.W` (R256): the low `W` bits. -/
def execTruncW (v : Octa) (s : State) : Host.Outcome State Fault Refusal :=
  respond s (answer1 (bitsPort (v.setWidth 16)))

/-- `TRUNC.T` (R256): the low `W` bits. -/
def execTruncT (v : Octa) (s : State) : Host.Outcome State Fault Refusal :=
  respond s (answer1 (bitsPort (v.setWidth 32)))

/-- `TRUNC.O` (R256): the low `W` bits. -/
def execTruncO (v : Octa) (s : State) : Host.Outcome State Fault Refusal :=
  respond s (answer1 (bitsPort (v.setWidth 64)))

/-- `SVAL.B` (R257): the pattern sign-extended to 64 bits. -/
def execSvalB (v : Byte) (s : State) : Host.Outcome State Fault Refusal :=
  respond s (answer1 (v.signExtend 64))

/-- `SVAL.W` (R257): the pattern sign-extended to 64 bits. -/
def execSvalW (v : Wyde) (s : State) : Host.Outcome State Fault Refusal :=
  respond s (answer1 (v.signExtend 64))

/-- `SVAL.T` (R257): the pattern sign-extended to 64 bits. -/
def execSvalT (v : Tetra) (s : State) : Host.Outcome State Fault Refusal :=
  respond s (answer1 (v.signExtend 64))

/-- `SVAL.O` (R257): the pattern sign-extended to 64 bits. -/
def execSvalO (v : Octa) (s : State) : Host.Outcome State Fault Refusal :=
  respond s (answer1 (v.signExtend 64))

end Sys2Proof.Machine
end

