-- ==== Sys2Proof/Machine/MmixMem.lean ====
section
/-! DEFINITION. MMIX byte-addressed memory (MMM, spec 44_mmix_memory.md). -/

namespace Sys2Proof.Machine

/-- A load of `n` bytes: the alignment check, then the value zero-extended (R280, R281). -/
def loadAnswer (s : State) (addr : Octa) (n : Nat) : Response :=
  if misaligned s addr n then answerMisaligned else answer1 (bitsPort (memRead s addr n))

/-- A store of `n` bytes: the alignment check, then the write; a refused store writes and allocates nothing (R281). -/
def storeResult (s : State) (addr : Octa) (n : Nat) (v : BitVec (8 * n)) : State × Response :=
  if misaligned s addr n then (s, answerMisaligned) else (memWrite s addr n v, answer0)

/-- `LD.B` (R282): the byte at `addr`, big-endian. A byte is always aligned. -/
def execLdB (addr : Octa) (s : State) : Host.Outcome State Fault Refusal :=
  respond s (answer1 (bitsPort (memRead s addr 1)))

/-- `LD.W` (R283): the wyde at `addr`, big-endian. -/
def execLdW (addr : Octa) (s : State) : Host.Outcome State Fault Refusal :=
  respond s (loadAnswer s addr 2)

/-- `LD.T` (R284): the tetra at `addr`, big-endian. -/
def execLdT (addr : Octa) (s : State) : Host.Outcome State Fault Refusal :=
  respond s (loadAnswer s addr 4)

/-- `LD.O` (R285): the octa at `addr`, big-endian. -/
def execLdO (addr : Octa) (s : State) : Host.Outcome State Fault Refusal :=
  respond s (loadAnswer s addr 8)

/-- `ST.B` (R286): the byte stored at `addr`, big-endian. A byte is always aligned. -/
def execStB (v : Byte) (addr : Octa) (s : State) : Host.Outcome State Fault Refusal :=
  perform s (.ok (memWrite s addr 1 v, answer0))

/-- `ST.W` (R287): the wyde stored at `addr`, big-endian. -/
def execStW (v : Wyde) (addr : Octa) (s : State) : Host.Outcome State Fault Refusal :=
  perform s (.ok (storeResult s addr 2 v))

/-- `ST.T` (R288): the tetra stored at `addr`, big-endian. -/
def execStT (v : Tetra) (addr : Octa) (s : State) : Host.Outcome State Fault Refusal :=
  perform s (.ok (storeResult s addr 4 v))

/-- `ST.O` (R289): the octa stored at `addr`, big-endian. -/
def execStO (v : Octa) (addr : Octa) (s : State) : Host.Outcome State Fault Refusal :=
  perform s (.ok (storeResult s addr 8 v))

/-- `MB.LOADIMG` (R290): a byte sequence from `start` on; no alignment check (R83). -/
def execMbLoadimg (start : Octa) (bs : List Byte) (s : State) : Host.Outcome State Fault Refusal :=
  perform s (.ok (storeBytes s start bs, answer0))

/-- `MB.DUMP` (R291): the bytes of a range. -/
def execMbDump (start : Octa) (count : Octa) (s : State) : Host.Outcome State Fault Refusal :=
  respond s (answerSeq ((loadBytes s start count.toNat).map bitsPort))

end Sys2Proof.Machine
end

