-- ==== Sys2Proof/Machine/MmixWindow.lean ====
section
/-! DEFINITION. MMIX register-window ring controller (MMR, spec 45_mmix_regwindow.md); the sequences `GrowStep`, `Spill`, `Fill`
and the pop step are in Ops.lean. -/

namespace Sys2Proof.Machine

/-- The logical read of a general register: `$0` is zero, a global its fixed slot, a local its ring slot, a marginal zero (R301). -/
def generalRead (s : State) (r : BitVec 8) : Octa :=
  if r = 0 then 0
  else if thresholdG s ≤ r.toNat then generalAt s r
  else if r.toNat < thresholdL s then generalAt s (localSlot s r)
  else 0

/-- The logical write: `$0` drops it, a global goes to its fixed slot, a local to its ring slot; a marginal is promoted by
`r - L + 1` growth steps, then written (R302). -/
def generalWrite (s : State) (r : BitVec 8) (v : Octa) : State :=
  if r = 0 then s
  else if thresholdG s ≤ r.toNat then setGeneral s r v
  else if r.toNat < thresholdL s then setGeneral s (localSlot s r) v
  else
    let t := growBy (r.toNat - thresholdL s + 1) s
    setGeneral t (localSlot t r) v

/-- The write of `v` to special register `n` would break `0 <= L <= G <= 256` or the multiple-of-8 rule (R316). -/
def breaksGeometry (s : State) (n : BitVec 5) (v : Octa) : Bool :=
  (decide (n = s.cfg.numRL) && decide (thresholdG s < v.toNat))
    || (decide (n = s.cfg.numRG) && (decide (v.toNat < thresholdL s) || decide (256 < v.toNat)))
    || (decide (n = s.cfg.numRO) && decide (v.toNat % 8 ≠ 0))
    || (decide (n = s.cfg.numRS) && decide (v.toNat % 8 ≠ 0))

/-- The write itself: `rS` resizes the spill stack, every other register is plain storage (R310, R311, R315). -/
def specialWrite (s : State) (n : BitVec 5) (v : Octa) : State :=
  if n = s.cfg.numRS then setRS s v else setSpecial s n v

/-- `POPF`: the frame's locals discarded, `size` steps back, then `L <- size` (R308). -/
def popFrame (s : State) (size : BitVec 9) : Except CvKind State :=
  if thresholdG s < size.toNat then .error .geometry
  else match popSteps size.toNat (setSpecial s s.cfg.numRL 0) with
    | .error k => .error k
    | .ok t => .ok (setSpecial t t.cfg.numRL (size.setWidth 64))

/-- `GR.READ` (R301): the logical read. -/
def execGrRead (r : BitVec 8) (s : State) : Host.Outcome State Fault Refusal :=
  respond s (answer1 (generalRead s r))

/-- `GR.WRITE` (R302): the logical write, growth and spills included, one indivisible transition. -/
def execGrWrite (v : Octa) (r : BitVec 8) (s : State) : Host.Outcome State Fault Refusal :=
  perform s (.ok (generalWrite s r v, answer0))

/-- `SR.READ` (R309): the special register. -/
def execSrRead (n : BitVec 5) (s : State) : Host.Outcome State Fault Refusal :=
  respond s (answer1 (specialAt s n))

/-- `SR.WRITE` (R310): the special register written after the check of R316. -/
def execSrWrite (v : Octa) (n : BitVec 5) (s : State) : Host.Outcome State Fault Refusal :=
  perform s (if breaksGeometry s n v then .error .geometry else .ok (specialWrite s n v, answer0))

/-- `PUSHF` (R307): the old `L` returned, `rO` advanced by `8*L` modulo `2^64` (D38), `L <- 0`. -/
def execPushf (s : State) : Host.Outcome State Fault Refusal :=
  perform s (.ok (setSpecial (setSpecial s s.cfg.numRO (rO s + 8 * rL s)) s.cfg.numRL 0, answer1 (rL s)))

/-- `POPF` (R308): frame pop; any violation cancels the whole command. -/
def execPopf (size : BitVec 9) (s : State) : Host.Outcome State Fault Refusal :=
  perform s (match popFrame s size with
    | .error k => .error k
    | .ok t => .ok (t, answer0))

end Sys2Proof.Machine
end

