-- ==== Sys2Proof/Machine/Dispatch.lean ====
section
/-! DEFINITION. One arm per instruction, each one call of its meaning. -/

namespace Sys2Proof.Machine

def exec (i : Instr) (s : State) : Host.Outcome State Fault Refusal :=
  match i with
  | .fsEnc left right => Sys2Proof.Machine.execFsEnc left right s
  | .fsDec f => Sys2Proof.Machine.execFsDec f s
  | .maMake v => Sys2Proof.Machine.execMaMake v s
  | .mxMake neg m => Sys2Proof.Machine.execMxMake neg m s
  | .mxFromint v => Sys2Proof.Machine.execMxFromint v s
  | .mxTrunc raw => Sys2Proof.Machine.execMxTrunc raw s
  | .mxToint w => Sys2Proof.Machine.execMxToint w s
  | .mxSign w => Sys2Proof.Machine.execMxSign w s
  | .mxMag w => Sys2Proof.Machine.execMxMag w s
  | .mxGetb w k => Sys2Proof.Machine.execMxGetb w k s
  | .mxSetb w k b => Sys2Proof.Machine.execMxSetb w k b s
  | .mxNeg w => Sys2Proof.Machine.execMxNeg w s
  | .mxAdd a b => Sys2Proof.Machine.execMxAdd a b s
  | .mxSub a b => Sys2Proof.Machine.execMxSub a b s
  | .mxMul a b => Sys2Proof.Machine.execMxMul a b s
  | .mxDiv hi lo d => Sys2Proof.Machine.execMxDiv hi lo d s
  | .mxCmp a b => Sys2Proof.Machine.execMxCmp a b s
  | .mxIszero w => Sys2Proof.Machine.execMxIszero w s
  | .mxEqbits a b => Sys2Proof.Machine.execMxEqbits a b s
  | .mxShl w n => Sys2Proof.Machine.execMxShl w n s
  | .mxShr w n => Sys2Proof.Machine.execMxShr w n s
  | .mxRol w n => Sys2Proof.Machine.execMxRol w n s
  | .mxRor w n => Sys2Proof.Machine.execMxRor w n s
  | .mxShld hi lo n => Sys2Proof.Machine.execMxShld hi lo n s
  | .mxShrd hi lo n => Sys2Proof.Machine.execMxShrd hi lo n s
  | .mxRold hi lo n => Sys2Proof.Machine.execMxRold hi lo n s
  | .mxRord hi lo n => Sys2Proof.Machine.execMxRord hi lo n s
  | .mxFget w f => Sys2Proof.Machine.execMxFget w f s
  | .mxFput old v f => Sys2Proof.Machine.execMxFput old v f s
  | .mmLoad addr f => Sys2Proof.Machine.execMmLoad addr f s
  | .mmStore v addr f => Sys2Proof.Machine.execMmStore v addr f s
  | .mmLoadprog start ws => Sys2Proof.Machine.execMmLoadprog start ws s
  | .mmLoadimg start ws => Sys2Proof.Machine.execMmLoadimg start ws s
  | .mmDump start count => Sys2Proof.Machine.execMmDump start count s
  | .mmClear => Sys2Proof.Machine.execMmClear s
  | .mmClrrng start count => Sys2Proof.Machine.execMmClrrng start count s
  | .mrRead id => Sys2Proof.Machine.execMrRead id s
  | .mrWrite v id => Sys2Proof.Machine.execMrWrite v id s
  | .mrEa base idx => Sys2Proof.Machine.execMrEa base idx s
  | .mrIdxoff idx => Sys2Proof.Machine.execMrIdxoff idx s
  | .mrGetov => Sys2Proof.Machine.execMrGetov s
  | .mrSetov b => Sys2Proof.Machine.execMrSetov b s
  | .mrGetci => Sys2Proof.Machine.execMrGetci s
  | .mrSetci c => Sys2Proof.Machine.execMrSetci c s
  | .addB a b => Sys2Proof.Machine.execAddB a b s
  | .addW a b => Sys2Proof.Machine.execAddW a b s
  | .addT a b => Sys2Proof.Machine.execAddT a b s
  | .addO a b => Sys2Proof.Machine.execAddO a b s
  | .subB a b => Sys2Proof.Machine.execSubB a b s
  | .subW a b => Sys2Proof.Machine.execSubW a b s
  | .subT a b => Sys2Proof.Machine.execSubT a b s
  | .subO a b => Sys2Proof.Machine.execSubO a b s
  | .mulB a b => Sys2Proof.Machine.execMulB a b s
  | .mulW a b => Sys2Proof.Machine.execMulW a b s
  | .mulT a b => Sys2Proof.Machine.execMulT a b s
  | .mulO a b => Sys2Proof.Machine.execMulO a b s
  | .adduoB a b => Sys2Proof.Machine.execAdduoB a b s
  | .adduoW a b => Sys2Proof.Machine.execAdduoW a b s
  | .adduoT a b => Sys2Proof.Machine.execAdduoT a b s
  | .adduoO a b => Sys2Proof.Machine.execAdduoO a b s
  | .addsoB a b => Sys2Proof.Machine.execAddsoB a b s
  | .addsoW a b => Sys2Proof.Machine.execAddsoW a b s
  | .addsoT a b => Sys2Proof.Machine.execAddsoT a b s
  | .addsoO a b => Sys2Proof.Machine.execAddsoO a b s
  | .subuoB a b => Sys2Proof.Machine.execSubuoB a b s
  | .subuoW a b => Sys2Proof.Machine.execSubuoW a b s
  | .subuoT a b => Sys2Proof.Machine.execSubuoT a b s
  | .subuoO a b => Sys2Proof.Machine.execSubuoO a b s
  | .subsoB a b => Sys2Proof.Machine.execSubsoB a b s
  | .subsoW a b => Sys2Proof.Machine.execSubsoW a b s
  | .subsoT a b => Sys2Proof.Machine.execSubsoT a b s
  | .subsoO a b => Sys2Proof.Machine.execSubsoO a b s
  | .muluoB a b => Sys2Proof.Machine.execMuluoB a b s
  | .muluoW a b => Sys2Proof.Machine.execMuluoW a b s
  | .muluoT a b => Sys2Proof.Machine.execMuluoT a b s
  | .muluoO a b => Sys2Proof.Machine.execMuluoO a b s
  | .mulsoB a b => Sys2Proof.Machine.execMulsoB a b s
  | .mulsoW a b => Sys2Proof.Machine.execMulsoW a b s
  | .mulsoT a b => Sys2Proof.Machine.execMulsoT a b s
  | .mulsoO a b => Sys2Proof.Machine.execMulsoO a b s
  | .mulfuB a b => Sys2Proof.Machine.execMulfuB a b s
  | .mulfuW a b => Sys2Proof.Machine.execMulfuW a b s
  | .mulfuT a b => Sys2Proof.Machine.execMulfuT a b s
  | .mulfuO a b => Sys2Proof.Machine.execMulfuO a b s
  | .divuB a b => Sys2Proof.Machine.execDivuB a b s
  | .divuW a b => Sys2Proof.Machine.execDivuW a b s
  | .divuT a b => Sys2Proof.Machine.execDivuT a b s
  | .divuO a b => Sys2Proof.Machine.execDivuO a b s
  | .cmpuB a b => Sys2Proof.Machine.execCmpuB a b s
  | .cmpuW a b => Sys2Proof.Machine.execCmpuW a b s
  | .cmpuT a b => Sys2Proof.Machine.execCmpuT a b s
  | .cmpuO a b => Sys2Proof.Machine.execCmpuO a b s
  | .cmpsB a b => Sys2Proof.Machine.execCmpsB a b s
  | .cmpsW a b => Sys2Proof.Machine.execCmpsW a b s
  | .cmpsT a b => Sys2Proof.Machine.execCmpsT a b s
  | .cmpsO a b => Sys2Proof.Machine.execCmpsO a b s
  | .splitW v => Sys2Proof.Machine.execSplitW v s
  | .splitT v => Sys2Proof.Machine.execSplitT v s
  | .splitO v => Sys2Proof.Machine.execSplitO v s
  | .joinW hi lo => Sys2Proof.Machine.execJoinW hi lo s
  | .joinT hi lo => Sys2Proof.Machine.execJoinT hi lo s
  | .joinO hi lo => Sys2Proof.Machine.execJoinO hi lo s
  | .truncB v => Sys2Proof.Machine.execTruncB v s
  | .truncW v => Sys2Proof.Machine.execTruncW v s
  | .truncT v => Sys2Proof.Machine.execTruncT v s
  | .truncO v => Sys2Proof.Machine.execTruncO v s
  | .svalB v => Sys2Proof.Machine.execSvalB v s
  | .svalW v => Sys2Proof.Machine.execSvalW v s
  | .svalT v => Sys2Proof.Machine.execSvalT v s
  | .svalO v => Sys2Proof.Machine.execSvalO v s
  | .ldB addr => Sys2Proof.Machine.execLdB addr s
  | .ldW addr => Sys2Proof.Machine.execLdW addr s
  | .ldT addr => Sys2Proof.Machine.execLdT addr s
  | .ldO addr => Sys2Proof.Machine.execLdO addr s
  | .stB v addr => Sys2Proof.Machine.execStB v addr s
  | .stW v addr => Sys2Proof.Machine.execStW v addr s
  | .stT v addr => Sys2Proof.Machine.execStT v addr s
  | .stO v addr => Sys2Proof.Machine.execStO v addr s
  | .mbLoadimg start bs => Sys2Proof.Machine.execMbLoadimg start bs s
  | .mbDump start count => Sys2Proof.Machine.execMbDump start count s
  | .grRead r => Sys2Proof.Machine.execGrRead r s
  | .grWrite v r => Sys2Proof.Machine.execGrWrite v r s
  | .srRead n => Sys2Proof.Machine.execSrRead n s
  | .srWrite v n => Sys2Proof.Machine.execSrWrite v n s
  | .pushf => Sys2Proof.Machine.execPushf s
  | .popf size => Sys2Proof.Machine.execPopf size s

end Sys2Proof.Machine
end

