-- ==== Sys2Proof/Machine/Step.lean ====
section
/-! DEFINITION. One step: the next input of the external engine (spec 10_state.md rule R60, 30_encoding.md rule R100,
70_reset_and_hazards.md rule R370). The block fetches nothing itself; the inputs stand in the state, oldest first (log 2). -/

namespace Sys2Proof.Machine

/-- The input is taken off the list; a command is decoded and executed, a reserved opcode raises `CV(Opcode)`, a reset puts the
block at its reset values. With no input pending nothing happens: only a command or a reset changes state (R349). -/
def step (s : State) : Host.Outcome State Fault Refusal :=
  match s.inputs with
  | [] => .next s
  | .reset :: rest => .next (applyReset { s with inputs := rest })
  | .command c :: rest =>
    match decode c with
    | .ok i => exec i { s with inputs := rest }
    | .error _ => rejectOpcode { s with inputs := rest }

/-- The state in which the very next step takes the command whose bits are `w` (log 3). -/
def State.withFetchWord (s : State) (nbits w : Nat) : State :=
  { s with inputs := .command (commandOfWord nbits w) :: s.inputs }

end Sys2Proof.Machine
end

