-- ==== Sys2Proof/Safety.lean ====
section
/-! DEFINITION. What counts as a safe run: the invariants of the state, in the terms the claims use (spec 10_state.md rules R39, R42, R44,
R46, 45_mmix_regwindow.md rules R305, R320), and the two halves of the block (00_scope.md rule R10). -/

namespace Sys2Proof.Machine

/-- The geometry invariant: `0 <= L <= G <= 256`, `rO` and `rS` multiples of 8 (R39). -/
def State.Geometry (s : State) : Prop :=
  thresholdL s ≤ thresholdG s ∧ thresholdG s ≤ 256 ∧ (rO s).toNat % 8 = 0 ∧ (rS s).toNat % 8 = 0

/-- The resident count `(rO - rS) div 8 + L` (R305). -/
def residentCount (s : State) : Int := ((rO s).toNat - (rS s).toNat : Int) / 8 + (thresholdL s : Int)

/-- The ring invariant: `rS <= rO` and at most 255 resident registers (R305). The spill stack's `rS div 8` entries are the
definition of `stackLen` (R42). -/
def State.RingInv (s : State) : Prop := (rS s).toNat ≤ (rO s).toNat ∧ residentCount s ≤ 255

/-- Every storage list is in its canonical form: MIX memory within its size, MMIX bytes on allocated pages, page bases
aligned and rising, spill entries below the stack's length (R29, R31, R42). -/
def State.StorageWf (s : State) : Prop :=
  (SparseWf MixWord.plusZero s.mixmem ∧ ∀ e ∈ s.mixmem, e.1 < s.cfg.mixMemSize) ∧
  (Memory.wf s.mmixmem ∧ ∀ e ∈ s.mmixmem, e.1 < 2 ^ 64 ∧ e.1 / 4096 * 4096 ∈ s.allocated) ∧
  (s.allocated.Pairwise (· < ·) ∧ ∀ p ∈ s.allocated, p % 4096 = 0 ∧ p < 2 ^ 64) ∧
  (SparseWf (0 : Octa) s.memoryStack ∧ ∀ e ∈ s.memoryStack, e.1 < stackLen s)

/-- `cv_kind` is 0 exactly while `fatal` is 0 (R44). -/
def State.ViolationWf (s : State) : Prop := s.fatal = true ↔ s.cvKind ≠ .none

/-- The invariant of the block: what every step keeps. -/
def State.Inv (s : State) : Prop := s.Geometry ∧ s.StorageWf ∧ s.ViolationWf

/-- A state in which commands still take effect (R341). -/
def State.Live (s : State) : Prop := s.fatal = false

end Sys2Proof.Machine

namespace Sys2Proof

/-- The MIX half of the block: sub-units MXA, MXM, MXR, opcodes below 0x40 (R10, R104). -/
def Instr.isMix (i : Instr) : Bool := decide ((encode i).op.toNat < 0x40)

end Sys2Proof
end

