-- ==== Sys2Proof/Certificates/Slice0/Obligations.lean ====
section
/-! DEFINITION. The statements for the provers. The first part names what the statements speak of, in the spec's own terms (numbers,
bit fields and 64-bit result ports) and not through the functions the meanings are built from; the second part is the statements.
A result stands on the model's 64-bit result ports as the number of its own type (log 4 for the width of the ports). -/

namespace Sys2Proof.Claims

open Sys2Proof.Machine

/-! ### What a command does -/

/-- `i` completes at `s`: it answers `r` and changes no other part of the state. -/
def Answers (i : Instr) (s : State) (r : Response) : Prop := exec i s = .next { s with resp := r }

/-- What `raise CV(k)` leaves: `fatal` and `cv_kind` set, every result zero, nothing else of the block changed (R341). The statements leave
open what `valid` shows; ViolationTable says that it is 1 (R103, log 9). -/
def violated (s : State) (k : CvKind) (valid : Bool) : State :=
  { s with fatal := true, cvKind := k, resp := { Response.zero with valid := valid } }

/-- `i` raises `CV(k)` at `s`. -/
def Raises (i : Instr) (s : State) (k : CvKind) : Prop := ∃ valid, exec i s = .next (violated s k valid)

/-- The opcode of `i` on the command port. -/
def HasOpcode (i : Instr) (op : Nat) : Prop := (encode i).op = BitVec.ofNat 8 op

/-- `i` answers `r` and changes nothing but MIX memory, which it leaves as `P` says of the new state. -/
def ChangesMixMem (i : Instr) (s : State) (r : Response) (P : State → Prop) : Prop :=
  ∃ t, exec i s = .next t ∧ t = { s with mixmem := t.mixmem, resp := r } ∧ P t

/-- `i` answers `r` and changes nothing but MMIX memory, bytes and allocated pages. -/
def ChangesMem (i : Instr) (s : State) (r : Response) (P : State → Prop) : Prop :=
  ∃ t, exec i s = .next t ∧ t = { s with mmixmem := t.mmixmem, allocated := t.allocated, resp := r } ∧ P t

/-- `i` answers `r` and changes nothing but the MMIX register file. -/
def ChangesRing (i : Instr) (s : State) (r : Response) (P : State → Prop) : Prop :=
  ∃ t, exec i s = .next t ∧
    t = { s with general := t.general, special := t.special, memoryStack := t.memoryStack, resp := r } ∧ P t

/-! ### What stands on the response port (R103) -/

/-- No result: every part zero but `valid`. -/
def noResult : Response := { Response.zero with valid := true }

/-- One result. -/
def result (n : Nat) : Response := { noResult with r0 := BitVec.ofNat 64 n }

/-- Two results. -/
def result2 (n m : Nat) : Response := { noResult with r0 := BitVec.ofNat 64 n, r1 := BitVec.ofNat 64 m }

/-- Four results. -/
def result4 (n m p q : Nat) : Response :=
  { noResult with r0 := BitVec.ofNat 64 n, r1 := BitVec.ofNat 64 m, r2 := BitVec.ofNat 64 p, r3 := BitVec.ofNat 64 q }

/-- One result and the overflow bit. -/
def resultOvf (n : Nat) (ovf : Bool) : Response := { noResult with r0 := BitVec.ofNat 64 n, ovf := ovf }

/-- A sequence. -/
def resultSeq (ns : List Nat) : Response := { noResult with seq := ns.map (BitVec.ofNat 64) }

/-- "Returns nil": `valid` is 0 and the results are zero. -/
def resultNil : Response := Response.zero

/-- `err = Misaligned`, the results zero. -/
def resultMisaligned : Response := { noResult with err := .misaligned }

/-- A `Bool` as a number. -/
def flag (b : Bool) : Nat := if b then 1 else 0

/-- An integer as a `W`-bit two's-complement pattern. -/
def twos (W : Nat) (v : Int) : Nat := (v % 2 ^ W).toNat

/-- The code of a comparison of two integers: 0 less, 1 equal, 2 greater (R113). -/
def order (a b : Int) : Nat := if a < b then 0 else if a = b then 1 else 2

/-! ### MIX words (R21) -/

/-- The 31-bit word of a sign and a magnitude below `2^30`: the sign in bit 30. -/
def wordNum (neg : Bool) (m : Nat) : Nat := if neg then 2 ^ 30 + m else m

/-- The raw 31-bit value of a word. -/
def rawNum (w : MixWord) : Nat := wordNum w.sign w.mag.toNat

/-- The signed value of a word. -/
def signedVal (w : MixWord) : Int := (if w.sign then -1 else 1) * (w.mag.toNat : Int)

/-- Byte `k` of a word: bits `6*(6-k)-1 : 6*(5-k)` of the magnitude. -/
def mbyte (w : MixWord) (k : Nat) : Nat := (w.mag.extractLsb' (6 * (5 - k)) 6).toNat

/-- The magnitude whose five bytes are `f 1` to `f 5`. -/
def bytesNum (f : Nat → Nat) : Nat := f 1 * 64 ^ 4 + f 2 * 64 ^ 3 + f 3 * 64 ^ 2 + f 4 * 64 + f 5

/-- Byte `d_k` of a double word, `k` from 1 to 10, `hi` above `lo` (R165). -/
def dbyte (hi lo : MixWord) (k : Nat) : Nat := if k ≤ 5 then mbyte hi k else mbyte lo (k - 5)

/-- The two words whose ten bytes are `f 1` to `f 10`, each with the sign of the operand in its place (R165). -/
def pairResult (hi lo : MixWord) (f : Nat → Nat) : Response :=
  result2 (wordNum hi.sign (bytesNum f)) (wordNum lo.sign (bytesNum fun k => f (k + 5)))

/-! ### Field specifications (R20, R140) -/

/-- `0 <= left <= right <= 5`. -/
abbrev fieldOk (f : FieldCode) : Prop := f.toNat / 8 ≤ f.toNat % 8 ∧ f.toNat % 8 ≤ 5

/-- The first byte selected, `max(left, 1)`. -/
def fieldFrom (f : FieldCode) : Nat := max (f.toNat / 8) 1

/-- `byteCount`: 0 for `(0,0)`, else `max(right,1) - max(left,1) + 1`. -/
def fieldBytes (f : FieldCode) : Nat :=
  if f.toNat / 8 = 0 ∧ f.toNat % 8 = 0 then 0 else max (f.toNat % 8) 1 - max (f.toNat / 8) 1 + 1

/-- The result of field extraction: `(mag(w) div 64^(5-right)) mod 64^n`, the sign only if `left = 0` (R180). -/
def extractNum (w : MixWord) (f : FieldCode) : Nat :=
  wordNum (decide (f.toNat / 8 = 0) && w.sign) (w.mag.toNat / 64 ^ (5 - f.toNat % 8) % 64 ^ fieldBytes f)

/-- The result of field insertion: the last `n` bytes of `v` at positions `lo` to `right`, the other bytes of `old`, the sign
of `v` only if `left = 0` (R181). -/
def insertNum (old v : MixWord) (f : FieldCode) : Nat :=
  wordNum (if f.toNat / 8 = 0 then v.sign else old.sign)
    (bytesNum fun k => if fieldFrom f ≤ k ∧ k ≤ f.toNat % 8 then mbyte v (5 - fieldBytes f + (k - fieldFrom f + 1)) else mbyte old k)

/-! ### Index registers -/

/-- The signed value of an index register. -/
def indexVal (x : MixIndex) : Int := (if x.sign then -1 else 1) * (x.mag.toNat : Int)

/-- The offset an index number stands for: `val(I[n])` for 1 to 6, else 0. -/
def offsetOf (s : State) (n : Nat) : Int := if h : 1 ≤ n ∧ n ≤ 6 then indexVal (s.idx[n - 1]'(by omega)) else 0

/-! ### MMIX commands of four widths (R240) -/

/-- A binary command of four widths: opcode `op + sz`, and at every live state its answer is `r` of the width and the operands. -/
def SizedBinary (op : Nat) (b : Byte → Byte → Instr) (w : Wyde → Wyde → Instr) (t : Tetra → Tetra → Instr)
    (o : Octa → Octa → Instr) (r : (W : Nat) → BitVec W → BitVec W → Response) : Prop :=
  ∀ s : State, s.Live →
    (∀ x y, HasOpcode (b x y) op ∧ Answers (b x y) s (r 8 x y)) ∧
    (∀ x y, HasOpcode (w x y) (op + 1) ∧ Answers (w x y) s (r 16 x y)) ∧
    (∀ x y, HasOpcode (t x y) (op + 2) ∧ Answers (t x y) s (r 32 x y)) ∧
    (∀ x y, HasOpcode (o x y) (op + 3) ∧ Answers (o x y) s (r 64 x y))

/-- A true signed result wrapped to `W` bits, and whether it lies outside `MIN_W .. MAX_W`. -/
def signedResult (W : Nat) (T : Int) : Response :=
  resultOvf (twos W T) (decide (T < -(2 : Int) ^ (W - 1) ∨ T > (2 : Int) ^ (W - 1) - 1))

/-! ### MMIX memory (R75 to R77) -/

/-- The value of the `n` bytes from `addr` on, the byte at `addr` the most significant, addresses modulo `2^64` (R76). -/
def bigEndian (s : State) (addr : Octa) : Nat → Nat
  | 0 => 0
  | n + 1 => bigEndian s addr n * 256 + (byteAt s (addr + BitVec.ofNat 64 n)).toNat

/-- The access of `n` bytes at `addr` is refused: checking is on and the address is no multiple of `n` (R281). -/
abbrev refusedAt (s : State) (addr : Octa) (n : Nat) : Prop := s.cfg.checkAlignment = true ∧ addr.toNat % n ≠ 0

/-- After the write of the `n` bytes of `v` at `addr`: exactly these bytes changed, the most significant at `addr`, and
exactly their pages were allocated (R77). -/
def WroteBytes (s t : State) (addr : Octa) (n v : Nat) : Prop :=
  (∀ k < n, (byteAt t (addr + BitVec.ofNat 64 k)).toNat = v / 256 ^ (n - 1 - k) % 256) ∧
  (∀ x, (∀ k < n, x ≠ addr + BitVec.ofNat 64 k) → byteAt t x = byteAt s x) ∧
  (∀ p, p ∈ t.allocated ↔ p ∈ s.allocated ∨ ∃ k < n, p = (addr + BitVec.ofNat 64 k).toNat / 4096 * 4096)

/-! ### The register window (R300) -/

/-- The content of physical slot `k mod 256`. -/
def slot (s : State) (k : Nat) : Octa := s.general[k % 256]'(Nat.mod_lt _ (by decide))

/-- `general[]` with `v` in physical slot `k mod 256`. -/
def slotSet (s : State) (k : Nat) (v : Octa) : Vector Octa 256 := s.general.set (k % 256) v (Nat.mod_lt _ (by decide))

/-- Every special register but `rL` and `rS` holds what it held. -/
def OtherSpecialsKept (s t : State) : Prop := ∀ n, n ≠ s.cfg.numRL → n ≠ s.cfg.numRS → specialAt t n = specialAt s n

/-- The register count of a promotion to `$i` beyond the 255 that fit the ring: the spills it makes (R302, R305). -/
def spillCount (s : State) (i : Nat) : Nat := (rO s).toNat / 8 - (rS s).toNat / 8 + i + 1 - 255

/-- A sequence of general-register writes takes `s` to `t`. -/
def Writes : List (BitVec 8 × Octa) → State → State → Prop
  | [], s, t => t = s
  | (r, v) :: ws, s, t => ∃ u, exec (.grWrite v r) s = .next u ∧ Writes ws u t

/-- The check of R316 fails for the write of `v` to special register `n`. -/
abbrev illegalWrite (s : State) (n : BitVec 5) (v : Octa) : Prop :=
  (n = s.cfg.numRL ∧ v.toNat > (rG s).toNat) ∨ (n = s.cfg.numRG ∧ (v.toNat < (rL s).toNat ∨ v.toNat > 256)) ∨
  (n = s.cfg.numRO ∧ v.toNat % 8 ≠ 0) ∨ (n = s.cfg.numRS ∧ v.toNat % 8 ≠ 0)

/-! ### The whole block -/

/-- The reserved opcodes, as R116 lists them. -/
abbrev reservedOp (n : Nat) : Prop :=
  (0x03 ≤ n ∧ n ≤ 0x07) ∨ (0x22 ≤ n ∧ n ≤ 0x27) ∨ n = 0x2F ∨ (0x38 ≤ n ∧ n ≤ 0x3F) ∨ n = 0x74 ∨ n = 0x78 ∨
  (0x84 ≤ n ∧ n ≤ 0x8F) ∨ (0x9A ≤ n ∧ n ≤ 0x9F) ∨ (0xA6 ≤ n ∧ n ≤ 0xFF)

/-- The kinds of violation each command can raise (the table of R342); every other command raises none. -/
def raises : Instr → List CvKind
  | .fsEnc _ _ | .fsDec _ | .mxFget _ _ | .mxFput _ _ _ | .mmLoad _ _ | .mmStore _ _ _ => [.fieldSpec]
  | .mxMake _ _ | .mxFromint _ | .mxDiv _ _ _ => [.magnitude]
  | .mxGetb _ _ => [.byteIndex]
  | .mxSetb _ _ _ => [.byteIndex, .byteValue]
  | .mrRead _ | .mrWrite _ _ => [.registerIndex]
  | .mrSetci _ => [.operand]
  | .srWrite _ _ => [.geometry]
  | .popf _ => [.stackUnderflow, .geometry, .frameUnderflow]
  | _ => []

/-- The MIX half of the state (10_state.md sections 2 and 3). -/
def MixHalfEq (s t : State) : Prop :=
  t.regA = s.regA ∧ t.regX = s.regX ∧ t.idx = s.idx ∧ t.regJ = s.regJ ∧ t.ov = s.ov ∧ t.ci = s.ci ∧ t.mixmem = s.mixmem

/-- The MMIX half of the state (10_state.md sections 4 and 5). -/
def MmixHalfEq (s t : State) : Prop :=
  t.mmixmem = s.mmixmem ∧ t.allocated = s.allocated ∧ t.general = s.general ∧ t.special = s.special ∧ t.memoryStack = s.memoryStack

/-- The parameters and the block-level bits. -/
def BlockEq (s t : State) : Prop := t.cfg = s.cfg ∧ t.fatal = s.fatal ∧ t.cvKind = s.cvKind

end Sys2Proof.Claims

open Sys2Proof Sys2Proof.Machine Sys2Proof.Claims

/-! ## MIX arithmetic (40_mix_word_alu.md) -/

/-- R141, R142: `FS.ENC` gives `8*left + right`, `FS.DEC` gives `left`, `right`, `includesSign`, `byteCount`; each raises
`CV(FieldSpec)` for an invalid pair or code and for no other. -/
def Obligations.FieldCodeCommands : Prop :=
  ∀ s : State, s.Live →
    (∀ l r : BitVec 3, HasOpcode (.fsEnc l r) 0x00 ∧
      if l.toNat ≤ r.toNat ∧ r.toNat ≤ 5 then Answers (.fsEnc l r) s (result (8 * l.toNat + r.toNat))
      else Raises (.fsEnc l r) s .fieldSpec) ∧
    (∀ f : FieldCode, HasOpcode (.fsDec f) 0x01 ∧
      if fieldOk f then
        Answers (.fsDec f) s (result4 (f.toNat / 8) (f.toNat % 8) (flag (decide (f.toNat / 8 = 0))) (fieldBytes f))
      else Raises (.fsDec f) s .fieldSpec)

/-- R143 to R146: `MA.MAKE`, `MX.MAKE`, `MX.FROMINT` and `MX.TRUNC`, with `CV(Magnitude)` exactly for a magnitude of `2^30` or more. -/
def Obligations.MixConstruction : Prop :=
  ∀ s : State, s.Live →
    (∀ v : Octa, HasOpcode (.maMake v) 0x02 ∧ Answers (.maMake v) s (result (v.toNat % 4096))) ∧
    (∀ (neg : Bool) (m : BitVec 32), HasOpcode (.mxMake neg m) 0x08 ∧
      if m.toNat < 2 ^ 30 then Answers (.mxMake neg m) s (result (wordNum neg m.toNat))
      else Raises (.mxMake neg m) s .magnitude) ∧
    (∀ v : BitVec 32, HasOpcode (.mxFromint v) 0x09 ∧
      if v.toInt.natAbs < 2 ^ 30 then Answers (.mxFromint v) s (result (wordNum (decide (v.toInt < 0)) v.toInt.natAbs))
      else Raises (.mxFromint v) s .magnitude) ∧
    (∀ r : BitVec 32, HasOpcode (.mxTrunc r) 0x0A ∧
      Answers (.mxTrunc r) s (result (wordNum (r.getLsbD 30) (r.toNat % 2 ^ 30))))

/-- R147 to R149, R152, R157 to R159: the signed value, the sign, the magnitude, negation (which flips the sign of zero too), comparison by signed
value, the zero test and bit equality. -/
def Obligations.MixAccessorsAndComparison : Prop :=
  ∀ (s : State) (a b : MixWord), s.Live →
    (HasOpcode (.mxToint a) 0x0B ∧ Answers (.mxToint a) s (result (twos 32 (signedVal a)))) ∧
    (HasOpcode (.mxSign a) 0x0C ∧ Answers (.mxSign a) s (result (flag a.sign))) ∧
    (HasOpcode (.mxMag a) 0x0D ∧ Answers (.mxMag a) s (result a.mag.toNat)) ∧
    (HasOpcode (.mxNeg a) 0x10 ∧ Answers (.mxNeg a) s (result (wordNum (!a.sign) a.mag.toNat))) ∧
    (HasOpcode (.mxCmp a b) 0x15 ∧ Answers (.mxCmp a b) s (result (order (signedVal a) (signedVal b)))) ∧
    (HasOpcode (.mxIszero a) 0x16 ∧ Answers (.mxIszero a) s (result (flag (decide (a.mag.toNat = 0))))) ∧
    (HasOpcode (.mxEqbits a b) 0x17 ∧
      Answers (.mxEqbits a b) s (result (flag (decide (a.sign = b.sign ∧ a.mag.toNat = b.mag.toNat)))))

/-- R150, R151: reading and writing byte `k`, `CV(ByteIndex)` for `k` outside 1 to 5, then `CV(ByteValue)` for a byte of 64 or
more; the bytes are the bit fields of R21. -/
def Obligations.MixByteAccess : Prop :=
  ∀ (s : State) (w : MixWord) (k : BitVec 3), s.Live →
    (HasOpcode (.mxGetb w k) 0x0E ∧
      if 1 ≤ k.toNat ∧ k.toNat ≤ 5 then Answers (.mxGetb w k) s (result (mbyte w k.toNat)) else Raises (.mxGetb w k) s .byteIndex) ∧
    ∀ b : BitVec 8, HasOpcode (.mxSetb w k b) 0x0F ∧
      if 1 ≤ k.toNat ∧ k.toNat ≤ 5 then
        if b.toNat < 64 then
          Answers (.mxSetb w k b) s (result (wordNum w.sign (bytesNum fun j => if j = k.toNat then b.toNat else mbyte w j)))
        else Raises (.mxSetb w k b) s .byteValue
      else Raises (.mxSetb w k b) s .byteIndex

/-- R153, R154: the true sum or difference `S` gives sign `S < 0`, so `+` for a zero result, magnitude `|S| mod 2^30` and overflow
`|S| >= 2^30`. -/
def Obligations.MixAddSub : Prop :=
  ∀ (s : State) (a b : MixWord), s.Live →
    (∀ S : Int, S = signedVal a + signedVal b → HasOpcode (.mxAdd a b) 0x11 ∧
      Answers (.mxAdd a b) s (resultOvf (wordNum (decide (S < 0)) (S.natAbs % 2 ^ 30)) (decide (S.natAbs ≥ 2 ^ 30)))) ∧
    (∀ S : Int, S = signedVal a - signedVal b → HasOpcode (.mxSub a b) 0x12 ∧
      Answers (.mxSub a b) s (resultOvf (wordNum (decide (S < 0)) (S.natAbs % 2 ^ 30)) (decide (S.natAbs ≥ 2 ^ 30))))

/-- R155: the 60-bit product as two words, both with the XOR of the signs; no bit of the product is lost. -/
def Obligations.MixMultiply : Prop :=
  ∀ (s : State) (a b : MixWord), s.Live → HasOpcode (.mxMul a b) 0x13 ∧
    ∀ high low : Nat, high * 2 ^ 30 + low = a.mag.toNat * b.mag.toNat → low < 2 ^ 30 →
      high < 2 ^ 30 ∧ Answers (.mxMul a b) s (result2 (wordNum (a.sign != b.sign) high) (wordNum (a.sign != b.sign) low))

/-- R156, R344: a zero divisor of either sign returns nil; `mag(hi) >= mag(d)` raises `CV(Magnitude)`; else the quotient and the
remainder of the 60-bit dividend, the quotient with the XOR sign, the remainder with the sign of `hi`. -/
def Obligations.MixDivide : Prop :=
  ∀ (s : State) (hi lo d : MixWord), s.Live → HasOpcode (.mxDiv hi lo d) 0x14 ∧
    (d.mag.toNat = 0 → Answers (.mxDiv hi lo d) s resultNil) ∧
    (d.mag.toNat ≠ 0 → d.mag.toNat ≤ hi.mag.toNat → Raises (.mxDiv hi lo d) s .magnitude) ∧
    (∀ Q R : Nat, hi.mag.toNat < d.mag.toNat → hi.mag.toNat * 2 ^ 30 + lo.mag.toNat = Q * d.mag.toNat + R → R < d.mag.toNat →
      Q < 2 ^ 30 ∧ Answers (.mxDiv hi lo d) s (result2 (wordNum (hi.sign != d.sign) Q) (wordNum hi.sign R)))

/-- R161, R162: result byte `k` of a shift is byte `k+n` (left) or `k-n` (right) of the operand where there is one, else 0, at every
distance; the sign is kept. -/
def Obligations.MixShifts : Prop :=
  ∀ (s : State) (w : MixWord) (n : BitVec 12), s.Live →
    (HasOpcode (.mxShl w n) 0x18 ∧ Answers (.mxShl w n) s
      (result (wordNum w.sign (bytesNum fun k => if k + n.toNat ≤ 5 then mbyte w (k + n.toNat) else 0)))) ∧
    (HasOpcode (.mxShr w n) 0x19 ∧ Answers (.mxShr w n) s
      (result (wordNum w.sign (bytesNum fun k => if n.toNat < k then mbyte w (k - n.toNat) else 0))))

/-- R163, R164: result byte `k` of a rotate is byte `((k - 1 ± m) mod 5) + 1` with `m = n mod 5` and the floored modulus; the sign is
kept; rotating right by `n` is rotating left by `5 - (n mod 5)`. -/
def Obligations.MixRotates : Prop :=
  ∀ (s : State) (w : MixWord) (n : BitVec 12), s.Live →
    (HasOpcode (.mxRol w n) 0x1A ∧ Answers (.mxRol w n) s
      (result (wordNum w.sign (bytesNum fun k => mbyte w (((k : Int) - 1 + (n.toNat % 5 : Nat)) % 5 + 1).toNat)))) ∧
    (HasOpcode (.mxRor w n) 0x1B ∧ Answers (.mxRor w n) s
      (result (wordNum w.sign (bytesNum fun k => mbyte w (((k : Int) - 1 - (n.toNat % 5 : Nat)) % 5 + 1).toNat)))) ∧
    exec (.mxRor w n) s = exec (.mxRol w (BitVec.ofNat 12 (5 - n.toNat % 5))) s

/-- R166, R167: the ten bytes of a double word shifted, zeros in, each word with its own sign. -/
def Obligations.MixDoubleShifts : Prop :=
  ∀ (s : State) (hi lo : MixWord) (n : BitVec 12), s.Live →
    (HasOpcode (.mxShld hi lo n) 0x1C ∧ Answers (.mxShld hi lo n) s
      (pairResult hi lo fun k => if k + n.toNat ≤ 10 then dbyte hi lo (k + n.toNat) else 0)) ∧
    (HasOpcode (.mxShrd hi lo n) 0x1D ∧ Answers (.mxShrd hi lo n) s
      (pairResult hi lo fun k => if n.toNat < k then dbyte hi lo (k - n.toNat) else 0))

/-- R168, R169: the ten bytes of a double word rotated, the distance modulo 10; right by `n` is left by `10 - (n mod 10)`. -/
def Obligations.MixDoubleRotates : Prop :=
  ∀ (s : State) (hi lo : MixWord) (n : BitVec 12), s.Live →
    (HasOpcode (.mxRold hi lo n) 0x1E ∧ Answers (.mxRold hi lo n) s
      (pairResult hi lo fun k => dbyte hi lo (((k : Int) - 1 + (n.toNat % 10 : Nat)) % 10 + 1).toNat)) ∧
    (HasOpcode (.mxRord hi lo n) 0x1F ∧ Answers (.mxRord hi lo n) s
      (pairResult hi lo fun k => dbyte hi lo (((k : Int) - 1 - (n.toNat % 10 : Nat)) % 10 + 1).toNat)) ∧
    exec (.mxRord hi lo n) s = exec (.mxRold hi lo (BitVec.ofNat 12 (10 - n.toNat % 10))) s

/-- R182, R183: field extraction and insertion as commands, `CV(FieldSpec)` exactly for an invalid code. -/
def Obligations.MixFieldCommands : Prop :=
  ∀ (s : State) (w v : MixWord) (f : FieldCode), s.Live →
    (HasOpcode (.mxFget w f) 0x20 ∧
      if fieldOk f then Answers (.mxFget w f) s (result (extractNum w f)) else Raises (.mxFget w f) s .fieldSpec) ∧
    (HasOpcode (.mxFput w v f) 0x21 ∧
      if fieldOk f then Answers (.mxFput w v f) s (result (insertNum w v f)) else Raises (.mxFput w v f) s .fieldSpec)

/-! ## MIX memory (41_mix_memory.md) -/

/-- R200, R204: `MM.LOAD` answers the field of the word at `addr` modulo the size (field 5 is the word itself), `MM.DUMP` the words of the range in
order, wrapping per word; both change nothing. -/
def Obligations.MixMemoryReads : Prop :=
  ∀ (s : State) (addr : MixAddr), s.Live →
    (∀ f : FieldCode, HasOpcode (.mmLoad addr f) 0x28 ∧
      if fieldOk f then Answers (.mmLoad addr f) s (result (extractNum (mixRead s (addr.toNat % s.cfg.mixMemSize)) f))
      else Raises (.mmLoad addr f) s .fieldSpec) ∧
    Answers (.mmLoad addr 5) s (result (rawNum (mixRead s (addr.toNat % s.cfg.mixMemSize)))) ∧
    ∀ count : BitVec 13, HasOpcode (.mmDump addr count) 0x2C ∧ Answers (.mmDump addr count) s
      (resultSeq ((List.range count.toNat).map fun k => rawNum (mixRead s ((addr.toNat + k) % s.cfg.mixMemSize))))

/-- R201: `MM.STORE` puts the field into the word at `addr` modulo the size and changes no other word and no other state. -/
def Obligations.MixStore : Prop :=
  ∀ (s : State) (v : MixWord) (addr : MixAddr) (f : FieldCode), s.Live → HasOpcode (.mmStore v addr f) 0x29 ∧
    if fieldOk f then ChangesMixMem (.mmStore v addr f) s noResult fun t =>
      ∀ a, rawNum (mixRead t a) =
        if a % s.cfg.mixMemSize = addr.toNat % s.cfg.mixMemSize then insertNum (mixRead s addr.toNat) v f else rawNum (mixRead s a)
    else Raises (.mmStore v addr f) s .fieldSpec

/-- R207: after a field store the same field loads as the low `byteCount` bytes of the value, its sign only if `left = 0`; a field that
shares no byte (and not the sign) loads as before; a store with field `(4,5)` keeps the sign and the first three bytes and
makes the last two those of the value. -/
def Obligations.MixStoreThenLoad : Prop :=
  ∀ (s t : State) (v : MixWord) (addr : MixAddr) (f : FieldCode), s.Live → fieldOk f → exec (.mmStore v addr f) s = .next t →
    Answers (.mmLoad addr f) t
      (result (wordNum (decide (f.toNat / 8 = 0) && v.sign) (v.mag.toNat % 64 ^ fieldBytes f))) ∧
    (∀ g : FieldCode, fieldOk g → (f.toNat % 8 < fieldFrom g ∨ g.toNat % 8 < fieldFrom f) →
      (f.toNat / 8 = 0 → 1 ≤ g.toNat / 8) → Answers (.mmLoad addr g) t (result (extractNum (mixRead s addr.toNat) g))) ∧
    (f = 37 → (mixRead t addr.toNat).sign = (mixRead s addr.toNat).sign ∧
      (∀ k, 1 ≤ k → k ≤ 3 → mbyte (mixRead t addr.toNat) k = mbyte (mixRead s addr.toNat) k) ∧
      ∀ k, 4 ≤ k → k ≤ 5 → mbyte (mixRead t addr.toNat) k = mbyte v k)

/-- R202, R203: both loaders write word `k` of the sequence at `(start + k) mod size`, a later word winning, and change no other word
and no other state. -/
def Obligations.MixLoadImage : Prop :=
  ∀ (s : State) (start : MixAddr) (ws : List MixWord), s.Live →
    HasOpcode (.mmLoadimg start ws) 0x2B ∧ HasOpcode (.mmLoadprog start ws) 0x2A ∧
    exec (.mmLoadprog start ws) s = exec (.mmLoadimg start ws) s ∧
    ChangesMixMem (.mmLoadimg start ws) s noResult fun t =>
      (∀ k (h : k < ws.length), (∀ j, k < j → j < ws.length → (start.toNat + j) % s.cfg.mixMemSize ≠ (start.toNat + k) % s.cfg.mixMemSize) →
        mixRead t (start.toNat + k) = ws[k]) ∧
      ∀ a, (∀ k < ws.length, (start.toNat + k) % s.cfg.mixMemSize ≠ a % s.cfg.mixMemSize) → mixRead t a = mixRead s a

/-- R205, R206: `MM.CLEAR` makes every word `+0`, and the memory what it is after reset; `MM.CLRRNG` makes exactly the words of
the range `+0`. -/
def Obligations.MixClear : Prop :=
  ∀ s : State, s.Live →
    (HasOpcode .mmClear 0x2D ∧ ChangesMixMem .mmClear s noResult fun t =>
      (∀ a, mixRead t a = ⟨false, 0⟩) ∧ t.mixmem = (State.resetWith s.cfg).mixmem) ∧
    ∀ (start : MixAddr) (count : BitVec 13), HasOpcode (.mmClrrng start count) 0x2E ∧
      ChangesMixMem (.mmClrrng start count) s noResult fun t =>
        (∀ k < count.toNat, mixRead t (start.toNat + k) = ⟨false, 0⟩) ∧
        ∀ a, (∀ k < count.toNat, (start.toNat + k) % s.cfg.mixMemSize ≠ a % s.cfg.mixMemSize) → mixRead t a = mixRead s a

/-! ## MIX registers (42_mix_regfile.md) -/

/-- R220: `MR.READ` of each identifier; 9 to 15 raise `CV(RegisterIndex)`. -/
def Obligations.MixRegisterRead : Prop :=
  ∀ s : State, s.Live → (∀ id, HasOpcode (.mrRead id) 0x30) ∧
    Answers (.mrRead 0) s (result (rawNum s.regA)) ∧
    Answers (.mrRead 1) s (result (rawNum s.regX)) ∧
    (∀ k : Fin 6, Answers (.mrRead (BitVec.ofNat 4 (k.val + 2))) s (result (wordNum s.idx[k].sign s.idx[k].mag.toNat))) ∧
    Answers (.mrRead 8) s (result s.regJ.toNat) ∧
    ∀ id : BitVec 4, 9 ≤ id.toNat → Raises (.mrRead id) s .registerIndex

/-- R221: `MR.WRITE` to each identifier: `A` and `X` verbatim, an index register the sign and the low 12 magnitude bits, `J` the low
12 magnitude bits; exactly one register changes; 9 to 15 raise `CV(RegisterIndex)`. -/
def Obligations.MixRegisterWrite : Prop :=
  ∀ (s : State) (v : MixWord), s.Live → (∀ id, HasOpcode (.mrWrite v id) 0x31) ∧
    exec (.mrWrite v 0) s = .next { s with regA := v, resp := noResult } ∧
    exec (.mrWrite v 1) s = .next { s with regX := v, resp := noResult } ∧
    (∀ k : Fin 6, exec (.mrWrite v (BitVec.ofNat 4 (k.val + 2))) s =
      .next { s with idx := s.idx.set k ⟨v.sign, BitVec.ofNat 12 (v.mag.toNat % 2 ^ 12)⟩, resp := noResult }) ∧
    exec (.mrWrite v 8) s = .next { s with regJ := BitVec.ofNat 12 (v.mag.toNat % 2 ^ 12), resp := noResult } ∧
    ∀ id : BitVec 4, 9 ≤ id.toNat → Raises (.mrWrite v id) s .registerIndex

/-- R222, R223: the effective address is the base itself for index 0, else base plus offset modulo 4000, floored; the index offset is the
register's signed value, and 0 for the numbers 0 and 7. -/
def Obligations.EffectiveAddress : Prop :=
  ∀ (s : State) (base : MixAddr) (n : BitVec 3), s.Live →
    (HasOpcode (.mrEa base n) 0x32 ∧ Answers (.mrEa base n) s
      (result (if n.toNat = 0 then base.toNat else (((base.toNat : Int) + offsetOf s n.toNat) % 4000).toNat))) ∧
    (HasOpcode (.mrIdxoff n) 0x33 ∧ Answers (.mrIdxoff n) s (result (twos 32 (offsetOf s n.toNat))))

/-- R224 to R227: reading `OV` and `CI` changes neither; `MR.SETOV` and `MR.SETCI` write them, the comparison code 3 raising `CV(Operand)`. -/
def Obligations.MixFlagCommands : Prop :=
  ∀ s : State, s.Live →
    (HasOpcode .mrGetov 0x34 ∧ Answers .mrGetov s (result (flag s.ov))) ∧
    (∀ b, HasOpcode (.mrSetov b) 0x35 ∧ exec (.mrSetov b) s = .next { s with ov := b, resp := noResult }) ∧
    (HasOpcode .mrGetci 0x36 ∧
      Answers .mrGetci s (result (match s.ci with | .less => 0 | .equal => 1 | .greater => 2))) ∧
    (∀ c, HasOpcode (.mrSetci c) 0x37) ∧
    exec (.mrSetci 0) s = .next { s with ci := .less, resp := noResult } ∧
    exec (.mrSetci 1) s = .next { s with ci := .equal, resp := noResult } ∧
    exec (.mrSetci 2) s = .next { s with ci := .greater, resp := noResult } ∧
    Raises (.mrSetci 3) s .operand

/-- R228: what reading back gives after a register write (`A` and `X` bit for bit, an index register truncated with its sign, `J`
positive), that truncation is idempotent, that an indexed effective address lies in `0 .. 3999` and is base plus the index offset. -/
def Obligations.MixRegisterProperties : Prop :=
  (∀ (s t : State) (v : MixWord) (id : BitVec 4), s.Live → exec (.mrWrite v id) s = .next t →
    (id.toNat ≤ 1 → Answers (.mrRead id) t (result (rawNum v))) ∧
    (2 ≤ id.toNat → id.toNat ≤ 7 →
      Answers (.mrRead id) t (result (wordNum v.sign (v.mag.toNat % 2 ^ 12))) ∧
      exec (.mrWrite ⟨v.sign, BitVec.ofNat 30 (v.mag.toNat % 2 ^ 12)⟩ id) t = .next { t with resp := noResult }) ∧
    (id.toNat = 8 → Answers (.mrRead id) t (result (v.mag.toNat % 2 ^ 12)))) ∧
  ∀ (s : State) (base : MixAddr) (n : BitVec 3), s.Live → n.toNat ≠ 0 →
    ∃ ea < 4000, Answers (.mrEa base n) s (result ea) ∧
      ∃ off : Int, Answers (.mrIdxoff n) s (result (twos 32 off)) ∧ -4095 ≤ off ∧ off ≤ 4095 ∧ (ea : Int) = (base.toNat + off) % 4000

/-- R27: no command but `MR.WRITE` changes `A`, `X`, an index register or `J`, none but `MR.SETOV` changes `OV`, none but `MR.SETCI` changes `CI`;
`MX.ADD`, `MX.SUB` and `MX.CMP` are among those that change none. -/
def Obligations.MixRegistersWrittenOnlyByTheirCommands : Prop :=
  ∀ (i : Instr) (s t : State), exec i s = .next t →
    ((∀ v id, i ≠ .mrWrite v id) → t.regA = s.regA ∧ t.regX = s.regX ∧ t.idx = s.idx ∧ t.regJ = s.regJ) ∧
    ((∀ b, i ≠ .mrSetov b) → t.ov = s.ov) ∧ ((∀ c, i ≠ .mrSetci c) → t.ci = s.ci)

/-! ## The MMIX integer unit (43_mmix_int.md) -/

/-- R241 to R243: `ADD`, `SUB`, `MUL` modulo `2^W` at each width, the difference with the floored modulus. -/
def Obligations.WrappingArithmetic : Prop :=
  SizedBinary 0x40 .addB .addW .addT .addO (fun W a b => result ((a.toNat + b.toNat) % 2 ^ W)) ∧
  SizedBinary 0x44 .subB .subW .subT .subO (fun W a b => result (twos W ((a.toNat : Int) - b.toNat))) ∧
  SizedBinary 0x48 .mulB .mulW .mulT .mulO (fun W a b => result (a.toNat * b.toNat % 2 ^ W))

/-- R244, R246, R248: the unsigned overflow-reporting variants: carry, borrow, and a product of `2^W` or more, which is one whose high
half is not zero. -/
def Obligations.UnsignedOverflowArithmetic : Prop :=
  SizedBinary 0x4C .adduoB .adduoW .adduoT .adduoO
    (fun W a b => resultOvf ((a.toNat + b.toNat) % 2 ^ W) (decide (a.toNat + b.toNat ≥ 2 ^ W))) ∧
  SizedBinary 0x54 .subuoB .subuoW .subuoT .subuoO
    (fun W a b => resultOvf (twos W ((a.toNat : Int) - b.toNat)) (decide (a.toNat < b.toNat))) ∧
  SizedBinary 0x5C .muluoB .muluoW .muluoT .muluoO
    (fun W a b => resultOvf (a.toNat * b.toNat % 2 ^ W) (decide (a.toNat * b.toNat ≥ 2 ^ W))) ∧
  SizedBinary 0x5C .muluoB .muluoW .muluoT .muluoO
    (fun W a b => resultOvf (a.toNat * b.toNat % 2 ^ W) (decide (a.toNat * b.toNat / 2 ^ W ≠ 0)))

/-- R245, R247, R249: the signed overflow-reporting variants: the true result wrapped, `ovf` exactly when it lies outside `MIN_W .. MAX_W`; for the
sum that is exactly when the operands' sign bits agree and the result's sign bit differs. -/
def Obligations.SignedOverflowArithmetic : Prop :=
  SizedBinary 0x50 .addsoB .addsoW .addsoT .addsoO (fun W a b => signedResult W (a.toInt + b.toInt)) ∧
  SizedBinary 0x58 .subsoB .subsoW .subsoT .subsoO (fun W a b => signedResult W (a.toInt - b.toInt)) ∧
  SizedBinary 0x60 .mulsoB .mulsoW .mulsoT .mulsoO (fun W a b => signedResult W (a.toInt * b.toInt)) ∧
  SizedBinary 0x50 .addsoB .addsoW .addsoT .addsoO
    (fun W a b => resultOvf ((a.toNat + b.toNat) % 2 ^ W) (a.msb == b.msb && (a + b).msb != a.msb))

/-- R250, R251: the full unsigned product as two halves, and unsigned division, `(0, a)` by zero with `valid` still 1. -/
def Obligations.FullMultiplyAndDivide : Prop :=
  SizedBinary 0x64 .mulfuB .mulfuW .mulfuT .mulfuO
    (fun W a b => result2 (a.toNat * b.toNat / 2 ^ W) (a.toNat * b.toNat % 2 ^ W)) ∧
  SizedBinary 0x68 .divuB .divuW .divuT .divuO
    (fun _ a b => if b.toNat = 0 then result2 0 a.toNat else result2 (a.toNat / b.toNat) (a.toNat % b.toNat))

/-- R252, R253: unsigned and signed comparison; the two agree exactly when the operands' top bits agree. -/
def Obligations.MmixComparison : Prop :=
  SizedBinary 0x6C .cmpuB .cmpuW .cmpuT .cmpuO (fun _ a b => result (order a.toNat b.toNat)) ∧
  SizedBinary 0x70 .cmpsB .cmpsW .cmpsT .cmpsO (fun _ a b => result (order a.toInt b.toInt)) ∧
  SizedBinary 0x70 .cmpsB .cmpsW .cmpsT .cmpsO
    (fun _ a b => result (if a.msb = b.msb then order a.toNat b.toNat else order b.toNat a.toNat))

/-- R254 to R257: decomposition into the more significant and the other half; reconstruction; each undoes the other; the `Byte` forms of both
are reserved; the upper bits of the ports of a reconstruction are ignored; truncation to the low `W` bits; the signed value as a
64-bit two's-complement integer. -/
def Obligations.MmixConversions : Prop :=
  ∀ s : State, s.Live →
    (∀ v : Wyde, HasOpcode (.splitW v) 0x75 ∧ Answers (.splitW v) s (result2 (v.toNat / 2 ^ 8) (v.toNat % 2 ^ 8))) ∧
    (∀ v : Tetra, HasOpcode (.splitT v) 0x76 ∧ Answers (.splitT v) s (result2 (v.toNat / 2 ^ 16) (v.toNat % 2 ^ 16))) ∧
    (∀ v : Octa, HasOpcode (.splitO v) 0x77 ∧ Answers (.splitO v) s (result2 (v.toNat / 2 ^ 32) (v.toNat % 2 ^ 32))) ∧
    (∀ hi lo : Byte, HasOpcode (.joinW hi lo) 0x79 ∧ Answers (.joinW hi lo) s (result (hi.toNat * 2 ^ 8 + lo.toNat))) ∧
    (∀ hi lo : Wyde, HasOpcode (.joinT hi lo) 0x7A ∧ Answers (.joinT hi lo) s (result (hi.toNat * 2 ^ 16 + lo.toNat))) ∧
    (∀ hi lo : Tetra, HasOpcode (.joinO hi lo) 0x7B ∧ Answers (.joinO hi lo) s (result (hi.toNat * 2 ^ 32 + lo.toNat))) ∧
    (∀ v : Wyde, Answers (.joinW (BitVec.ofNat 8 (v.toNat / 2 ^ 8)) (BitVec.ofNat 8 (v.toNat % 2 ^ 8))) s (result v.toNat)) ∧
    (∀ v : Tetra, Answers (.joinT (BitVec.ofNat 16 (v.toNat / 2 ^ 16)) (BitVec.ofNat 16 (v.toNat % 2 ^ 16))) s (result v.toNat)) ∧
    (∀ v : Octa, Answers (.joinO (BitVec.ofNat 32 (v.toNat / 2 ^ 32)) (BitVec.ofNat 32 (v.toNat % 2 ^ 32))) s (result v.toNat)) ∧
    (∀ hi lo : Byte, Answers (.splitW (BitVec.ofNat 16 (hi.toNat * 2 ^ 8 + lo.toNat))) s (result2 hi.toNat lo.toNat)) ∧
    (∀ hi lo : Wyde, Answers (.splitT (BitVec.ofNat 32 (hi.toNat * 2 ^ 16 + lo.toNat))) s (result2 hi.toNat lo.toNat)) ∧
    (∀ hi lo : Tetra, Answers (.splitO (BitVec.ofNat 64 (hi.toNat * 2 ^ 32 + lo.toNat))) s (result2 hi.toNat lo.toNat)) ∧
    (∀ c : Command, c.op = 0x74 ∨ c.op = 0x78 → ∀ i, decode c ≠ .ok i) ∧
    (∀ (c : Command) (half : Nat), 0x79 ≤ c.op.toNat → c.op.toNat ≤ 0x7B → half = 4 * 2 ^ (c.op.toNat % 4) →
      decode { c with p0 := BitVec.ofNat 64 (c.p0.toNat % 2 ^ half), p1 := BitVec.ofNat 64 (c.p1.toNat % 2 ^ half) } = decode c) ∧
    (∀ v : Octa,
      (HasOpcode (.truncB v) 0x7C ∧ Answers (.truncB v) s (result (v.toNat % 2 ^ 8))) ∧
      (HasOpcode (.truncW v) 0x7D ∧ Answers (.truncW v) s (result (v.toNat % 2 ^ 16))) ∧
      (HasOpcode (.truncT v) 0x7E ∧ Answers (.truncT v) s (result (v.toNat % 2 ^ 32))) ∧
      (HasOpcode (.truncO v) 0x7F ∧ Answers (.truncO v) s (result v.toNat)) ∧
      (HasOpcode (.svalO v) 0x83 ∧ Answers (.svalO v) s (result (twos 64 v.toInt)))) ∧
    (∀ v : Byte, HasOpcode (.svalB v) 0x80 ∧ Answers (.svalB v) s (result (twos 64 v.toInt))) ∧
    (∀ v : Wyde, HasOpcode (.svalW v) 0x81 ∧ Answers (.svalW v) s (result (twos 64 v.toInt))) ∧
    (∀ v : Tetra, HasOpcode (.svalT v) 0x82 ∧ Answers (.svalT v) s (result (twos 64 v.toInt)))

/-! ## MMIX memory (44_mmix_memory.md) -/

/-- R281 to R285: a load answers the big-endian value of its bytes, zero-extended, and changes nothing; with checking on, a `Wyde`, `Tetra` or
`Octa` at an address that is no multiple of its width answers `Misaligned` and zero. -/
def Obligations.MmixLoads : Prop :=
  ∀ (s : State) (addr : Octa), s.Live →
    (HasOpcode (.ldB addr) 0x90 ∧ Answers (.ldB addr) s (result (byteAt s addr).toNat)) ∧
    (HasOpcode (.ldW addr) 0x91 ∧
      Answers (.ldW addr) s (if refusedAt s addr 2 then resultMisaligned else result (bigEndian s addr 2))) ∧
    (HasOpcode (.ldT addr) 0x92 ∧
      Answers (.ldT addr) s (if refusedAt s addr 4 then resultMisaligned else result (bigEndian s addr 4))) ∧
    (HasOpcode (.ldO addr) 0x93 ∧
      Answers (.ldO addr) s (if refusedAt s addr 8 then resultMisaligned else result (bigEndian s addr 8)))

/-- R281, R286 to R289: a store writes exactly the bytes it addresses, the most significant at `addr`, and allocates exactly their pages; a
refused store answers `Misaligned` and changes nothing. -/
def Obligations.MmixStores : Prop :=
  ∀ (s : State) (addr : Octa), s.Live →
    (∀ v : Byte, HasOpcode (.stB v addr) 0x94 ∧
      ChangesMem (.stB v addr) s noResult fun t => WroteBytes s t addr 1 v.toNat) ∧
    (∀ v : Wyde, HasOpcode (.stW v addr) 0x95 ∧
      if refusedAt s addr 2 then Answers (.stW v addr) s resultMisaligned
      else ChangesMem (.stW v addr) s noResult fun t => WroteBytes s t addr 2 v.toNat) ∧
    (∀ v : Tetra, HasOpcode (.stT v addr) 0x96 ∧
      if refusedAt s addr 4 then Answers (.stT v addr) s resultMisaligned
      else ChangesMem (.stT v addr) s noResult fun t => WroteBytes s t addr 4 v.toNat) ∧
    (∀ v : Octa, HasOpcode (.stO v addr) 0x97 ∧
      if refusedAt s addr 8 then Answers (.stO v addr) s resultMisaligned
      else ChangesMem (.stO v addr) s noResult fun t => WroteBytes s t addr 8 v.toNat)

/-- R292: reading a never-written address gives zero; a load of the width just stored at the same address gives the value stored, at every
width and alignment permitted; a dump of a range just loaded gives the bytes back. -/
def Obligations.MmixStoreThenLoad : Prop :=
  (∀ (cfg : Config) (addr : Octa), Answers (.ldB addr) (State.resetWith cfg) (result 0)) ∧
  ∀ (s t : State) (addr : Octa), s.Live →
    (∀ v : Byte, exec (.stB v addr) s = .next t → Answers (.ldB addr) t (result v.toNat)) ∧
    (∀ v : Wyde, ¬ refusedAt s addr 2 → exec (.stW v addr) s = .next t → Answers (.ldW addr) t (result v.toNat)) ∧
    (∀ v : Tetra, ¬ refusedAt s addr 4 → exec (.stT v addr) s = .next t → Answers (.ldT addr) t (result v.toNat)) ∧
    (∀ v : Octa, ¬ refusedAt s addr 8 → exec (.stO v addr) s = .next t → Answers (.ldO addr) t (result v.toNat)) ∧
    (∀ bs : List Byte, bs.length < 2 ^ 64 → exec (.mbLoadimg addr bs) s = .next t →
      Answers (.mbDump addr (BitVec.ofNat 64 bs.length)) t (resultSeq (bs.map BitVec.toNat)))

/-- R80: after `ST.O` at an aligned address the narrower loads inside the octa see its bytes in big-endian order. -/
def Obligations.MixedWidthAccess : Prop :=
  ∀ (s t : State) (v addr : Octa), s.Live → addr.toNat % 8 = 0 → exec (.stO v addr) s = .next t →
    (∀ k < 8, Answers (.ldB (addr + BitVec.ofNat 64 k)) t (result (v.toNat / 256 ^ (7 - k) % 256))) ∧
    (∀ k < 4, Answers (.ldW (addr + BitVec.ofNat 64 (2 * k))) t (result (v.toNat / 65536 ^ (3 - k) % 65536))) ∧
    (∀ k < 2, Answers (.ldT (addr + BitVec.ofNat 64 (4 * k))) t (result (v.toNat / 4294967296 ^ (1 - k) % 4294967296)))

/-- R290, R291: the bulk load writes byte `k` at `start + k` modulo `2^64`, a later byte winning, and allocates exactly the pages that receive a
byte; the bulk dump answers the bytes of the range and changes nothing. -/
def Obligations.MmixBulk : Prop :=
  ∀ (s : State) (start : Octa), s.Live →
    (∀ bs : List Byte, HasOpcode (.mbLoadimg start bs) 0x98 ∧ ChangesMem (.mbLoadimg start bs) s noResult fun t =>
      (∀ k (h : k < bs.length), (∀ j, k < j → j < bs.length → BitVec.ofNat 64 j ≠ BitVec.ofNat 64 k) →
        byteAt t (start + BitVec.ofNat 64 k) = bs[k]) ∧
      (∀ x, (∀ k < bs.length, x ≠ start + BitVec.ofNat 64 k) → byteAt t x = byteAt s x) ∧
      (∀ p, p ∈ t.allocated ↔ p ∈ s.allocated ∨ ∃ k < bs.length, p = (start + BitVec.ofNat 64 k).toNat / 4096 * 4096)) ∧
    (∀ count : Octa, HasOpcode (.mbDump start count) 0x99 ∧ Answers (.mbDump start count) s
      (resultSeq ((List.range count.toNat).map fun k => (byteAt s (start + BitVec.ofNat 64 k)).toNat)))

/-- R32: `allocated` is hidden: whatever the set of allocated pages is, a command gives the same answer and the same state but for
that set. -/
def Obligations.AllocationIsHidden : Prop :=
  ∀ (i : Instr) (s t : State) (pages : List Nat), exec i s = .next t →
    ∃ pages', exec i { s with allocated := pages } = .next { t with allocated := pages' }

/-! ## The register window (45_mmix_regwindow.md) -/

/-- R301: the logical read in its four cases: `$0`, a global, a local, a marginal; a read changes nothing. -/
def Obligations.GeneralRead : Prop :=
  ∀ (s : State) (i : BitVec 8), s.Live → HasOpcode (.grRead i) 0xA0 ∧
    Answers (.grRead i) s (result
      (if i.toNat = 0 then 0
       else if (rG s).toNat ≤ i.toNat then (slot s i.toNat).toNat
       else if i.toNat < (rL s).toNat then (slot s ((rO s).toNat / 8 + i.toNat)).toNat
       else 0))

/-- R302 without promotion: a write to `$0` changes nothing, a write to a global its fixed slot only, a write to a local its ring slot
only. -/
def Obligations.GeneralWriteInPlace : Prop :=
  ∀ (s : State) (v : Octa) (i : BitVec 8), s.Live → HasOpcode (.grWrite v i) 0xA1 ∧
    (i.toNat = 0 → Answers (.grWrite v i) s noResult) ∧
    (i.toNat ≠ 0 → (rG s).toNat ≤ i.toNat → exec (.grWrite v i) s = .next { s with general := slotSet s i.toNat v, resp := noResult }) ∧
    (i.toNat ≠ 0 → i.toNat < (rG s).toNat → i.toNat < (rL s).toNat →
      exec (.grWrite v i) s = .next { s with general := slotSet s ((rO s).toNat / 8 + i.toNat) v, resp := noResult })

/-- R302 with promotion: a write to a marginal `$i` ends with `L = i + 1`, the value in the ring slot of `$i`, every other slot and every
special register but `rL` and `rS` as it was, nothing outside the register file touched; `$i` then reads the value. -/
def Obligations.GeneralWritePromotes : Prop :=
  ∀ (s : State) (v : Octa) (i : BitVec 8), s.Live → i.toNat ≠ 0 → (rL s).toNat ≤ i.toNat → i.toNat < (rG s).toNat →
    ChangesRing (.grWrite v i) s noResult fun t =>
      (rL t).toNat = i.toNat + 1 ∧ t.general = slotSet s ((rO s).toNat / 8 + i.toNat) v ∧ OtherSpecialsKept s t ∧
      Answers (.grRead i) t (result v.toNat)

/-- R303, R304: how a promotion spills, from a state of legal geometry that satisfies the ring invariant: one register for each that would
be the 256th resident, oldest first, each copied from its slot to the next stack entry, `rS` 8 higher for each; the older entries stay.
Where `rO` is within 8 of `2^64` the model's wrap of `rS` (log 10) would show, so that case is left out. -/
def Obligations.PromotionSpills : Prop :=
  ∀ (s t : State) (v : Octa) (i : BitVec 8), s.Live → s.Geometry → s.RingInv → (rO s).toNat + 8 < 2 ^ 64 →
    i.toNat ≠ 0 → (rL s).toNat ≤ i.toNat → i.toNat < (rG s).toNat → exec (.grWrite v i) s = .next t →
    (rS t).toNat = (rS s).toNat + 8 * spillCount s i.toNat ∧
    (∀ k, (rS s).toNat / 8 ≤ k → k < (rS t).toNat / 8 → stackEntry t k = slot s k) ∧
    (∀ k, k < (rS s).toNat / 8 → stackEntry t k = stackEntry s k)

/-- R307: frame push: the old `L` returned, `rO` advanced by `8 * L` modulo `2^64`, `L` zero, nothing else changed. -/
def Obligations.FramePush : Prop :=
  ∀ s : State, s.Live → HasOpcode .pushf 0xA4 ∧
    exec .pushf s = .next { s with
      special := (s.special.set s.cfg.numRO.toNat (BitVec.ofNat 64 (((rO s).toNat + 8 * (rL s).toNat) % 2 ^ 64)) s.cfg.numRO.isLt).set
        s.cfg.numRL.toNat 0 s.cfg.numRL.isLt
      resp := result (rL s).toNat }

/-- R308, R306: frame pop under the ring invariant: `rO` back by `8 * size`, `L = size`, the registers of the frame that had been spilled back
in the slots they came from and off the stack, every other slot, stack entry and register unchanged. -/
def Obligations.FramePop : Prop :=
  ∀ (s : State) (size : BitVec 9), s.Live → s.Geometry → s.RingInv → size.toNat ≤ (rG s).toNat → 8 * size.toNat ≤ (rO s).toNat →
    HasOpcode (.popf size) 0xA5 ∧ ChangesRing (.popf size) s noResult fun t =>
      (rO t).toNat = (rO s).toNat - 8 * size.toNat ∧ (rL t).toNat = size.toNat ∧
      (rS t).toNat = min (rS s).toNat (rO t).toNat ∧
      (∀ n, n ≠ s.cfg.numRO → n ≠ s.cfg.numRL → n ≠ s.cfg.numRS → specialAt t n = specialAt s n) ∧
      (∀ k, (rS t).toNat / 8 ≤ k → k < (rS s).toNat / 8 → slot t k = stackEntry s k) ∧
      (∀ p : Fin 256, (∀ k, (rS t).toNat / 8 ≤ k → k < (rS s).toNat / 8 → k % 256 ≠ p.val) → t.general[p] = s.general[p]) ∧
      (∀ k < (rS t).toNat / 8, stackEntry t k = stackEntry s k)

/-- R308: when frame pop raises: `CV(Geometry)` for `size > G`, first; under the ring invariant `CV(StackUnderflow)` when more is popped than
was pushed; and where an out-of-band write left `rS` above a zero `rO` (R387), `CV(FrameUnderflow)`. -/
def Obligations.FramePopViolations : Prop :=
  ∀ (s : State) (size : BitVec 9), s.Live →
    ((rG s).toNat < size.toNat → Raises (.popf size) s .geometry) ∧
    (s.Geometry → s.RingInv → size.toNat ≤ (rG s).toNat → (rO s).toNat < 8 * size.toNat → Raises (.popf size) s .stackUnderflow) ∧
    (size.toNat ≤ (rG s).toNat → size.toNat ≠ 0 → (rO s).toNat = 0 → (rS s).toNat / 8 % 256 ≠ 0 →
      Raises (.popf size) s .frameUnderflow)

/-- R321: the round trip: after `PUSHF`, any writes to locals and marginals of the new frame and `POPF` of the size returned, `rO`, `rL` and every
local register of the caller are what they were. The spec claims it for `L` in `0 .. 255`; what it leaves unsaid is a premise here: the ring
invariant, no wrap of `rO`, and no write to a global (they share slots, R384) nor to `$255` as a local (R323). -/
def Obligations.FrameRoundTrip : Prop :=
  ∀ (s s1 s2 : State) (ws : List (BitVec 8 × Octa)), s.Live → s.Geometry → s.RingInv → (rL s).toNat ≤ 255 →
    (rO s).toNat + 8 * (rL s).toNat < 2 ^ 64 → (∀ w ∈ ws, w.1.toNat < (rG s).toNat ∧ w.1.toNat ≤ 254) →
    exec .pushf s = .next s1 → Writes ws s1 s2 →
    ∃ s3, exec (.popf (BitVec.ofNat 9 s1.resp.r0.toNat)) s2 = .next s3 ∧ s3.fatal = false ∧ rO s3 = rO s ∧ rL s3 = rL s ∧
      ∀ i < (rL s).toNat, slot s3 ((rO s3).toNat / 8 + i) = slot s ((rO s).toNat / 8 + i)

/-- R320: the ring invariant is kept by `GR.WRITE` below `$255`, by `PUSHF` without wrap, which keeps the resident count, and by `POPF` of a size
below 256, which ends with `max(r, size)` residents. -/
def Obligations.RingInvariantKept : Prop :=
  ∀ s t : State, s.Live → s.Geometry → s.RingInv →
    (∀ v i, i.toNat ≤ 254 → exec (.grWrite v i) s = .next t → t.RingInv) ∧
    ((rO s).toNat + 8 * (rL s).toNat < 2 ^ 64 → exec .pushf s = .next t → t.RingInv ∧ residentCount t = residentCount s) ∧
    (∀ size : BitVec 9, size.toNat ≤ 255 → exec (.popf size) s = .next t →
      t.RingInv ∧ (t.fatal = false →
        residentCount t = max (((rO s).toNat / 8 : Int) - ((rS s).toNat / 8 : Int)) (size.toNat : Int)))

/-- R309, R310, R315, R316: `SR.READ` answers the register; an `SR.WRITE` that would break `0 <= L <= G <= 256` or make `rO` or `rS` no multiple of 8
raises `CV(Geometry)` and writes nothing; any other to a register but `rS` stores all 64 bits there and changes nothing else. -/
def Obligations.SpecialReadWrite : Prop :=
  ∀ (s : State) (n : BitVec 5), s.Live →
    (HasOpcode (.srRead n) 0xA2 ∧ Answers (.srRead n) s (result (s.special[n.toNat]'n.isLt).toNat)) ∧
    ∀ v : Octa, HasOpcode (.srWrite v n) 0xA3 ∧
      (illegalWrite s n v → Raises (.srWrite v n) s .geometry) ∧
      (n ≠ s.cfg.numRS → ¬ illegalWrite s n v →
        exec (.srWrite v n) s = .next { s with special := s.special.set n.toNat v n.isLt, resp := noResult })

/-- R311: a legal write of `rS` resizes the spill stack to `v div 8` entries, truncating on shrink and zero-filling on growth; `γ` becomes
`v div 8` modulo 256; no slot changes. -/
def Obligations.StackPointerWrite : Prop :=
  ∀ (s : State) (v : Octa), s.Live → s.StorageWf → v.toNat % 8 = 0 →
    ∃ t, exec (.srWrite v s.cfg.numRS) s = .next t ∧
      t = { s with special := s.special.set s.cfg.numRS.toNat v s.cfg.numRS.isLt, memoryStack := t.memoryStack, resp := noResult } ∧
      stackLen t = v.toNat / 8 ∧ (gamma t).toNat = v.toNat / 8 % 256 ∧
      ∀ k, stackEntry t k = if k < v.toNat / 8 ∧ k < stackLen s then stackEntry s k else 0

/-! ## The block as a whole -/

/-- R341, R381: a command that raises a violation changes nothing but `fatal`, `cv_kind` and the response, whose results are zero; while `fatal` is
set every command on the port changes only the response, to zero results; reset clears `fatal` and `cv_kind`; a command that reports a
misaligned access or returns nil changes nothing but the response. `valid` on the response of a violation is left open here (log 9). -/
def Obligations.ViolationsAreAtomic : Prop :=
  (∀ (i : Instr) (s t : State), s.Live → exec i s = .next t →
    (t.fatal = true → (∃ valid, t = violated s t.cvKind valid) ∧ t.cvKind ≠ .none) ∧
    (t.fatal = false → (t.resp.err = .misaligned ∨ t.resp.valid = false) → t = { s with resp := t.resp })) ∧
  (∀ (s : State) (c : Command) (rest : List Input), s.fatal = true → s.inputs = .command c :: rest →
    ∃ valid, step s = .next { s with inputs := rest, resp := { Response.zero with valid := valid } }) ∧
  ∀ (s t : State) (rest : List Input), s.inputs = .reset :: rest → step s = .next t → t.fatal = false ∧ t.cvKind = .none

/-- R342: the codes of the violations, and which command can raise which: no command raises a kind the table does not give it; and
that the response of a violation, and of a command ignored while fatal, shows `valid` 1 (R103 as the model reads it beside R341, log 9). -/
def Obligations.ViolationTable : Prop :=
  ([CvKind.none, .fieldSpec, .magnitude, .byteIndex, .byteValue, .registerIndex, .operand, .opcode, .stackUnderflow, .geometry,
    .frameUnderflow].map fun k => (cvCode k).toNat) = List.range 11 ∧
  (∀ (i : Instr) (s t : State), s.Live → exec i s = .next t → t.fatal = true → t.cvKind ∈ raises i) ∧
  (∀ (i : Instr) (s t : State), exec i s = .next t → t.fatal = true → t.resp.valid = true) ∧
  ∀ s : State, s.Live → ∃ valid, rejectOpcode s = .next (violated s .opcode valid)

/-- R390, with the checks of R342: a command the operand checks reject always raises, at legal geometry; one they accept raises only where
the state or the quotient decides, that is `MX.DIV`, `SR.WRITE` and `POPF`. -/
def Obligations.OperandChecksSuffice : Prop :=
  ∀ (i : Instr) (s t : State), s.Live → s.Geometry → exec i s = .next t →
    (¬ i.WellFormed → t.fatal = true) ∧
    (i.WellFormed → t.fatal = true → (∃ hi lo d, i = .mxDiv hi lo d) ∨ (∃ v n, i = .srWrite v n) ∨ ∃ size, i = .popf size)

/-- R116: the decoder accepts exactly the opcodes that are not reserved, and a reserved opcode raises `CV(Opcode)` and changes
nothing else. -/
def Obligations.ReservedOpcodes : Prop :=
  (∀ c : Command, (∃ i, decode c = .ok i) ↔ ¬ reservedOp c.op.toNat) ∧
  ∀ (s : State) (c : Command) (rest : List Input), s.Live → s.inputs = .command c :: rest → reservedOp c.op.toNat →
    ∃ valid, step s = .next (violated { s with inputs := rest } .opcode valid)

/-- A step runs the decoded command: with the command taken off the inputs, it is `exec` of what the decoder reads from the port. -/
def Obligations.StepRunsDecoded : Prop :=
  ∀ (s : State) (c : Command) (rest : List Input) (i : Instr), s.inputs = .command c :: rest → decode c = .ok i →
    step s = exec i { s with inputs := rest }

/-- R370, R371: the reset input puts every piece of state at its reset value whatever the state was, the parameters kept; with no input
pending a step changes nothing (R349). That pending inputs outlive a reset and that the response
port is then zero, on which the spec is silent, is the model's choice (log 12, log 4). -/
def Obligations.ResetInput : Prop :=
  (∀ (s : State) (rest : List Input), s.inputs = .reset :: rest → step s = .next { State.resetWith s.cfg with inputs := rest }) ∧
  ∀ s : State, s.inputs = [] → step s = .next s

/-- R28, R30, R33, R43, R44: the values after reset, for every choice of the parameters. -/
def Obligations.ResetValues : Prop :=
  ∀ cfg : Config, let s := State.resetWith cfg
    s.cfg = cfg ∧ s.regA = ⟨false, 0⟩ ∧ s.regX = ⟨false, 0⟩ ∧ (∀ k : Fin 6, s.idx[k] = ⟨false, 0⟩) ∧ s.regJ = 0 ∧ s.ov = false ∧
    s.ci = .equal ∧ (∀ a, mixRead s a = ⟨false, 0⟩) ∧ s.allocated = [] ∧ (∀ a, byteAt s a = 0) ∧
    (∀ k, slot s k = 0) ∧ (∀ n, (specialAt s n).toNat = if n = cfg.numRG then cfg.gReset else 0) ∧
    alpha s = 0 ∧ beta s = 0 ∧ gamma s = 0 ∧ stackLen s = 0 ∧ s.fatal = false ∧ s.cvKind = .none

/-- R372: the invariants hold after reset, for every choice of the parameters. -/
def Obligations.ResetMeetsInvariants : Prop :=
  ∀ cfg : Config, (State.resetWith cfg).Inv ∧ (State.resetWith cfg).RingInv

/-- R39, R42, R44: every step keeps the invariant: the geometry `0 <= L <= G <= 256` with `rO` and `rS` multiples of 8, the canonical form of
every storage list with the spill stack below `rS div 8`, and `cv_kind` 0 exactly while `fatal` is 0. -/
def Obligations.StepKeepsInvariant : Prop := ∀ s t : State, s.Inv → step s = .next t → t.Inv

/-- Decode of encode: every instruction, at every operand value, is what the decoder reads from the ports the encoder drives. -/
def Obligations.DecodeEncode : Prop := ∀ i : Instr, decode (encode i) = .ok i

/-- A few commands written out from R104 and R101, opcode and ports, and what they decode to. -/
def Obligations.DecodeSamples : Prop :=
  decode ⟨0x00, 4, 5, 0, []⟩ = .ok (.fsEnc 4 5) ∧
  decode ⟨0x11, 0x01083105, 0x461C824A, 0, []⟩ = .ok (.mxAdd ⟨false, 17314053⟩ ⟨true, 102531658⟩) ∧
  decode ⟨0x29, 0x461C824A, 100, 37, []⟩ = .ok (.mmStore ⟨true, 102531658⟩ 100 37) ∧
  decode ⟨0x32, 4090, 1, 0, []⟩ = .ok (.mrEa 4090 1) ∧
  decode ⟨0x50, 0x7F, 0x01, 0, []⟩ = .ok (.addsoB 0x7F 0x01) ∧
  decode ⟨0x97, 0x0102030405060708, 0x1000, 0, []⟩ = .ok (.stO 0x0102030405060708 0x1000) ∧
  decode ⟨0xA1, 0xC8, 200, 0, []⟩ = .ok (.grWrite 0xC8 200)

/-- R240: a binary command of the integer unit uses the low `W = 8 * 2^sz` bits of its two ports, `sz` the low two bits of the opcode; the
upper bits are ignored. -/
def Obligations.UpperPortBitsIgnored : Prop :=
  ∀ (c : Command) (i : Instr) (W : Nat), 0x40 ≤ c.op.toNat → c.op.toNat ≤ 0x73 → W = 8 * 2 ^ (c.op.toNat % 4) → decode c = .ok i →
    decode { c with p0 := BitVec.ofNat 64 (c.p0.toNat % 2 ^ W), p1 := BitVec.ofNat 64 (c.p1.toNat % 2 ^ W) } = .ok i

/-- R10: the MIX half and the MMIX half are independent: a command of one half leaves the other's state alone, and its effect and its
answer do not depend on the other's state. -/
def Obligations.HalvesAreIndependent : Prop :=
  ∀ (i : Instr) (s s' t : State), exec i s = .next t →
    (i.isMix = true → MmixHalfEq s t ∧ (MixHalfEq s s' → BlockEq s s' →
      ∃ t', exec i s' = .next t' ∧ t'.resp = t.resp ∧ MixHalfEq t t' ∧ BlockEq t t' ∧ MmixHalfEq s' t')) ∧
    (i.isMix = false → MixHalfEq s t ∧ (MmixHalfEq s s' → BlockEq s s' →
      ∃ t', exec i s' = .next t' ∧ t'.resp = t.resp ∧ MmixHalfEq t t' ∧ BlockEq t t' ∧ MixHalfEq s' t'))

/-- R8, R34, R371: no step changes the parameters, and a command takes nothing but itself off the inputs. -/
def Obligations.ParametersFixed : Prop :=
  (∀ s t : State, step s = .next t → t.cfg = s.cfg ∧ t.inputs = s.inputs.tail) ∧
  ∀ (i : Instr) (s t : State), exec i s = .next t → t.cfg = s.cfg ∧ t.inputs = s.inputs
end

