-- ==== Sys2Proof/Laws/Sparse.lean ====
section
/-! SUPPORT. Sparse storage: reads after writes, and that every operation keeps the canonical form. -/

namespace Sys2Proof.Machine

variable {α : Type} {d : α}

theorem sparseRead_erase (d : α) (m : List (Nat × α)) (k j : Nat) :
    sparseRead d (sparseErase m k) j = if j = k then d else sparseRead d m j := by
  induction m with
  | nil => simp [sparseErase, sparseRead]
  | cons e m ih =>
    obtain ⟨i, v⟩ := e
    simp only [sparseErase, List.filter_cons] at ih ⊢
    by_cases hik : i = k
    · subst hik
      simp only [ne_eq, not_true_eq_false, decide_false, Bool.false_eq_true, if_false, ih, sparseRead]
      by_cases hj : j = i
      · simp [hj]
      · simp [hj, Ne.symm hj]
    · simp only [ne_eq, hik, not_false_eq_true, decide_true, if_true, sparseRead, ih]
      split <;> rename_i hij
      · subst hij; simp [hik]
      · rfl

theorem sparseRead_insert (d : α) (m : List (Nat × α)) (k j : Nat) (v : α) :
    sparseRead d (sparseInsert k v (sparseErase m k)) j = if j = k then v else sparseRead d m j := by
  have key : ∀ l : List (Nat × α), (∀ e ∈ l, e.1 ≠ k) →
      sparseRead d (sparseInsert k v l) j = if j = k then v else sparseRead d l j := by
    intro l hl
    induction l with
    | nil => simp [sparseInsert, sparseRead, eq_comm]
    | cons e l ih =>
      obtain ⟨i, w⟩ := e
      have hi : i ≠ k := hl (i, w) (by simp)
      simp only [sparseInsert]
      split
      · simp only [sparseRead]; by_cases h : k = j <;> simp [h, eq_comm]
      · simp only [sparseRead, ih (fun e he => hl e (List.mem_cons_of_mem _ he))]
        by_cases h : i = j
        · subst h; simp [hi]
        · simp [h]
  rw [key _ (by simp [sparseErase]), sparseRead_erase]
  split <;> rfl

/-- A read after a write: the value written at its key, the old value everywhere else. -/
theorem sparseRead_write [DecidableEq α] (d : α) (m : List (Nat × α)) (k j : Nat) (v : α) :
    sparseRead d (sparseWrite d m k v) j = if j = k then v else sparseRead d m j := by
  unfold sparseWrite
  split
  · rename_i h; subst h; exact sparseRead_erase _ m k j
  · exact sparseRead_insert d m k j v

@[simp] theorem sparseRead_nil (d : α) (k : Nat) : sparseRead d [] k = d := rfl

theorem sparseRead_take (d : α) (m : List (Nat × α)) (n k : Nat) :
    sparseRead d (sparseTake m n) k = if k < n then sparseRead d m k else d := by
  induction m with
  | nil => simp [sparseTake, sparseRead]
  | cons e m ih =>
    obtain ⟨i, v⟩ := e
    simp only [sparseTake, List.filter_cons] at ih ⊢
    by_cases hi : i < n
    · simp only [hi, decide_true, if_true, sparseRead, ih]
      by_cases h : i = k
      · subst h; simp [hi]
      · simp [h]
    · simp only [hi, decide_false, Bool.false_eq_true, if_false, ih, sparseRead]
      by_cases h : i = k
      · subst h; simp [hi]
      · simp [h]

theorem mem_sparseInsert {k : Nat} {v : α} {m : List (Nat × α)} {e : Nat × α} :
    e ∈ sparseInsert k v m ↔ e = (k, v) ∨ e ∈ m := by
  induction m with
  | nil => simp [sparseInsert]
  | cons f m ih =>
    obtain ⟨j, w⟩ := f
    simp only [sparseInsert]
    split
    · simp
    · simp only [List.mem_cons, ih]; tauto

/-- What a write leaves listed: the entry written, or an entry of another key. -/
theorem mem_sparseWrite [DecidableEq α] {m : List (Nat × α)} {k : Nat} {v : α} {e : Nat × α}
    (h : e ∈ sparseWrite d m k v) : (e = (k, v) ∧ v ≠ d) ∨ e ∈ m := by
  unfold sparseWrite at h
  split at h
  · exact .inr (List.mem_of_mem_filter h)
  · rename_i hv
    rcases mem_sparseInsert.1 h with h | h
    · exact .inl ⟨h, hv⟩
    · exact .inr (List.mem_of_mem_filter h)

theorem pairwise_sparseInsert {k : Nat} {v : α} {m : List (Nat × α)} (h : m.Pairwise (fun e f => e.1 < f.1))
    (hk : ∀ e ∈ m, e.1 ≠ k) : (sparseInsert k v m).Pairwise (fun e f => e.1 < f.1) := by
  induction m with
  | nil => simp [sparseInsert]
  | cons e m ih =>
    obtain ⟨j, w⟩ := e
    rw [List.pairwise_cons] at h
    simp only [sparseInsert]
    split
    · rename_i hlt
      refine List.pairwise_cons.2 ⟨?_, List.pairwise_cons.2 h⟩
      intro f hf
      rcases List.mem_cons.1 hf with rfl | hf
      · exact hlt
      · exact lt_trans hlt (h.1 f hf)
    · rename_i hge
      have hjk : j ≠ k := hk (j, w) (by simp)
      refine List.pairwise_cons.2 ⟨?_, ih h.2 (fun e he => hk e (List.mem_cons_of_mem _ he))⟩
      intro f hf
      rcases mem_sparseInsert.1 hf with rfl | hf
      · exact lt_of_le_of_ne (not_lt.1 hge) hjk
      · exact h.1 f hf

/-- Every write keeps the canonical form. -/
theorem sparseWrite_wf [DecidableEq α] {m : List (Nat × α)} (h : SparseWf d m) (k : Nat) (v : α) :
    SparseWf d (sparseWrite d m k v) := by
  refine ⟨?_, ?_⟩
  · unfold sparseWrite
    split
    · exact h.1.filter _
    · exact pairwise_sparseInsert (h.1.filter _) (by simp [sparseErase])
  · intro e he
    rcases mem_sparseWrite he with ⟨rfl, hv⟩ | he
    · exact hv
    · exact h.2 e he

/-- Truncation keeps the canonical form. -/
theorem sparseTake_wf {m : List (Nat × α)} (h : SparseWf d m) (n : Nat) : SparseWf d (sparseTake m n) :=
  ⟨h.1.filter _, fun e he => h.2 e (List.mem_of_mem_filter he)⟩

theorem mem_sparseTake {m : List (Nat × α)} {n : Nat} {e : Nat × α} : e ∈ sparseTake m n ↔ e ∈ m ∧ e.1 < n := by
  simp [sparseTake]

theorem sparseWf_nil (d : α) : SparseWf d ([] : List (Nat × α)) := ⟨List.Pairwise.nil, by simp⟩

/-- A canonical list lists exactly the keys whose value is not the default. -/
theorem mem_iff_sparseRead {m : List (Nat × α)} (h : SparseWf d m) (k : Nat) (v : α) :
    (k, v) ∈ m ↔ sparseRead d m k = v ∧ v ≠ d := by
  induction m with
  | nil => simp [sparseRead, eq_comm]
  | cons e m ih =>
    obtain ⟨j, w⟩ := e
    have hp := List.pairwise_cons.1 h.1
    have hm : SparseWf d m := ⟨hp.2, fun e he => h.2 e (List.mem_cons_of_mem _ he)⟩
    have hw : w ≠ d := h.2 (j, w) (by simp)
    simp only [List.mem_cons, Prod.mk.injEq, sparseRead]
    by_cases hj : j = k
    · subst hj
      have : (j, v) ∉ m := fun hmem => lt_irrefl j (hp.1 (j, v) hmem)
      simp only [this, or_false, if_true, true_and]
      constructor
      · rintro rfl; exact ⟨rfl, hw⟩
      · rintro ⟨rfl, -⟩; rfl
    · simp only [hj, if_false, ← ih hm, or_iff_right_iff_imp]
      rintro ⟨rfl, -⟩; exact absurd rfl hj

/-- Equal memories are equal lists: two canonical lists that read alike are the same. -/
theorem sparse_ext {m n : List (Nat × α)} (hm : SparseWf d m) (hn : SparseWf d n)
    (h : ∀ k, sparseRead d m k = sparseRead d n k) : m = n := by
  have hmem : ∀ e, e ∈ m ↔ e ∈ n := by
    rintro ⟨k, v⟩
    rw [mem_iff_sparseRead hm, mem_iff_sparseRead hn, h k]
  have nd : ∀ {l : List (Nat × α)}, l.Pairwise (fun e f => e.1 < f.1) → l.Nodup :=
    fun hl => hl.imp (fun {a b} hab heq => by subst heq; exact lt_irrefl _ hab)
  exact ((List.perm_ext_iff_of_nodup (nd hm.1) (nd hn.1)).2 hmem).eq_of_pairwise
    (fun a b _ _ hab hba => absurd hab (not_lt.2 hba.le)) hm.1 hn.1

theorem mem_insertPage {b p : Nat} {ps : List Nat} : p ∈ insertPage b ps ↔ p = b ∨ p ∈ ps := by
  induction ps with
  | nil => simp [insertPage]
  | cons q ps ih =>
    simp only [insertPage]
    split
    · simp
    · split
      · rename_i h; subst h; simp
      · simp only [List.mem_cons, ih]; tauto

/-- Allocating a page keeps the bases rising. -/
theorem pairwise_insertPage {b : Nat} {ps : List Nat} (h : ps.Pairwise (· < ·)) : (insertPage b ps).Pairwise (· < ·) := by
  induction ps with
  | nil => simp [insertPage]
  | cons q ps ih =>
    have hp := List.pairwise_cons.1 h
    simp only [insertPage]
    split
    · rename_i hlt
      refine List.pairwise_cons.2 ⟨?_, h⟩
      intro r hr
      rcases List.mem_cons.1 hr with rfl | hr
      · exact hlt
      · exact lt_trans hlt (hp.1 r hr)
    · split
      · exact h
      · rename_i h1 h2
        refine List.pairwise_cons.2 ⟨?_, ih hp.2⟩
        intro r hr
        rcases mem_insertPage.1 hr with rfl | hr
        · omega
        · exact hp.1 r hr

end Sys2Proof.Machine
end

