-- ==== Sys2Proof/Laws/State.lean ====
section
/-! SUPPORT. One lemma per field per named update of the state, so that no later proof unfolds a record update; and the
loops over these updates as updates of the fields they can touch. -/

namespace Sys2Proof.Machine

variable (s : State)

@[simp] theorem raiseCV_cfg (k : CvKind) : (raiseCV k s).cfg = s.cfg := rfl
@[simp] theorem raiseCV_regA (k : CvKind) : (raiseCV k s).regA = s.regA := rfl
@[simp] theorem raiseCV_regX (k : CvKind) : (raiseCV k s).regX = s.regX := rfl
@[simp] theorem raiseCV_idx (k : CvKind) : (raiseCV k s).idx = s.idx := rfl
@[simp] theorem raiseCV_regJ (k : CvKind) : (raiseCV k s).regJ = s.regJ := rfl
@[simp] theorem raiseCV_ov (k : CvKind) : (raiseCV k s).ov = s.ov := rfl
@[simp] theorem raiseCV_ci (k : CvKind) : (raiseCV k s).ci = s.ci := rfl
@[simp] theorem raiseCV_mixmem (k : CvKind) : (raiseCV k s).mixmem = s.mixmem := rfl
@[simp] theorem raiseCV_mmixmem (k : CvKind) : (raiseCV k s).mmixmem = s.mmixmem := rfl
@[simp] theorem raiseCV_allocated (k : CvKind) : (raiseCV k s).allocated = s.allocated := rfl
@[simp] theorem raiseCV_general (k : CvKind) : (raiseCV k s).general = s.general := rfl
@[simp] theorem raiseCV_special (k : CvKind) : (raiseCV k s).special = s.special := rfl
@[simp] theorem raiseCV_memoryStack (k : CvKind) : (raiseCV k s).memoryStack = s.memoryStack := rfl
@[simp] theorem raiseCV_fatal (k : CvKind) : (raiseCV k s).fatal = true := rfl
@[simp] theorem raiseCV_cvKind (k : CvKind) : (raiseCV k s).cvKind = k := rfl
@[simp] theorem raiseCV_resp (k : CvKind) : (raiseCV k s).resp = answer0 := rfl
@[simp] theorem raiseCV_inputs (k : CvKind) : (raiseCV k s).inputs = s.inputs := rfl

@[simp] theorem mixWrite_cfg (a : Nat) (w : MixWord) : (mixWrite s a w).cfg = s.cfg := rfl
@[simp] theorem mixWrite_regA (a : Nat) (w : MixWord) : (mixWrite s a w).regA = s.regA := rfl
@[simp] theorem mixWrite_regX (a : Nat) (w : MixWord) : (mixWrite s a w).regX = s.regX := rfl
@[simp] theorem mixWrite_idx (a : Nat) (w : MixWord) : (mixWrite s a w).idx = s.idx := rfl
@[simp] theorem mixWrite_regJ (a : Nat) (w : MixWord) : (mixWrite s a w).regJ = s.regJ := rfl
@[simp] theorem mixWrite_ov (a : Nat) (w : MixWord) : (mixWrite s a w).ov = s.ov := rfl
@[simp] theorem mixWrite_ci (a : Nat) (w : MixWord) : (mixWrite s a w).ci = s.ci := rfl
@[simp] theorem mixWrite_mixmem (a : Nat) (w : MixWord) : (mixWrite s a w).mixmem = sparseWrite MixWord.plusZero s.mixmem (a % s.cfg.mixMemSize) w := rfl
@[simp] theorem mixWrite_mmixmem (a : Nat) (w : MixWord) : (mixWrite s a w).mmixmem = s.mmixmem := rfl
@[simp] theorem mixWrite_allocated (a : Nat) (w : MixWord) : (mixWrite s a w).allocated = s.allocated := rfl
@[simp] theorem mixWrite_general (a : Nat) (w : MixWord) : (mixWrite s a w).general = s.general := rfl
@[simp] theorem mixWrite_special (a : Nat) (w : MixWord) : (mixWrite s a w).special = s.special := rfl
@[simp] theorem mixWrite_memoryStack (a : Nat) (w : MixWord) : (mixWrite s a w).memoryStack = s.memoryStack := rfl
@[simp] theorem mixWrite_fatal (a : Nat) (w : MixWord) : (mixWrite s a w).fatal = s.fatal := rfl
@[simp] theorem mixWrite_cvKind (a : Nat) (w : MixWord) : (mixWrite s a w).cvKind = s.cvKind := rfl
@[simp] theorem mixWrite_resp (a : Nat) (w : MixWord) : (mixWrite s a w).resp = s.resp := rfl
@[simp] theorem mixWrite_inputs (a : Nat) (w : MixWord) : (mixWrite s a w).inputs = s.inputs := rfl

@[simp] theorem mixClear_cfg : (mixClear s).cfg = s.cfg := rfl
@[simp] theorem mixClear_regA : (mixClear s).regA = s.regA := rfl
@[simp] theorem mixClear_regX : (mixClear s).regX = s.regX := rfl
@[simp] theorem mixClear_idx : (mixClear s).idx = s.idx := rfl
@[simp] theorem mixClear_regJ : (mixClear s).regJ = s.regJ := rfl
@[simp] theorem mixClear_ov : (mixClear s).ov = s.ov := rfl
@[simp] theorem mixClear_ci : (mixClear s).ci = s.ci := rfl
@[simp] theorem mixClear_mixmem : (mixClear s).mixmem = [] := rfl
@[simp] theorem mixClear_mmixmem : (mixClear s).mmixmem = s.mmixmem := rfl
@[simp] theorem mixClear_allocated : (mixClear s).allocated = s.allocated := rfl
@[simp] theorem mixClear_general : (mixClear s).general = s.general := rfl
@[simp] theorem mixClear_special : (mixClear s).special = s.special := rfl
@[simp] theorem mixClear_memoryStack : (mixClear s).memoryStack = s.memoryStack := rfl
@[simp] theorem mixClear_fatal : (mixClear s).fatal = s.fatal := rfl
@[simp] theorem mixClear_cvKind : (mixClear s).cvKind = s.cvKind := rfl
@[simp] theorem mixClear_resp : (mixClear s).resp = s.resp := rfl
@[simp] theorem mixClear_inputs : (mixClear s).inputs = s.inputs := rfl

@[simp] theorem setByte_cfg (a : Octa) (b : Byte) : (setByte s a b).cfg = s.cfg := rfl
@[simp] theorem setByte_regA (a : Octa) (b : Byte) : (setByte s a b).regA = s.regA := rfl
@[simp] theorem setByte_regX (a : Octa) (b : Byte) : (setByte s a b).regX = s.regX := rfl
@[simp] theorem setByte_idx (a : Octa) (b : Byte) : (setByte s a b).idx = s.idx := rfl
@[simp] theorem setByte_regJ (a : Octa) (b : Byte) : (setByte s a b).regJ = s.regJ := rfl
@[simp] theorem setByte_ov (a : Octa) (b : Byte) : (setByte s a b).ov = s.ov := rfl
@[simp] theorem setByte_ci (a : Octa) (b : Byte) : (setByte s a b).ci = s.ci := rfl
@[simp] theorem setByte_mixmem (a : Octa) (b : Byte) : (setByte s a b).mixmem = s.mixmem := rfl
@[simp] theorem setByte_mmixmem (a : Octa) (b : Byte) : (setByte s a b).mmixmem = sparseWrite 0 s.mmixmem a.toNat b := rfl
@[simp] theorem setByte_allocated (a : Octa) (b : Byte) : (setByte s a b).allocated = insertPage (pageBase a) s.allocated := rfl
@[simp] theorem setByte_general (a : Octa) (b : Byte) : (setByte s a b).general = s.general := rfl
@[simp] theorem setByte_special (a : Octa) (b : Byte) : (setByte s a b).special = s.special := rfl
@[simp] theorem setByte_memoryStack (a : Octa) (b : Byte) : (setByte s a b).memoryStack = s.memoryStack := rfl
@[simp] theorem setByte_fatal (a : Octa) (b : Byte) : (setByte s a b).fatal = s.fatal := rfl
@[simp] theorem setByte_cvKind (a : Octa) (b : Byte) : (setByte s a b).cvKind = s.cvKind := rfl
@[simp] theorem setByte_resp (a : Octa) (b : Byte) : (setByte s a b).resp = s.resp := rfl
@[simp] theorem setByte_inputs (a : Octa) (b : Byte) : (setByte s a b).inputs = s.inputs := rfl

@[simp] theorem setGeneral_cfg (p : BitVec 8) (v : Octa) : (setGeneral s p v).cfg = s.cfg := rfl
@[simp] theorem setGeneral_regA (p : BitVec 8) (v : Octa) : (setGeneral s p v).regA = s.regA := rfl
@[simp] theorem setGeneral_regX (p : BitVec 8) (v : Octa) : (setGeneral s p v).regX = s.regX := rfl
@[simp] theorem setGeneral_idx (p : BitVec 8) (v : Octa) : (setGeneral s p v).idx = s.idx := rfl
@[simp] theorem setGeneral_regJ (p : BitVec 8) (v : Octa) : (setGeneral s p v).regJ = s.regJ := rfl
@[simp] theorem setGeneral_ov (p : BitVec 8) (v : Octa) : (setGeneral s p v).ov = s.ov := rfl
@[simp] theorem setGeneral_ci (p : BitVec 8) (v : Octa) : (setGeneral s p v).ci = s.ci := rfl
@[simp] theorem setGeneral_mixmem (p : BitVec 8) (v : Octa) : (setGeneral s p v).mixmem = s.mixmem := rfl
@[simp] theorem setGeneral_mmixmem (p : BitVec 8) (v : Octa) : (setGeneral s p v).mmixmem = s.mmixmem := rfl
@[simp] theorem setGeneral_allocated (p : BitVec 8) (v : Octa) : (setGeneral s p v).allocated = s.allocated := rfl
@[simp] theorem setGeneral_general (p : BitVec 8) (v : Octa) : (setGeneral s p v).general = s.general.set p.toNat v p.isLt := rfl
@[simp] theorem setGeneral_special (p : BitVec 8) (v : Octa) : (setGeneral s p v).special = s.special := rfl
@[simp] theorem setGeneral_memoryStack (p : BitVec 8) (v : Octa) : (setGeneral s p v).memoryStack = s.memoryStack := rfl
@[simp] theorem setGeneral_fatal (p : BitVec 8) (v : Octa) : (setGeneral s p v).fatal = s.fatal := rfl
@[simp] theorem setGeneral_cvKind (p : BitVec 8) (v : Octa) : (setGeneral s p v).cvKind = s.cvKind := rfl
@[simp] theorem setGeneral_resp (p : BitVec 8) (v : Octa) : (setGeneral s p v).resp = s.resp := rfl
@[simp] theorem setGeneral_inputs (p : BitVec 8) (v : Octa) : (setGeneral s p v).inputs = s.inputs := rfl

@[simp] theorem setSpecial_cfg (n : BitVec 5) (v : Octa) : (setSpecial s n v).cfg = s.cfg := rfl
@[simp] theorem setSpecial_regA (n : BitVec 5) (v : Octa) : (setSpecial s n v).regA = s.regA := rfl
@[simp] theorem setSpecial_regX (n : BitVec 5) (v : Octa) : (setSpecial s n v).regX = s.regX := rfl
@[simp] theorem setSpecial_idx (n : BitVec 5) (v : Octa) : (setSpecial s n v).idx = s.idx := rfl
@[simp] theorem setSpecial_regJ (n : BitVec 5) (v : Octa) : (setSpecial s n v).regJ = s.regJ := rfl
@[simp] theorem setSpecial_ov (n : BitVec 5) (v : Octa) : (setSpecial s n v).ov = s.ov := rfl
@[simp] theorem setSpecial_ci (n : BitVec 5) (v : Octa) : (setSpecial s n v).ci = s.ci := rfl
@[simp] theorem setSpecial_mixmem (n : BitVec 5) (v : Octa) : (setSpecial s n v).mixmem = s.mixmem := rfl
@[simp] theorem setSpecial_mmixmem (n : BitVec 5) (v : Octa) : (setSpecial s n v).mmixmem = s.mmixmem := rfl
@[simp] theorem setSpecial_allocated (n : BitVec 5) (v : Octa) : (setSpecial s n v).allocated = s.allocated := rfl
@[simp] theorem setSpecial_general (n : BitVec 5) (v : Octa) : (setSpecial s n v).general = s.general := rfl
@[simp] theorem setSpecial_special (n : BitVec 5) (v : Octa) : (setSpecial s n v).special = s.special.set n.toNat v n.isLt := rfl
@[simp] theorem setSpecial_memoryStack (n : BitVec 5) (v : Octa) : (setSpecial s n v).memoryStack = s.memoryStack := rfl
@[simp] theorem setSpecial_fatal (n : BitVec 5) (v : Octa) : (setSpecial s n v).fatal = s.fatal := rfl
@[simp] theorem setSpecial_cvKind (n : BitVec 5) (v : Octa) : (setSpecial s n v).cvKind = s.cvKind := rfl
@[simp] theorem setSpecial_resp (n : BitVec 5) (v : Octa) : (setSpecial s n v).resp = s.resp := rfl
@[simp] theorem setSpecial_inputs (n : BitVec 5) (v : Octa) : (setSpecial s n v).inputs = s.inputs := rfl

@[simp] theorem setRS_cfg (v : Octa) : (setRS s v).cfg = s.cfg := rfl
@[simp] theorem setRS_regA (v : Octa) : (setRS s v).regA = s.regA := rfl
@[simp] theorem setRS_regX (v : Octa) : (setRS s v).regX = s.regX := rfl
@[simp] theorem setRS_idx (v : Octa) : (setRS s v).idx = s.idx := rfl
@[simp] theorem setRS_regJ (v : Octa) : (setRS s v).regJ = s.regJ := rfl
@[simp] theorem setRS_ov (v : Octa) : (setRS s v).ov = s.ov := rfl
@[simp] theorem setRS_ci (v : Octa) : (setRS s v).ci = s.ci := rfl
@[simp] theorem setRS_mixmem (v : Octa) : (setRS s v).mixmem = s.mixmem := rfl
@[simp] theorem setRS_mmixmem (v : Octa) : (setRS s v).mmixmem = s.mmixmem := rfl
@[simp] theorem setRS_allocated (v : Octa) : (setRS s v).allocated = s.allocated := rfl
@[simp] theorem setRS_general (v : Octa) : (setRS s v).general = s.general := rfl
@[simp] theorem setRS_special (v : Octa) : (setRS s v).special = s.special.set s.cfg.numRS.toNat v s.cfg.numRS.isLt := rfl
@[simp] theorem setRS_memoryStack (v : Octa) : (setRS s v).memoryStack = sparseTake s.memoryStack (v.toNat / 8) := rfl
@[simp] theorem setRS_fatal (v : Octa) : (setRS s v).fatal = s.fatal := rfl
@[simp] theorem setRS_cvKind (v : Octa) : (setRS s v).cvKind = s.cvKind := rfl
@[simp] theorem setRS_resp (v : Octa) : (setRS s v).resp = s.resp := rfl
@[simp] theorem setRS_inputs (v : Octa) : (setRS s v).inputs = s.inputs := rfl

@[simp] theorem applyReset_cfg : (applyReset s).cfg = s.cfg := rfl
@[simp] theorem applyReset_regA : (applyReset s).regA = (State.resetWith s.cfg).regA := rfl
@[simp] theorem applyReset_regX : (applyReset s).regX = (State.resetWith s.cfg).regX := rfl
@[simp] theorem applyReset_idx : (applyReset s).idx = (State.resetWith s.cfg).idx := rfl
@[simp] theorem applyReset_regJ : (applyReset s).regJ = (State.resetWith s.cfg).regJ := rfl
@[simp] theorem applyReset_ov : (applyReset s).ov = (State.resetWith s.cfg).ov := rfl
@[simp] theorem applyReset_ci : (applyReset s).ci = (State.resetWith s.cfg).ci := rfl
@[simp] theorem applyReset_mixmem : (applyReset s).mixmem = (State.resetWith s.cfg).mixmem := rfl
@[simp] theorem applyReset_mmixmem : (applyReset s).mmixmem = (State.resetWith s.cfg).mmixmem := rfl
@[simp] theorem applyReset_allocated : (applyReset s).allocated = (State.resetWith s.cfg).allocated := rfl
@[simp] theorem applyReset_general : (applyReset s).general = (State.resetWith s.cfg).general := rfl
@[simp] theorem applyReset_special : (applyReset s).special = (State.resetWith s.cfg).special := rfl
@[simp] theorem applyReset_memoryStack : (applyReset s).memoryStack = (State.resetWith s.cfg).memoryStack := rfl
@[simp] theorem applyReset_fatal : (applyReset s).fatal = (State.resetWith s.cfg).fatal := rfl
@[simp] theorem applyReset_cvKind : (applyReset s).cvKind = (State.resetWith s.cfg).cvKind := rfl
@[simp] theorem applyReset_resp : (applyReset s).resp = (State.resetWith s.cfg).resp := rfl
@[simp] theorem applyReset_inputs : (applyReset s).inputs = s.inputs := rfl

/-- A byte sequence touches the bytes and the page set only. -/
theorem storeBytes_frame (bs : List Byte) (s : State) (a : Octa) :
    storeBytes s a bs = { s with mmixmem := (storeBytes s a bs).mmixmem, allocated := (storeBytes s a bs).allocated } := by
  induction bs generalizing s a with
  | nil => rfl
  | cons b bs ih => rw [storeBytes, ih]; rfl

/-- A word sequence touches MIX memory only. -/
theorem mixWriteSeq_frame (ws : List MixWord) (s : State) (a : Nat) :
    mixWriteSeq s a ws = { s with mixmem := (mixWriteSeq s a ws).mixmem } := by
  induction ws generalizing s a with
  | nil => rfl
  | cons w ws ih => rw [mixWriteSeq, ih]; rfl

/-- A spill touches the special registers and the spill stack only. -/
theorem spill_frame : spill s = { s with special := (spill s).special, memoryStack := (spill s).memoryStack } := rfl

/-- A growth step touches the special registers and the spill stack only. -/
theorem growStep_frame : growStep s = { s with special := (growStep s).special, memoryStack := (growStep s).memoryStack } := by
  unfold growStep; dsimp only; split <;> rfl

/-- Growth touches the special registers and the spill stack only. -/
theorem growBy_frame (n : Nat) (s : State) :
    growBy n s = { s with special := (growBy n s).special, memoryStack := (growBy n s).memoryStack } := by
  induction n generalizing s with
  | zero => rfl
  | succ n ih => rw [growBy, ih, growStep_frame]

/-- A fill, if it succeeds, touches the window's storage only. -/
theorem fill_frame {s t : State} (h : fill s = .ok t) :
    t = { s with general := t.general, special := t.special, memoryStack := t.memoryStack } := by
  unfold fill at h; split at h <;> simp only [reduceCtorEq, Except.ok.injEq] at h
  subst h; rfl

/-- A pop step, if it succeeds, touches the window's storage only. -/
theorem popStep_frame {s t : State} (h : popStep s = .ok t) :
    t = { s with general := t.general, special := t.special, memoryStack := t.memoryStack } := by
  unfold popStep at h
  split at h
  · simp at h
  · rename_i u hu
    split at h
    · simp at h
    · simp only [Except.ok.injEq] at h
      subst h
      split at hu
      · have := fill_frame hu; rw [this]; rfl
      · simp only [Except.ok.injEq] at hu; subst hu; rfl

/-- Pop steps, if they succeed, touch the window's storage only. -/
theorem popSteps_frame (n : Nat) {s t : State} (h : popSteps n s = .ok t) :
    t = { s with general := t.general, special := t.special, memoryStack := t.memoryStack } := by
  induction n generalizing s with
  | zero => simp only [popSteps, Except.ok.injEq] at h; subst h; rfl
  | succ n ih =>
    rw [popSteps] at h
    split at h
    · simp at h
    · rename_i u hu
      rw [ih h, popStep_frame hu]

/-- A frame pop, if it succeeds, touches the window's storage only. -/
theorem popFrame_frame {s t : State} {size : BitVec 9} (h : popFrame s size = .ok t) :
    t = { s with general := t.general, special := t.special, memoryStack := t.memoryStack } := by
  unfold popFrame at h
  split at h
  · simp at h
  · split at h
    · simp at h
    · rename_i u hu
      simp only [Except.ok.injEq] at h
      subst h
      have := popSteps_frame _ hu
      rw [this]; rfl

/-- The logical write touches the window's storage only. -/
theorem generalWrite_frame (r : BitVec 8) (v : Octa) :
    generalWrite s r v = { s with
      general := (generalWrite s r v).general, special := (generalWrite s r v).special,
      memoryStack := (generalWrite s r v).memoryStack } := by
  unfold generalWrite
  split
  · rfl
  · split
    · rfl
    · split
      · rfl
      · dsimp only; rw [growBy_frame]; rfl

/-- The special write touches the special registers and the spill stack only. -/
theorem specialWrite_frame (n : BitVec 5) (v : Octa) :
    specialWrite s n v = { s with special := (specialWrite s n v).special, memoryStack := (specialWrite s n v).memoryStack } := by
  unfold specialWrite; split <;> rfl

/-- A MIX register write touches the MIX registers only. -/
theorem mixRegWrite_frame (v : MixWord) (r : MixReg) :
    mixRegWrite s v r = { s with
      regA := (mixRegWrite s v r).regA, regX := (mixRegWrite s v r).regX,
      idx := (mixRegWrite s v r).idx, regJ := (mixRegWrite s v r).regJ } := by
  cases r <;> rfl

end Sys2Proof.Machine
end

