-- ==== Sys2Proof/Laws/Window.lean ====
section
/-! SUPPORT. The register file and the window: what each update does to a slot, a special register, a threshold and the spill
stack, and the spill and fill steps in full. -/

namespace Sys2Proof.Machine

variable (s : State)

theorem generalAt_setGeneral (p q : BitVec 8) (v : Octa) :
    generalAt (setGeneral s p v) q = if q = p then v else generalAt s q := by
  simp only [generalAt, setGeneral, Vector.getElem_set, BitVec.toNat_inj, eq_comm]

theorem specialAt_setSpecial (n m : BitVec 5) (v : Octa) :
    specialAt (setSpecial s n v) m = if m = n then v else specialAt s m := by
  simp only [specialAt, setSpecial, Vector.getElem_set, BitVec.toNat_inj, eq_comm]

theorem specialAt_setRS (n : BitVec 5) (v : Octa) :
    specialAt (setRS s v) n = if n = s.cfg.numRS then v else specialAt s n := specialAt_setSpecial s _ n v

@[simp] theorem generalAt_setSpecial (n : BitVec 5) (v : Octa) (p : BitVec 8) :
    generalAt (setSpecial s n v) p = generalAt s p := rfl

@[simp] theorem generalAt_setRS (v : Octa) (p : BitVec 8) : generalAt (setRS s v) p = generalAt s p := rfl

@[simp] theorem specialAt_setGeneral (p : BitVec 8) (v : Octa) (n : BitVec 5) :
    specialAt (setGeneral s p v) n = specialAt s n := rfl

@[simp] theorem rO_setGeneral (p : BitVec 8) (v : Octa) : rO (setGeneral s p v) = rO s := rfl
@[simp] theorem rS_setGeneral (p : BitVec 8) (v : Octa) : rS (setGeneral s p v) = rS s := rfl
@[simp] theorem rL_setGeneral (p : BitVec 8) (v : Octa) : rL (setGeneral s p v) = rL s := rfl
@[simp] theorem rG_setGeneral (p : BitVec 8) (v : Octa) : rG (setGeneral s p v) = rG s := rfl
@[simp] theorem thresholdL_setGeneral (p : BitVec 8) (v : Octa) : thresholdL (setGeneral s p v) = thresholdL s := rfl
@[simp] theorem thresholdG_setGeneral (p : BitVec 8) (v : Octa) : thresholdG (setGeneral s p v) = thresholdG s := rfl

/-! Writing one of the four geometry registers changes that one only (the numbers are distinct, R7). -/

@[simp] theorem rO_setRO (v : Octa) : rO (setSpecial s s.cfg.numRO v) = v := by simp [rO, specialAt_setSpecial]
@[simp] theorem rS_setRO (v : Octa) : rS (setSpecial s s.cfg.numRO v) = rS s := by
  simp [rS, specialAt_setSpecial, s.cfg.distinct.1.symm]
@[simp] theorem rL_setRO (v : Octa) : rL (setSpecial s s.cfg.numRO v) = rL s := by
  simp [rL, specialAt_setSpecial, s.cfg.distinct.2.1.symm]
@[simp] theorem rG_setRO (v : Octa) : rG (setSpecial s s.cfg.numRO v) = rG s := by
  simp [rG, specialAt_setSpecial, s.cfg.distinct.2.2.1.symm]

@[simp] theorem rL_setRL (v : Octa) : rL (setSpecial s s.cfg.numRL v) = v := by simp [rL, specialAt_setSpecial]
@[simp] theorem rO_setRL (v : Octa) : rO (setSpecial s s.cfg.numRL v) = rO s := by
  simp [rO, specialAt_setSpecial, s.cfg.distinct.2.1]
@[simp] theorem rS_setRL (v : Octa) : rS (setSpecial s s.cfg.numRL v) = rS s := by
  simp [rS, specialAt_setSpecial, s.cfg.distinct.2.2.2.1]
@[simp] theorem rG_setRL (v : Octa) : rG (setSpecial s s.cfg.numRL v) = rG s := by
  simp [rG, specialAt_setSpecial, s.cfg.distinct.2.2.2.2.2.symm]

@[simp] theorem rS_setRS (v : Octa) : rS (setRS s v) = v := by simp [rS, specialAt_setRS]
@[simp] theorem rO_setRS (v : Octa) : rO (setRS s v) = rO s := by simp [rO, specialAt_setRS, s.cfg.distinct.1]
@[simp] theorem rL_setRS (v : Octa) : rL (setRS s v) = rL s := by
  simp [rL, specialAt_setRS, s.cfg.distinct.2.2.2.1.symm]
@[simp] theorem rG_setRS (v : Octa) : rG (setRS s v) = rG s := by
  simp [rG, specialAt_setRS, s.cfg.distinct.2.2.2.2.1.symm]

/-! ### The spill stack -/

theorem stackEntry_setRS (v : Octa) (k : Nat) :
    stackEntry (setRS s v) k = if k < v.toNat / 8 then stackEntry s k else 0 := by
  simp [stackEntry, setRS, sparseRead_take]

@[simp] theorem stackLen_setRS (v : Octa) : stackLen (setRS s v) = v.toNat / 8 := by simp [stackLen]

/-- A spill in full: `rS` 8 higher, `general[γ]` the new top entry, every older entry kept, `rO`, `L`, `G` and every slot
unchanged (R304). -/
theorem spill_spec (h : (rS s).toNat + 8 < 2 ^ 64) :
    (rS (spill s)).toNat = (rS s).toNat + 8 ∧ rO (spill s) = rO s ∧ rL (spill s) = rL s ∧ rG (spill s) = rG s ∧
    (∀ p, generalAt (spill s) p = generalAt s p) ∧
    stackEntry (spill s) (stackLen s) = generalAt s (gamma s) ∧
    ∀ k < stackLen s, stackEntry (spill s) k = stackEntry s k := by
  have hadd : (rS s + 8).toNat = (rS s).toNat + 8 := by
    rw [BitVec.toNat_add]; exact Nat.mod_eq_of_lt h
  have hlen : (rS s + 8).toNat / 8 = stackLen s + 1 := by rw [hadd, stackLen]; omega
  have hrS : rS (spill s) = rS s + 8 := rS_setRS _ _
  have hent : ∀ k < stackLen s + 1, stackEntry (spill s) k = if k = stackLen s then generalAt s (gamma s) else stackEntry s k := by
    intro k hk
    have := stackEntry_setRS { s with memoryStack := sparseWrite 0 s.memoryStack (stackLen s) (generalAt s (gamma s)) } (rS s + 8) k
    rw [hlen, if_pos hk] at this
    rw [spill, this, stackEntry, sparseRead_write]; rfl
  refine ⟨by rw [hrS, hadd], rO_setRS _ _, rL_setRS _ _, rG_setRS _ _, fun p => rfl, ?_, fun k hk => ?_⟩
  · rw [hent _ (by omega), if_pos rfl]
  · rw [hent k (by omega), if_neg (by omega)]

/-- A fill in full: `rS` 8 lower, the top entry in `general[γ]` with the new `γ`, every other slot and every lower entry kept,
`rO`, `L`, `G` unchanged (R306). -/
theorem fill_spec {t : State} (h : fill s = .ok t) :
    1 ≤ stackLen s ∧ (rS t).toNat = (rS s).toNat - 8 ∧ rO t = rO s ∧ rL t = rL s ∧ rG t = rG s ∧
    (∀ p, generalAt t p = if p = gamma t then stackEntry s (stackLen s - 1) else generalAt s p) ∧
    ∀ k < stackLen s - 1, stackEntry t k = stackEntry s k := by
  unfold fill at h
  split at h
  · simp at h
  · rename_i hne
    simp only [Except.ok.injEq] at h
    have hge : 8 ≤ (rS s).toNat := by simp only [stackLen] at hne; omega
    have hsub : (rS s - 8).toNat = (rS s).toNat - 8 := by
      rw [BitVec.toNat_sub_of_le (by simpa [BitVec.le_def] using hge)]; rfl
    subst h
    refine ⟨by omega, by rw [rS_setGeneral, rS_setRS, hsub], by simp, by simp, by simp, fun p => ?_, fun k hk => ?_⟩
    · rw [generalAt_setGeneral]; simp [gamma]
    · change stackEntry (setRS s (rS s - 8)) k = _
      rw [stackEntry_setRS, hsub, if_pos (by simp only [stackLen] at hk; omega)]

/-- A fill fails exactly on an empty stack (R306). -/
theorem fill_error (k : CvKind) : fill s = .error k ↔ stackLen s = 0 ∧ k = .stackUnderflow := by
  unfold fill; split <;> simp_all [eq_comm]

/-- Spill entries stay canonical and below the stack's length. -/
def StackWf (s : State) : Prop := SparseWf (0 : Octa) s.memoryStack ∧ ∀ e ∈ s.memoryStack, e.1 < stackLen s

theorem setRS_stackWf {s : State} (h : SparseWf (0 : Octa) s.memoryStack) (v : Octa) : StackWf (setRS s v) :=
  ⟨sparseTake_wf h _, fun e he => by rw [stackLen_setRS]; exact (mem_sparseTake.1 he).2⟩

theorem spill_stackWf {s : State} (h : StackWf s) : StackWf (spill s) := setRS_stackWf (sparseWrite_wf h.1 _ _) _

theorem fill_stackWf {s t : State} (h : StackWf s) (hf : fill s = .ok t) : StackWf t := by
  unfold fill at hf
  split at hf
  · simp at hf
  · simp only [Except.ok.injEq] at hf; subst hf
    exact setRS_stackWf h.1 _

theorem setSpecial_stackWf {s : State} (h : StackWf s) {n : BitVec 5} (hn : n ≠ s.cfg.numRS) (v : Octa) :
    StackWf (setSpecial s n v) := by
  refine ⟨h.1, fun e he => ?_⟩
  have : rS (setSpecial s n v) = rS s := by
    rw [rS, specialAt_setSpecial, setSpecial_cfg, if_neg hn.symm]; rfl
  rw [stackLen, this]; exact h.2 e he

theorem growStep_stackWf {s : State} (h : StackWf s) : StackWf (growStep s) := by
  have h' := setSpecial_stackWf h s.cfg.distinct.2.2.2.1.symm (rL s + 1)
  unfold growStep; dsimp only; split
  · exact spill_stackWf h'
  · exact h'

theorem growBy_stackWf (n : Nat) {s : State} (h : StackWf s) : StackWf (growBy n s) := by
  induction n generalizing s with
  | zero => exact h
  | succ n ih => exact ih (growStep_stackWf h)

theorem popStep_stackWf {s t : State} (h : StackWf s) (hp : popStep s = .ok t) : StackWf t := by
  unfold popStep at hp
  split at hp
  · simp at hp
  · rename_i u hu
    have hw : StackWf u := by
      split at hu
      · exact fill_stackWf h hu
      · simp only [Except.ok.injEq] at hu; subst hu; exact h
    split at hp
    · simp at hp
    · simp only [Except.ok.injEq] at hp; subst hp
      exact setSpecial_stackWf hw u.cfg.distinct.1 _

theorem popSteps_stackWf (n : Nat) {s t : State} (h : StackWf s) (hp : popSteps n s = .ok t) : StackWf t := by
  induction n generalizing s with
  | zero => simp only [popSteps, Except.ok.injEq] at hp; subst hp; exact h
  | succ n ih =>
    rw [popSteps] at hp
    split at hp
    · simp at hp
    · rename_i u hu; exact ih (popStep_stackWf h hu) hp

/-! ### What a growth step and a pop step do to the geometry registers -/

/-- A growth step: `L` one higher; `rS` 8 higher exactly when `β` meets `γ`; `rO`, `G` and every slot unchanged (R303). -/
theorem growStep_regs :
    rL (growStep s) = rL s + 1 ∧ rO (growStep s) = rO s ∧ rG (growStep s) = rG s ∧
    (∀ p, generalAt (growStep s) p = generalAt s p) ∧
    rS (growStep s) = if alpha s + BitVec.ofNat 8 (rL s + 1).toNat = gamma s then rS s + 8 else rS s := by
  have hb : beta (setSpecial s s.cfg.numRL (rL s + 1)) = alpha s + BitVec.ofNat 8 (rL s + 1).toNat := by
    simp [beta, alpha, thresholdL]
  have hg : gamma (setSpecial s s.cfg.numRL (rL s + 1)) = gamma s := by simp [gamma]
  unfold growStep; dsimp only
  rw [hb, hg]
  split
  · refine ⟨(rL_setRS _ _).trans (rL_setRL _ _), (rO_setRS _ _).trans (rO_setRL _ _), (rG_setRS _ _).trans (rG_setRL _ _), fun p => rfl,
      (rS_setRS _ _).trans (by rw [rS_setRL])⟩
  · exact ⟨rL_setRL _ _, rO_setRL _ _, rG_setRL _ _, fun p => rfl, rS_setRL _ _⟩

/-- Growth by `n` steps: `L` `n` higher, `rO`, `G` and every slot unchanged (R302, R317). -/
theorem growBy_regs (n : Nat) (s : State) :
    rL (growBy n s) = rL s + BitVec.ofNat 64 n ∧ rO (growBy n s) = rO s ∧ rG (growBy n s) = rG s ∧
    ∀ p, generalAt (growBy n s) p = generalAt s p := by
  induction n generalizing s with
  | zero => simp [growBy]
  | succ n ih =>
    obtain ⟨h1, h2, h3, h4, -⟩ := growStep_regs s
    obtain ⟨i1, i2, i3, i4⟩ := ih (growStep s)
    refine ⟨?_, i2.trans h2, i3.trans h3, fun p => (i4 p).trans (h4 p)⟩
    rw [growBy, i1, h1, BitVec.add_assoc]
    congr 1
    rw [add_comm n 1, BitVec.ofNat_add]; rfl

end Sys2Proof.Machine
end

