-- ==== Sys2Proof/Laws/Command.lean ====
section
/-! SUPPORT. The shape every command has: what `perform` can answer, and that every instruction is one `perform`. -/

namespace Sys2Proof.Machine

variable {s t : State} {act : Except CvKind (State × Response)}

/-- While fatal a command only answers (R341). -/
theorem perform_fatal (h : s.fatal = true) : perform s act = .next (answerViolation s) := by
  simp [perform, h]

/-- A command whose own checks pass: its state and its answer. -/
theorem perform_ok (h : s.fatal = false) (u : State) (r : Response) : perform s (.ok (u, r)) = .next { u with resp := r } := by
  simp [perform, h]

/-- A command one of whose checks fails: the violation and nothing else (R341, R381). -/
theorem perform_error (h : s.fatal = false) (k : CvKind) : perform s (.error k) = .next (raiseCV k s) := by
  simp [perform, h]

/-- A command that changes no state. -/
theorem respond_live (h : s.fatal = false) (r : Response) : respond s r = .next { s with resp := r } := perform_ok h s r

/-- Everything a command can do (R341, R380). -/
theorem perform_cases (h : perform s act = .next t) :
    (s.fatal = true ∧ t = answerViolation s) ∨
    (s.fatal = false ∧ ∃ k, act = .error k ∧ t = raiseCV k s) ∨
    (s.fatal = false ∧ ∃ u r, act = .ok (u, r) ∧ t = { u with resp := r }) := by
  by_cases hf : s.fatal = true
  · rw [perform_fatal hf] at h; injection h with h; exact .inl ⟨hf, h.symm⟩
  · have hl : s.fatal = false := Bool.not_eq_true _ ▸ hf
    rcases act with k | ⟨u, r⟩
    · rw [perform_error hl] at h; injection h with h; exact .inr (.inl ⟨hl, k, rfl, h.symm⟩)
    · rw [perform_ok hl] at h; injection h with h; exact .inr (.inr ⟨hl, u, r, rfl, h.symm⟩)

theorem respond_is_perform (s : State) (r : Response) : ∃ act, respond s r = perform s act := ⟨.ok (s, r), rfl⟩

/-- Every instruction is one command. -/
theorem exec_is_perform (i : Instr) (s : State) : ∃ act, exec i s = perform s act := by
  cases i <;> first
    | exact ⟨_, rfl⟩
    | exact respond_is_perform s _
    | (dsimp only [exec]
       first
         | unfold execMmLoadprog | unfold execMmLoadimg | unfold execMmClear | unfold execMmClrrng | unfold execMrSetov
         | unfold execStB | unfold execStW | unfold execStT | unfold execStO | unfold execMbLoadimg | unfold execGrWrite | unfold execPushf
       exact ⟨_, rfl⟩)

/-- What a command whose checks pass can leave of the state, the response apart: the state itself, or the writing commands'
effects. -/
inductive Effect (s : State) : Instr → State → Prop
  | same (i : Instr) : Effect s i s
  | mmStore (v : MixWord) (addr : MixAddr) (f : FieldCode) :
      Effect s (.mmStore v addr f) (mixWrite s addr.toNat (fieldInsert (mixRead s addr.toNat) v f))
  | mmLoadprog (start : MixAddr) (ws : List MixWord) : Effect s (.mmLoadprog start ws) (mixWriteSeq s start.toNat ws)
  | mmLoadimg (start : MixAddr) (ws : List MixWord) : Effect s (.mmLoadimg start ws) (mixWriteSeq s start.toNat ws)
  | mmClear : Effect s .mmClear (mixClear s)
  | mmClrrng (start : MixAddr) (count : BitVec 13) :
      Effect s (.mmClrrng start count) (mixWriteSeq s start.toNat (List.replicate count.toNat MixWord.plusZero))
  | mrWrite (v : MixWord) (id : BitVec 4) (r : MixReg) (h : mixRegOf id = some r) : Effect s (.mrWrite v id) (mixRegWrite s v r)
  | mrSetov (b : Bool) : Effect s (.mrSetov b) { s with ov := b }
  | mrSetci (c : BitVec 2) (v : Cmp) (h : cmpOfCode c = some v) : Effect s (.mrSetci c) { s with ci := v }
  | stB (v : Byte) (addr : Octa) : Effect s (.stB v addr) (memWrite s addr 1 v)
  | stW (v : Wyde) (addr : Octa) : Effect s (.stW v addr) (memWrite s addr 2 v)
  | stT (v : Tetra) (addr : Octa) : Effect s (.stT v addr) (memWrite s addr 4 v)
  | stO (v : Octa) (addr : Octa) : Effect s (.stO v addr) (memWrite s addr 8 v)
  | mbLoadimg (start : Octa) (bs : List Byte) : Effect s (.mbLoadimg start bs) (storeBytes s start bs)
  | grWrite (v : Octa) (r : BitVec 8) : Effect s (.grWrite v r) (generalWrite s r v)
  | srWrite (v : Octa) (n : BitVec 5) (h : breaksGeometry s n v = false) : Effect s (.srWrite v n) (specialWrite s n v)
  | pushf : Effect s .pushf (setSpecial (setSpecial s s.cfg.numRO (rO s + 8 * rL s)) s.cfg.numRL 0)
  | popf (size : BitVec 9) (u : State) (h : popFrame s size = .ok u) : Effect s (.popf size) u

/-- The three outcomes of a command, `P` what it leaves of the state when its checks pass. -/
def Outcomes (P : State → Prop) (s t : State) : Prop :=
  (s.fatal = true ∧ t = answerViolation s) ∨ (s.fatal = false ∧ ∃ k, k ≠ .none ∧ t = raiseCV k s) ∨
  (s.fatal = false ∧ ∃ u, P u ∧ t = { u with resp := t.resp })

theorem outcomes_ok {P : State → Prop} {s t u : State} {r : Response} (hu : P u) (h : perform s (.ok (u, r)) = .next t) :
    Outcomes P s t := by
  rcases perform_cases h with h | ⟨_, k, h, _⟩ | ⟨hl, u', r', h, ht⟩
  · exact .inl h
  · simp at h
  · injection h with h; injection h with h1 h2; subst h1 ht; exact .inr (.inr ⟨hl, _, hu, rfl⟩)

theorem outcomes_error {P : State → Prop} {s t : State} {k : CvKind} (hk : k ≠ .none) (h : perform s (.error k) = .next t) :
    Outcomes P s t := by
  rcases perform_cases h with h | ⟨hl, k', h, ht⟩ | ⟨_, u', r', h, _⟩
  · exact .inl h
  · injection h with h; subst h ht; exact .inr (.inl ⟨hl, _, hk, rfl⟩)
  · simp at h

theorem outcomes_respond {P : State → Prop} {s t : State} {r : Response} (hs : P s) (h : respond s r = .next t) :
    Outcomes P s t := outcomes_ok hs h

theorem outcomes_ite {P : State → Prop} {s t u : State} {r : Response} {k : CvKind} {c : Prop} [Decidable c] (hk : k ≠ .none) (hu : c → P u)
    (h : perform s (if c then .ok (u, r) else .error k) = .next t) : Outcomes P s t := by
  split at h
  · exact outcomes_ok (hu ‹_›) h
  · exact outcomes_error hk h

theorem outcomes_ite_error {P : State → Prop} {s t u : State} {r : Response} {k : CvKind} {c : Prop} [Decidable c] (hk : k ≠ .none) (hu : ¬ c → P u)
    (h : perform s (if c then .error k else .ok (u, r)) = .next t) : Outcomes P s t := by
  split at h
  · exact outcomes_error hk h
  · exact outcomes_ok (hu ‹_›) h

/-- The violations of a pop loop (R308). -/
theorem popSteps_error (n : Nat) (s : State) (k : CvKind) (h : popSteps n s = .error k) : k = .stackUnderflow ∨ k = .frameUnderflow := by
  induction n generalizing s with
  | zero => simp [popSteps] at h
  | succ n ih =>
    rw [popSteps] at h
    split at h
    · rename_i k' hk
      injection h with h; subst h
      unfold popStep at hk
      split at hk
      · rename_i hf
        injection hk with hk; subst hk
        split at hf
        · exact .inl ((fill_error _ _).1 hf).2
        · simp at hf
      · split at hk
        · injection hk with hk; exact .inr hk.symm
        · simp at hk
    · exact ih _ h

/-- The violations of a frame pop (R308, R342). -/
theorem popFrame_error {s : State} {size : BitVec 9} {k : CvKind} (h : popFrame s size = .error k) :
    k = .geometry ∨ k = .stackUnderflow ∨ k = .frameUnderflow := by
  unfold popFrame at h
  split at h
  · injection h with h; exact .inl h.symm
  · split at h
    · rename_i k' hk'; injection h with h; subst h
      exact .inr (popSteps_error _ _ _ hk')
    · simp at h

/-- Everything a command can do: ignored while fatal, a violation and nothing else, or its effect and an answer. -/
theorem exec_effect {i : Instr} {s t : State} (h : exec i s = .next t) : Outcomes (Effect s i) s t := by
  cases i
  case mxDiv hi lo d =>
    dsimp only [exec, execMxDiv] at h
    split at h
    · exact outcomes_ok (.same _) h
    · exact outcomes_ite_error (by decide) (fun _ => .same _) h
  case mxSetb w k b =>
    dsimp only [exec, execMxSetb] at h
    split at h
    · exact outcomes_error (by decide) h
    · exact outcomes_ite_error (by decide) (fun _ => .same _) h
  case mmStore v addr f => exact outcomes_ite (by decide) (fun _ => .mmStore v addr f) h
  case mmLoadprog start ws => exact outcomes_ok (.mmLoadprog start ws) h
  case mmLoadimg start ws => exact outcomes_ok (.mmLoadimg start ws) h
  case mmClear => exact outcomes_ok .mmClear h
  case mmClrrng start count => exact outcomes_ok (.mmClrrng start count) h
  case mrRead id =>
    dsimp only [exec, execMrRead] at h
    split at h
    · exact outcomes_ok (.same _) h
    · exact outcomes_error (by decide) h
  case mrWrite v id =>
    dsimp only [exec, execMrWrite] at h
    split at h
    · exact outcomes_ok (.mrWrite v id _ ‹_›) h
    · exact outcomes_error (by decide) h
  case mrSetov b => exact outcomes_ok (.mrSetov b) h
  case mrSetci c =>
    dsimp only [exec, execMrSetci] at h
    split at h
    · exact outcomes_ok (.mrSetci c _ ‹_›) h
    · exact outcomes_error (by decide) h
  case stB v addr => exact outcomes_ok (.stB v addr) h
  case stW v addr =>
    dsimp only [exec, execStW, storeResult] at h
    split at h
    · exact outcomes_ok (.same _) h
    · exact outcomes_ok (.stW v addr) h
  case stT v addr =>
    dsimp only [exec, execStT, storeResult] at h
    split at h
    · exact outcomes_ok (.same _) h
    · exact outcomes_ok (.stT v addr) h
  case stO v addr =>
    dsimp only [exec, execStO, storeResult] at h
    split at h
    · exact outcomes_ok (.same _) h
    · exact outcomes_ok (.stO v addr) h
  case mbLoadimg start bs => exact outcomes_ok (.mbLoadimg start bs) h
  case grWrite v r => exact outcomes_ok (.grWrite v r) h
  case srWrite v n =>
    exact outcomes_ite_error (by decide) (fun hb => .srWrite v n (Bool.not_eq_true _ ▸ hb)) h
  case pushf => exact outcomes_ok .pushf h
  case popf size =>
    dsimp only [exec, execPopf] at h
    split at h
    · rename_i k hk
      refine outcomes_error ?_ h
      rcases popFrame_error hk with rfl | rfl | rfl <;> decide
    · exact outcomes_ok (.popf size _ ‹_›) h
  all_goals first
    | exact outcomes_respond (.same _) h
    | exact outcomes_ite (by decide) (fun _ => .same _) h
    | exact outcomes_ite_error (by decide) (fun _ => .same _) h

/-- No effect of a command touches the parameters, the violation bits, the pending inputs or, before the
answer, the response. -/
theorem effect_block {i : Instr} {s u : State} (h : Effect s i u) :
    u.cfg = s.cfg ∧ u.fatal = s.fatal ∧ u.cvKind = s.cvKind ∧ u.inputs = s.inputs ∧ u.resp = s.resp := by
  cases h with
  | same | mmStore | mmClear | mrSetov | mrSetci | pushf => exact ⟨rfl, rfl, rfl, rfl, rfl⟩
  | mmLoadprog | mmLoadimg | mmClrrng => rw [mixWriteSeq_frame]; exact ⟨rfl, rfl, rfl, rfl, rfl⟩
  | mrWrite => rw [mixRegWrite_frame]; exact ⟨rfl, rfl, rfl, rfl, rfl⟩
  | stB | stW | stT | stO => rw [memWrite, storeBytes_frame]; exact ⟨rfl, rfl, rfl, rfl, rfl⟩
  | mbLoadimg => rw [storeBytes_frame]; exact ⟨rfl, rfl, rfl, rfl, rfl⟩
  | grWrite => rw [generalWrite_frame]; exact ⟨rfl, rfl, rfl, rfl, rfl⟩
  | srWrite => rw [specialWrite_frame]; exact ⟨rfl, rfl, rfl, rfl, rfl⟩
  | popf size u h => rw [popFrame_frame h]; exact ⟨rfl, rfl, rfl, rfl, rfl⟩

end Sys2Proof.Machine
end

