-- ==== Sys2Proof/Laws/Memory.lean ====
section
/-! SUPPORT. The two memories: reads after writes, byte order, and that every operation keeps the canonical form. -/

namespace Sys2Proof.Machine

/-! ### MIX memory -/

theorem mixRead_mixWrite (s : State) (a b : Nat) (w : MixWord) :
    mixRead (mixWrite s a w) b = if b % s.cfg.mixMemSize = a % s.cfg.mixMemSize then w else mixRead s b := by
  simp only [mixRead, mixWrite_mixmem, mixWrite_cfg, sparseRead_write]

/-- A word outside a written sequence keeps its value (R203). -/
theorem mixRead_mixWriteSeq_ne (ws : List MixWord) (s : State) (a b : Nat)
    (h : ∀ k < ws.length, b % s.cfg.mixMemSize ≠ (a + k) % s.cfg.mixMemSize) :
    mixRead (mixWriteSeq s a ws) b = mixRead s b := by
  induction ws generalizing s a with
  | nil => rfl
  | cons w ws ih =>
    rw [mixWriteSeq, ih, mixRead_mixWrite, if_neg (by simpa using h 0 (by simp))]
    intro k hk
    have := h (k + 1) (by simpa using hk)
    simpa [add_assoc, add_comm 1 k] using this

/-- The word `k` of a written sequence, unless a later one lands on the same index (R203). -/
theorem mixRead_mixWriteSeq (ws : List MixWord) (s : State) (a k : Nat) (hk : k < ws.length)
    (h : ∀ j, k < j → j < ws.length → (a + j) % s.cfg.mixMemSize ≠ (a + k) % s.cfg.mixMemSize) :
    mixRead (mixWriteSeq s a ws) (a + k) = ws[k] := by
  induction ws generalizing s a k with
  | nil => simp at hk
  | cons w ws ih =>
    rw [mixWriteSeq]
    cases k with
    | zero =>
      rw [mixRead_mixWriteSeq_ne, mixRead_mixWrite]
      · simp
      · intro j hj
        have := h (j + 1) (by omega) (by simpa using hj)
        simpa [add_assoc, add_comm 1 j, eq_comm] using this
    | succ k =>
      have := ih (mixWrite s a w) (a + 1) k (by simpa using hk) (fun j h1 h2 => by
        have := h (j + 1) (by omega) (by simpa using h2)
        simpa [add_assoc, add_comm 1] using this)
      simpa [add_assoc, add_comm 1 k] using this

theorem mixReadSeq_length (s : State) (a n : Nat) : (mixReadSeq s a n).length = n := by
  induction n generalizing a with
  | zero => rfl
  | succ n ih => simp [mixReadSeq, ih]

theorem mixReadSeq_getElem (s : State) (a n k : Nat) (h : k < (mixReadSeq s a n).length) :
    (mixReadSeq s a n)[k] = mixRead s (a + k) := by
  induction n generalizing a k with
  | zero => simp [mixReadSeq] at h
  | succ n ih =>
    cases k with
    | zero => rfl
    | succ k =>
      simp only [mixReadSeq, List.getElem_cons_succ]
      rw [ih]; congr 1; omega

/-! ### MMIX memory -/

/-- The address after `k` more bytes. -/
theorem addr_succ (a : Octa) (k : Nat) : a + 1 + BitVec.ofNat 64 k = a + BitVec.ofNat 64 (k + 1) := by
  rw [BitVec.add_assoc, add_comm k 1, BitVec.ofNat_add]; rfl

theorem byteAt_setByte (s : State) (a c : Octa) (b : Byte) :
    byteAt (setByte s a b) c = if c = a then b else byteAt s c := by
  simp only [byteAt, setByte_mmixmem, sparseRead_write, BitVec.toNat_inj]

/-- A byte outside a stored sequence keeps its value (R77, R290). -/
theorem byteAt_storeBytes_ne (bs : List Byte) (s : State) (a c : Octa)
    (h : ∀ k < bs.length, c ≠ a + BitVec.ofNat 64 k) : byteAt (storeBytes s a bs) c = byteAt s c := by
  induction bs generalizing s a with
  | nil => rfl
  | cons b bs ih =>
    rw [storeBytes, ih, byteAt_setByte, if_neg (by simpa using h 0 (by simp))]
    intro k hk
    have := h (k + 1) (by simpa using hk)
    rwa [addr_succ]

theorem ofNat64_inj {j k : Nat} (hj : j < 2 ^ 64) (hk : k < 2 ^ 64) (a : Octa)
    (h : a + BitVec.ofNat 64 j = a + BitVec.ofNat 64 k) : j = k := by
  have := congrArg BitVec.toNat ((BitVec.add_right_inj a).1 h)
  rwa [BitVec.toNat_ofNat, BitVec.toNat_ofNat, Nat.mod_eq_of_lt hj, Nat.mod_eq_of_lt hk] at this

/-- Byte `k` of a stored sequence of at most `2^64` bytes (R77, R290). -/
theorem byteAt_storeBytes (bs : List Byte) (s : State) (a : Octa) (k : Nat) (hk : k < bs.length) (hl : bs.length ≤ 2 ^ 64) :
    byteAt (storeBytes s a bs) (a + BitVec.ofNat 64 k) = bs[k] := by
  induction bs generalizing s a k with
  | nil => simp at hk
  | cons b bs ih =>
    rw [storeBytes]
    have hl' : bs.length < 2 ^ 64 := by simpa using hl
    cases k with
    | zero =>
      rw [byteAt_storeBytes_ne, byteAt_setByte]
      · simp
      · intro j hj he
        rw [addr_succ] at he
        have := ofNat64_inj (by omega) (by omega) a he
        omega
    | succ k =>
      have := ih (setByte s a b) (a + 1) k (by simpa using hk) (by omega)
      rw [addr_succ] at this
      simpa using this

theorem loadBytes_length (s : State) (a : Octa) (n : Nat) : (loadBytes s a n).length = n := by
  induction n generalizing a with
  | zero => rfl
  | succ n ih => simp [loadBytes, ih]

theorem loadBytes_getElem (s : State) (a : Octa) (n k : Nat) (h : k < (loadBytes s a n).length) :
    (loadBytes s a n)[k] = byteAt s (a + BitVec.ofNat 64 k) := by
  induction n generalizing a k with
  | zero => simp [loadBytes] at h
  | succ n ih =>
    cases k with
    | zero => simp [loadBytes]
    | succ k =>
      simp only [loadBytes, List.getElem_cons_succ]
      rw [ih, addr_succ]

/-- A dump of what was loaded (R292 (e)). -/
theorem loadBytes_storeBytes (bs : List Byte) (s : State) (a : Octa) (hl : bs.length ≤ 2 ^ 64) :
    loadBytes (storeBytes s a bs) a bs.length = bs := by
  refine List.ext_getElem (loadBytes_length _ _ _) fun k h1 h2 => ?_
  rw [loadBytes_getElem, byteAt_storeBytes _ _ _ _ h2 hl]

theorem splitBytes_length (v n : Nat) : (splitBytes v n).length = n := by
  induction n with
  | zero => rfl
  | succ n ih => simp [splitBytes, ih]

/-- Byte `k` of a split number, byte 0 the most significant (R77). -/
theorem splitBytes_getElem (v n k : Nat) (h : k < (splitBytes v n).length) :
    (splitBytes v n)[k] = BitVec.ofNat 8 (v / 256 ^ (n - 1 - k)) := by
  induction n generalizing k with
  | zero => simp [splitBytes] at h
  | succ n ih =>
    cases k with
    | zero => simp [splitBytes]
    | succ k =>
      simp only [splitBytes, List.getElem_cons_succ]
      rw [ih]; congr 3; omega

theorem foldl_joinBytes (bs : List Byte) (acc : Nat) :
    bs.foldl (fun acc b => acc * 256 + b.toNat) acc = acc * 256 ^ bs.length + joinBytes bs := by
  induction bs generalizing acc with
  | nil => simp [joinBytes]
  | cons b bs ih =>
    simp only [List.foldl_cons, joinBytes, List.length_cons]
    rw [ih, ih (0 * 256 + b.toNat)]
    ring

theorem joinBytes_cons (b : Byte) (bs : List Byte) : joinBytes (b :: bs) = b.toNat * 256 ^ bs.length + joinBytes bs := by
  have := foldl_joinBytes bs (0 * 256 + b.toNat)
  simpa [joinBytes] using this

theorem joinBytes_lt (bs : List Byte) : joinBytes bs < 256 ^ bs.length := by
  induction bs with
  | nil => simp [joinBytes]
  | cons b bs ih =>
    rw [joinBytes_cons, List.length_cons, pow_succ]
    have := b.isLt
    nlinarith [Nat.zero_le (256 ^ bs.length)]

/-- Splitting then joining loses nothing below `256^n` (R254, R255 at byte level). -/
theorem joinBytes_splitBytes (v n : Nat) : joinBytes (splitBytes v n) = v % 256 ^ n := by
  induction n with
  | zero => simp [splitBytes, joinBytes, Nat.mod_one]
  | succ n ih =>
    rw [splitBytes, joinBytes_cons, splitBytes_length, ih, BitVec.toNat_ofNat, pow_succ 256 n,
      Nat.mod_mul (x := v) (a := 256 ^ n) (b := 256)]
    ring

theorem memRead_toNat (s : State) (a : Octa) (n : Nat) : (memRead s a n).toNat = joinBytes (loadBytes s a n) := by
  have := joinBytes_lt (loadBytes s a n)
  rw [loadBytes_length, show (256 : Nat) = 2 ^ 8 by rfl, ← pow_mul] at this
  rw [memRead, BitVec.toNat_ofNat, Nat.mod_eq_of_lt this]

/-- A read after a write at the same address and width gives the value written (R292 (a)). -/
theorem memRead_memWrite (s : State) (a : Octa) (n : Nat) (hn : n ≤ 2 ^ 64) (v : BitVec (8 * n)) :
    memRead (memWrite s a n v) a n = v := by
  apply BitVec.eq_of_toNat_eq
  have h := loadBytes_storeBytes (splitBytes v.toNat n) s a (by rwa [splitBytes_length])
  rw [splitBytes_length] at h
  rw [memRead_toNat, memWrite, h, joinBytes_splitBytes, show (256 : Nat) = 2 ^ 8 by rfl, ← pow_mul, Nat.mod_eq_of_lt v.isLt]

/-! ### Every operation keeps the canonical form -/

theorem setByte_wf {s : State} (h : Memory.wf s.mmixmem) (a : Octa) (b : Byte) : Memory.wf (setByte s a b).mmixmem :=
  sparseWrite_wf h _ _

theorem storeBytes_wf {s : State} (h : Memory.wf s.mmixmem) (a : Octa) (bs : List Byte) :
    Memory.wf (storeBytes s a bs).mmixmem := by
  induction bs generalizing s a with
  | nil => exact h
  | cons b bs ih => exact ih (setByte_wf h a b) _

theorem memWrite_wf {s : State} (h : Memory.wf s.mmixmem) (a : Octa) (n : Nat) (v : BitVec (8 * n)) :
    Memory.wf (memWrite s a n v).mmixmem := storeBytes_wf h a _

theorem mixWrite_wf {s : State} (h : SparseWf MixWord.plusZero s.mixmem) (a : Nat) (w : MixWord) :
    SparseWf MixWord.plusZero (mixWrite s a w).mixmem := sparseWrite_wf h _ _

theorem mixWriteSeq_wf {s : State} (h : SparseWf MixWord.plusZero s.mixmem) (a : Nat) (ws : List MixWord) :
    SparseWf MixWord.plusZero (mixWriteSeq s a ws).mixmem := by
  induction ws generalizing s a with
  | nil => exact h
  | cons w ws ih => exact ih (mixWrite_wf h a w) _

theorem reset_memory_wf : Memory.wf State.reset.mmixmem := sparseWf_nil _

/-- MIX memory stays within its size. -/
theorem mixWrite_mem_lt {s : State} (h : ∀ e ∈ s.mixmem, e.1 < s.cfg.mixMemSize) (a : Nat) (w : MixWord) :
    ∀ e ∈ (mixWrite s a w).mixmem, e.1 < s.cfg.mixMemSize := by
  intro e he
  rcases mem_sparseWrite he with ⟨rfl, -⟩ | he
  · exact Nat.mod_lt _ s.cfg.size_pos
  · exact h e he

theorem mixWriteSeq_mem_lt (ws : List MixWord) {s : State} (h : ∀ e ∈ s.mixmem, e.1 < s.cfg.mixMemSize) (a : Nat) :
    ∀ e ∈ (mixWriteSeq s a ws).mixmem, e.1 < s.cfg.mixMemSize := by
  induction ws generalizing s a with
  | nil => exact h
  | cons w ws ih => exact ih (s := mixWrite s a w) (mixWrite_mem_lt h a w) _

/-- Bytes are listed on allocated pages only, and page bases are aligned and rising. -/
def PagesWf (s : State) : Prop :=
  (∀ e ∈ s.mmixmem, e.1 < 2 ^ 64 ∧ e.1 / 4096 * 4096 ∈ s.allocated) ∧
  s.allocated.Pairwise (· < ·) ∧ ∀ p ∈ s.allocated, p % 4096 = 0 ∧ p < 2 ^ 64

theorem setByte_pagesWf {s : State} (h : PagesWf s) (a : Octa) (b : Byte) : PagesWf (setByte s a b) := by
  have ha := a.isLt
  refine ⟨fun e he => ?_, pairwise_insertPage h.2.1, fun p hp => ?_⟩
  · rcases mem_sparseWrite he with ⟨rfl, -⟩ | he
    · exact ⟨ha, mem_insertPage.2 (.inl rfl)⟩
    · exact ⟨(h.1 e he).1, mem_insertPage.2 (.inr (h.1 e he).2)⟩
  · rcases mem_insertPage.1 hp with rfl | hp
    · simp only [pageBase, Config.mmixPageSize]; omega
    · exact h.2.2 p hp

theorem storeBytes_pagesWf (bs : List Byte) {s : State} (h : PagesWf s) (a : Octa) : PagesWf (storeBytes s a bs) := by
  induction bs generalizing s a with
  | nil => exact h
  | cons b bs ih => exact ih (setByte_pagesWf h a b) _

/-- The pages allocated by a stored sequence: those of its bytes (R77, R290 (b)). -/
theorem mem_allocated_storeBytes (bs : List Byte) (s : State) (a : Octa) (p : Nat) :
    p ∈ (storeBytes s a bs).allocated ↔ p ∈ s.allocated ∨ ∃ k < bs.length, p = pageBase (a + BitVec.ofNat 64 k) := by
  induction bs generalizing s a with
  | nil => simp [storeBytes]
  | cons b bs ih =>
    rw [storeBytes, ih, setByte_allocated, mem_insertPage]
    constructor
    · rintro ((h | h) | ⟨k, hk, h⟩)
      · exact .inr ⟨0, by simp, by simpa using h⟩
      · exact .inl h
      · refine .inr ⟨k + 1, by simpa using hk, ?_⟩
        rw [h, addr_succ]
    · rintro (h | ⟨k, hk, h⟩)
      · exact .inl (.inr h)
      · cases k with
        | zero => exact .inl (.inl (by simpa using h))
        | succ k =>
          refine .inr ⟨k, by simpa using hk, ?_⟩
          rw [h, addr_succ]

end Sys2Proof.Machine
end

