-- ==== Sys2Proof/Laws/PerInstr.lean ====
section
/-! SUPPORT. Per instruction: its encoding carries the opcode of the row of its own mnemonic (spec opcode_table.json). -/

namespace Sys2Proof.Laws.Mnemonic

/-- The opcode the encoder gives `i` is the one of the row with `i`'s mnemonic. -/
def Statement (i : Instr) : Prop := (opcodeRow (encode i).op).map (fun r => r.mnemonic) = some i.mnemonic

theorem fsEnc (x0 : BitVec 3) (x1 : BitVec 3) : Statement (.fsEnc x0 x1) := rfl
theorem fsDec (x0 : FieldCode) : Statement (.fsDec x0) := rfl
theorem maMake (x0 : Octa) : Statement (.maMake x0) := rfl
theorem mxMake (x0 : Bool) (x1 : BitVec 32) : Statement (.mxMake x0 x1) := rfl
theorem mxFromint (x0 : BitVec 32) : Statement (.mxFromint x0) := rfl
theorem mxTrunc (x0 : BitVec 32) : Statement (.mxTrunc x0) := rfl
theorem mxToint (x0 : MixWord) : Statement (.mxToint x0) := rfl
theorem mxSign (x0 : MixWord) : Statement (.mxSign x0) := rfl
theorem mxMag (x0 : MixWord) : Statement (.mxMag x0) := rfl
theorem mxGetb (x0 : MixWord) (x1 : BitVec 3) : Statement (.mxGetb x0 x1) := rfl
theorem mxSetb (x0 : MixWord) (x1 : BitVec 3) (x2 : BitVec 8) : Statement (.mxSetb x0 x1 x2) := rfl
theorem mxNeg (x0 : MixWord) : Statement (.mxNeg x0) := rfl
theorem mxAdd (x0 : MixWord) (x1 : MixWord) : Statement (.mxAdd x0 x1) := rfl
theorem mxSub (x0 : MixWord) (x1 : MixWord) : Statement (.mxSub x0 x1) := rfl
theorem mxMul (x0 : MixWord) (x1 : MixWord) : Statement (.mxMul x0 x1) := rfl
theorem mxDiv (x0 : MixWord) (x1 : MixWord) (x2 : MixWord) : Statement (.mxDiv x0 x1 x2) := rfl
theorem mxCmp (x0 : MixWord) (x1 : MixWord) : Statement (.mxCmp x0 x1) := rfl
theorem mxIszero (x0 : MixWord) : Statement (.mxIszero x0) := rfl
theorem mxEqbits (x0 : MixWord) (x1 : MixWord) : Statement (.mxEqbits x0 x1) := rfl
theorem mxShl (x0 : MixWord) (x1 : BitVec 12) : Statement (.mxShl x0 x1) := rfl
theorem mxShr (x0 : MixWord) (x1 : BitVec 12) : Statement (.mxShr x0 x1) := rfl
theorem mxRol (x0 : MixWord) (x1 : BitVec 12) : Statement (.mxRol x0 x1) := rfl
theorem mxRor (x0 : MixWord) (x1 : BitVec 12) : Statement (.mxRor x0 x1) := rfl
theorem mxShld (x0 : MixWord) (x1 : MixWord) (x2 : BitVec 12) : Statement (.mxShld x0 x1 x2) := rfl
theorem mxShrd (x0 : MixWord) (x1 : MixWord) (x2 : BitVec 12) : Statement (.mxShrd x0 x1 x2) := rfl
theorem mxRold (x0 : MixWord) (x1 : MixWord) (x2 : BitVec 12) : Statement (.mxRold x0 x1 x2) := rfl
theorem mxRord (x0 : MixWord) (x1 : MixWord) (x2 : BitVec 12) : Statement (.mxRord x0 x1 x2) := rfl
theorem mxFget (x0 : MixWord) (x1 : FieldCode) : Statement (.mxFget x0 x1) := rfl
theorem mxFput (x0 : MixWord) (x1 : MixWord) (x2 : FieldCode) : Statement (.mxFput x0 x1 x2) := rfl
theorem mmLoad (x0 : MixAddr) (x1 : FieldCode) : Statement (.mmLoad x0 x1) := rfl
theorem mmStore (x0 : MixWord) (x1 : MixAddr) (x2 : FieldCode) : Statement (.mmStore x0 x1 x2) := rfl
theorem mmLoadprog (x0 : MixAddr) (x1 : List MixWord) : Statement (.mmLoadprog x0 x1) := rfl
theorem mmLoadimg (x0 : MixAddr) (x1 : List MixWord) : Statement (.mmLoadimg x0 x1) := rfl
theorem mmDump (x0 : MixAddr) (x1 : BitVec 13) : Statement (.mmDump x0 x1) := rfl
theorem mmClear : Statement (.mmClear) := rfl
theorem mmClrrng (x0 : MixAddr) (x1 : BitVec 13) : Statement (.mmClrrng x0 x1) := rfl
theorem mrRead (x0 : BitVec 4) : Statement (.mrRead x0) := rfl
theorem mrWrite (x0 : MixWord) (x1 : BitVec 4) : Statement (.mrWrite x0 x1) := rfl
theorem mrEa (x0 : MixAddr) (x1 : BitVec 3) : Statement (.mrEa x0 x1) := rfl
theorem mrIdxoff (x0 : BitVec 3) : Statement (.mrIdxoff x0) := rfl
theorem mrGetov : Statement (.mrGetov) := rfl
theorem mrSetov (x0 : Bool) : Statement (.mrSetov x0) := rfl
theorem mrGetci : Statement (.mrGetci) := rfl
theorem mrSetci (x0 : BitVec 2) : Statement (.mrSetci x0) := rfl
theorem addB (x0 : Byte) (x1 : Byte) : Statement (.addB x0 x1) := rfl
theorem addW (x0 : Wyde) (x1 : Wyde) : Statement (.addW x0 x1) := rfl
theorem addT (x0 : Tetra) (x1 : Tetra) : Statement (.addT x0 x1) := rfl
theorem addO (x0 : Octa) (x1 : Octa) : Statement (.addO x0 x1) := rfl
theorem subB (x0 : Byte) (x1 : Byte) : Statement (.subB x0 x1) := rfl
theorem subW (x0 : Wyde) (x1 : Wyde) : Statement (.subW x0 x1) := rfl
theorem subT (x0 : Tetra) (x1 : Tetra) : Statement (.subT x0 x1) := rfl
theorem subO (x0 : Octa) (x1 : Octa) : Statement (.subO x0 x1) := rfl
theorem mulB (x0 : Byte) (x1 : Byte) : Statement (.mulB x0 x1) := rfl
theorem mulW (x0 : Wyde) (x1 : Wyde) : Statement (.mulW x0 x1) := rfl
theorem mulT (x0 : Tetra) (x1 : Tetra) : Statement (.mulT x0 x1) := rfl
theorem mulO (x0 : Octa) (x1 : Octa) : Statement (.mulO x0 x1) := rfl
theorem adduoB (x0 : Byte) (x1 : Byte) : Statement (.adduoB x0 x1) := rfl
theorem adduoW (x0 : Wyde) (x1 : Wyde) : Statement (.adduoW x0 x1) := rfl
theorem adduoT (x0 : Tetra) (x1 : Tetra) : Statement (.adduoT x0 x1) := rfl
theorem adduoO (x0 : Octa) (x1 : Octa) : Statement (.adduoO x0 x1) := rfl
theorem addsoB (x0 : Byte) (x1 : Byte) : Statement (.addsoB x0 x1) := rfl
theorem addsoW (x0 : Wyde) (x1 : Wyde) : Statement (.addsoW x0 x1) := rfl
theorem addsoT (x0 : Tetra) (x1 : Tetra) : Statement (.addsoT x0 x1) := rfl
theorem addsoO (x0 : Octa) (x1 : Octa) : Statement (.addsoO x0 x1) := rfl
theorem subuoB (x0 : Byte) (x1 : Byte) : Statement (.subuoB x0 x1) := rfl
theorem subuoW (x0 : Wyde) (x1 : Wyde) : Statement (.subuoW x0 x1) := rfl
theorem subuoT (x0 : Tetra) (x1 : Tetra) : Statement (.subuoT x0 x1) := rfl
theorem subuoO (x0 : Octa) (x1 : Octa) : Statement (.subuoO x0 x1) := rfl
theorem subsoB (x0 : Byte) (x1 : Byte) : Statement (.subsoB x0 x1) := rfl
theorem subsoW (x0 : Wyde) (x1 : Wyde) : Statement (.subsoW x0 x1) := rfl
theorem subsoT (x0 : Tetra) (x1 : Tetra) : Statement (.subsoT x0 x1) := rfl
theorem subsoO (x0 : Octa) (x1 : Octa) : Statement (.subsoO x0 x1) := rfl
theorem muluoB (x0 : Byte) (x1 : Byte) : Statement (.muluoB x0 x1) := rfl
theorem muluoW (x0 : Wyde) (x1 : Wyde) : Statement (.muluoW x0 x1) := rfl
theorem muluoT (x0 : Tetra) (x1 : Tetra) : Statement (.muluoT x0 x1) := rfl
theorem muluoO (x0 : Octa) (x1 : Octa) : Statement (.muluoO x0 x1) := rfl
theorem mulsoB (x0 : Byte) (x1 : Byte) : Statement (.mulsoB x0 x1) := rfl
theorem mulsoW (x0 : Wyde) (x1 : Wyde) : Statement (.mulsoW x0 x1) := rfl
theorem mulsoT (x0 : Tetra) (x1 : Tetra) : Statement (.mulsoT x0 x1) := rfl
theorem mulsoO (x0 : Octa) (x1 : Octa) : Statement (.mulsoO x0 x1) := rfl
theorem mulfuB (x0 : Byte) (x1 : Byte) : Statement (.mulfuB x0 x1) := rfl
theorem mulfuW (x0 : Wyde) (x1 : Wyde) : Statement (.mulfuW x0 x1) := rfl
theorem mulfuT (x0 : Tetra) (x1 : Tetra) : Statement (.mulfuT x0 x1) := rfl
theorem mulfuO (x0 : Octa) (x1 : Octa) : Statement (.mulfuO x0 x1) := rfl
theorem divuB (x0 : Byte) (x1 : Byte) : Statement (.divuB x0 x1) := rfl
theorem divuW (x0 : Wyde) (x1 : Wyde) : Statement (.divuW x0 x1) := rfl
theorem divuT (x0 : Tetra) (x1 : Tetra) : Statement (.divuT x0 x1) := rfl
theorem divuO (x0 : Octa) (x1 : Octa) : Statement (.divuO x0 x1) := rfl
theorem cmpuB (x0 : Byte) (x1 : Byte) : Statement (.cmpuB x0 x1) := rfl
theorem cmpuW (x0 : Wyde) (x1 : Wyde) : Statement (.cmpuW x0 x1) := rfl
theorem cmpuT (x0 : Tetra) (x1 : Tetra) : Statement (.cmpuT x0 x1) := rfl
theorem cmpuO (x0 : Octa) (x1 : Octa) : Statement (.cmpuO x0 x1) := rfl
theorem cmpsB (x0 : Byte) (x1 : Byte) : Statement (.cmpsB x0 x1) := rfl
theorem cmpsW (x0 : Wyde) (x1 : Wyde) : Statement (.cmpsW x0 x1) := rfl
theorem cmpsT (x0 : Tetra) (x1 : Tetra) : Statement (.cmpsT x0 x1) := rfl
theorem cmpsO (x0 : Octa) (x1 : Octa) : Statement (.cmpsO x0 x1) := rfl
theorem splitW (x0 : Wyde) : Statement (.splitW x0) := rfl
theorem splitT (x0 : Tetra) : Statement (.splitT x0) := rfl
theorem splitO (x0 : Octa) : Statement (.splitO x0) := rfl
theorem joinW (x0 : Byte) (x1 : Byte) : Statement (.joinW x0 x1) := rfl
theorem joinT (x0 : Wyde) (x1 : Wyde) : Statement (.joinT x0 x1) := rfl
theorem joinO (x0 : Tetra) (x1 : Tetra) : Statement (.joinO x0 x1) := rfl
theorem truncB (x0 : Octa) : Statement (.truncB x0) := rfl
theorem truncW (x0 : Octa) : Statement (.truncW x0) := rfl
theorem truncT (x0 : Octa) : Statement (.truncT x0) := rfl
theorem truncO (x0 : Octa) : Statement (.truncO x0) := rfl
theorem svalB (x0 : Byte) : Statement (.svalB x0) := rfl
theorem svalW (x0 : Wyde) : Statement (.svalW x0) := rfl
theorem svalT (x0 : Tetra) : Statement (.svalT x0) := rfl
theorem svalO (x0 : Octa) : Statement (.svalO x0) := rfl
theorem ldB (x0 : Octa) : Statement (.ldB x0) := rfl
theorem ldW (x0 : Octa) : Statement (.ldW x0) := rfl
theorem ldT (x0 : Octa) : Statement (.ldT x0) := rfl
theorem ldO (x0 : Octa) : Statement (.ldO x0) := rfl
theorem stB (x0 : Byte) (x1 : Octa) : Statement (.stB x0 x1) := rfl
theorem stW (x0 : Wyde) (x1 : Octa) : Statement (.stW x0 x1) := rfl
theorem stT (x0 : Tetra) (x1 : Octa) : Statement (.stT x0 x1) := rfl
theorem stO (x0 : Octa) (x1 : Octa) : Statement (.stO x0 x1) := rfl
theorem mbLoadimg (x0 : Octa) (x1 : List Byte) : Statement (.mbLoadimg x0 x1) := rfl
theorem mbDump (x0 : Octa) (x1 : Octa) : Statement (.mbDump x0 x1) := rfl
theorem grRead (x0 : BitVec 8) : Statement (.grRead x0) := rfl
theorem grWrite (x0 : Octa) (x1 : BitVec 8) : Statement (.grWrite x0 x1) := rfl
theorem srRead (x0 : BitVec 5) : Statement (.srRead x0) := rfl
theorem srWrite (x0 : Octa) (x1 : BitVec 5) : Statement (.srWrite x0 x1) := rfl
theorem pushf : Statement (.pushf) := rfl
theorem popf (x0 : BitVec 9) : Statement (.popf x0) := rfl

end Sys2Proof.Laws.Mnemonic
end

