-- ==== Sys2Proof/Laws/Ring.lean ====
section
/-! SUPPORT. The growth loop and the pop loop from a state whose ring is in order: how many registers are spilled or filled,
which ones, and where they stand (spec 45_mmix_regwindow.md rules R303 to R308, R320). -/

namespace Sys2Proof.Machine

/-- The ring in numbers: `rO` and `rS` multiples of 8, `rS <= rO`, and `r + L <= 255` with `r = (rO - rS) div 8` (R39, R305). -/
def RingOk (s : State) : Prop :=
  (rO s).toNat % 8 = 0 ∧ (rS s).toNat % 8 = 0 ∧ (rS s).toNat ≤ (rO s).toNat ∧
  (rO s).toNat / 8 - (rS s).toNat / 8 + (rL s).toNat ≤ 255

theorem ringOk_of_inv {s : State} (hg : s.Geometry) (hr : s.RingInv) : RingOk s := by
  obtain ⟨-, -, h1, h2⟩ := hg
  obtain ⟨h3, h4⟩ := hr
  simp only [residentCount, thresholdL] at h4
  exact ⟨h1, h2, h3, by omega⟩

theorem ofNat8_eq {a b : Nat} : BitVec.ofNat 8 a = BitVec.ofNat 8 b ↔ a % 256 = b % 256 := by
  rw [← BitVec.toNat_inj, BitVec.toNat_ofNat, BitVec.toNat_ofNat]

/-- One growth step with the ring in order: a spill exactly when 255 registers are resident already. -/
theorem growStep_ring {s : State} (h : RingOk s) (hL : (rL s).toNat ≤ 255)
    (hw : (rL s).toNat + 1 ≤ 255 ∨ (rO s).toNat + 8 < 2 ^ 64) :
    (rL (growStep s)).toNat = (rL s).toNat + 1 ∧
    if (rO s).toNat / 8 - (rS s).toNat / 8 + (rL s).toNat = 255 then
      (rS (growStep s)).toNat = (rS s).toNat + 8 ∧
      stackEntry (growStep s) (stackLen s) = generalAt s (gamma s) ∧ ∀ k < stackLen s, stackEntry (growStep s) k = stackEntry s k
    else (rS (growStep s)).toNat = (rS s).toNat ∧ ∀ k, stackEntry (growStep s) k = stackEntry s k := by
  obtain ⟨ho, hs, hle, hρ⟩ := h
  have hO := (rO s).isLt
  have hL1 : (rL s + 1).toNat = (rL s).toNat + 1 := by
    rw [BitVec.toNat_add]; exact Nat.mod_eq_of_lt (by change _ + 1 < _; omega)
  obtain ⟨g1, g2, g3, g4, g5⟩ := growStep_regs s
  have hiff : alpha s + BitVec.ofNat 8 (rL s + 1).toNat = gamma s ↔ (rO s).toNat / 8 - (rS s).toNat / 8 + (rL s).toNat = 255 := by
    rw [alpha, gamma, ← BitVec.ofNat_add, hL1, ofNat8_eq]; omega
  refine ⟨by rw [g1, hL1], ?_⟩
  split
  · rename_i hc
    rw [g5, if_pos (hiff.2 hc)]
    have hb : beta (setSpecial s s.cfg.numRL (rL s + 1)) = gamma (setSpecial s s.cfg.numRL (rL s + 1)) := by
      have := hiff.2 hc
      simpa [beta, alpha, thresholdL, gamma] using this
    have hst : growStep s = spill (setSpecial s s.cfg.numRL (rL s + 1)) := by
      unfold growStep; dsimp only; rw [if_pos hb]
    have hlen : stackLen (setSpecial s s.cfg.numRL (rL s + 1)) = stackLen s := by simp [stackLen]
    obtain ⟨p1, -, -, -, -, p6, p7⟩ := spill_spec (setSpecial s s.cfg.numRL (rL s + 1)) (by rw [rS_setRL]; omega)
    rw [hlen] at p6 p7
    rw [hst]
    refine ⟨?_, ?_, p7⟩
    · rw [BitVec.toNat_add]; exact Nat.mod_eq_of_lt (by change _ + 8 < _; omega)
    · rw [p6]; simp [gamma]
  · rename_i hc
    rw [g5, if_neg (fun hh => hc (hiff.1 hh))]
    have hb : ¬ beta (setSpecial s s.cfg.numRL (rL s + 1)) = gamma (setSpecial s s.cfg.numRL (rL s + 1)) := by
      intro hh; exact hc (hiff.1 (by simpa [beta, alpha, thresholdL, gamma] using hh))
    have hst : growStep s = setSpecial s s.cfg.numRL (rL s + 1) := by
      unfold growStep; dsimp only; rw [if_neg hb]
    exact ⟨rfl, fun k => by rw [hst]; rfl⟩

/-- The growth loop with the ring in order: one spill for each register that would be the 256th resident, oldest first. Short of
`L = 256`, `rS` stays at or below `rO` and cannot wrap. -/
theorem growBy_ring (n : Nat) {s : State} (h : RingOk s) (hn : (rL s).toNat + n ≤ 256)
    (hw : (rL s).toNat + n ≤ 255 ∨ (rO s).toNat + 8 < 2 ^ 64) :
    (rS (growBy n s)).toNat = (rS s).toNat + 8 * ((rO s).toNat / 8 - (rS s).toNat / 8 + (rL s).toNat + n - 255) ∧
    (∀ k, (rS s).toNat / 8 ≤ k → k < (rS (growBy n s)).toNat / 8 → stackEntry (growBy n s) k = generalAt s (BitVec.ofNat 8 k)) ∧
    ∀ k, k < (rS s).toNat / 8 → stackEntry (growBy n s) k = stackEntry s k := by
  induction n generalizing s with
  | zero =>
    have := h.2.2.2
    exact ⟨by rw [growBy]; omega, fun k h1 h2 => absurd h2 (by rw [growBy]; omega), fun k _ => rfl⟩
  | succ n ih =>
    obtain ⟨q1, q2⟩ := growStep_ring h (by omega) (by omega)
    obtain ⟨-, g2, -, g4, -⟩ := growStep_regs s
    have ho : (rO (growStep s)).toNat = (rO s).toNat := by rw [g2]
    obtain ⟨h1, h2, h3, h4⟩ := h
    rw [growBy]
    by_cases hc : (rO s).toNat / 8 - (rS s).toNat / 8 + (rL s).toNat = 255
    · rw [if_pos hc] at q2
      obtain ⟨q2, q3, q4⟩ := q2
      simp only [stackLen] at q3 q4
      have hlast : ∀ k, (rS s).toNat / 8 = k → stackEntry (growStep s) k = generalAt s (BitVec.ofNat 8 k) := by
        rintro k rfl; exact q3
      by_cases hz : n = 0
      · subst hz
        rw [growBy]
        exact ⟨by omega, fun k ha hb => hlast k (by omega), fun k hk => q4 k hk⟩
      · obtain ⟨i1, i2, i3⟩ := ih (s := growStep s) ⟨by omega, by omega, by omega, by omega⟩ (by omega) (by omega)
        refine ⟨by omega, fun k ha hb => ?_, fun k hk => by rw [i3 k (by omega), q4 k hk]⟩
        rcases Nat.lt_or_ge k ((rS (growStep s)).toNat / 8) with hk | hk
        · rw [i3 k hk]; exact hlast k (by omega)
        · rw [i2 k hk hb, g4]
    · rw [if_neg hc] at q2
      obtain ⟨q2, q3⟩ := q2
      obtain ⟨i1, i2, i3⟩ := ih (s := growStep s) ⟨by omega, by omega, by omega, by omega⟩ (by omega) (by omega)
      refine ⟨by omega, fun k ha hb => ?_, fun k hk => by rw [i3 k (by omega), q3 k]⟩
      rw [i2 k (by omega) hb, g4]

/-- The ring of a frame being popped: as `RingOk` with `L = 0`. -/
def PopOk (s : State) : Prop :=
  (rO s).toNat % 8 = 0 ∧ (rS s).toNat % 8 = 0 ∧ (rS s).toNat ≤ (rO s).toNat ∧ (rO s).toNat / 8 - (rS s).toNat / 8 ≤ 255

/-- `α` meets `γ` exactly when no older local is resident. -/
theorem alpha_eq_gamma {s : State} (h : PopOk s) : alpha s = gamma s ↔ (rO s).toNat = (rS s).toNat := by
  obtain ⟨h1, h2, h3, h4⟩ := h
  rw [alpha, gamma, ofNat8_eq]; omega

/-- One pop step with the ring in order and something left to pop: `rO` 8 lower; a fill exactly when nothing is resident. -/
theorem popStep_ring {s : State} (h : PopOk s) (hO : 8 ≤ (rO s).toNat) :
    ∃ t, popStep s = .ok t ∧ PopOk t ∧ (rO t).toNat = (rO s).toNat - 8 ∧ rL t = rL s ∧ rG t = rG s ∧
      (∀ n, n ≠ s.cfg.numRO → n ≠ s.cfg.numRS → specialAt t n = specialAt s n) ∧
      if (rO s).toNat = (rS s).toNat then
        (rS t).toNat = (rS s).toNat - 8 ∧
        (∀ p, generalAt t p = if p = BitVec.ofNat 8 ((rS s).toNat / 8 - 1) then stackEntry s ((rS s).toNat / 8 - 1) else generalAt s p) ∧
        ∀ k, k < (rS s).toNat / 8 - 1 → stackEntry t k = stackEntry s k
      else rS t = rS s ∧ (∀ p, generalAt t p = generalAt s p) ∧ ∀ k, stackEntry t k = stackEntry s k := by
  have hag := alpha_eq_gamma h
  obtain ⟨h1, h2, h3, h4⟩ := h
  have hsub : ∀ x : Octa, 8 ≤ x.toNat → (x - 8).toNat = x.toNat - 8 := fun x hx => by
    rw [BitVec.toNat_sub_of_le (by simpa [BitVec.le_def] using hx)]; rfl
  by_cases hc : (rO s).toNat = (rS s).toNat
  · have hne : stackLen s ≠ 0 := by simp only [stackLen]; omega
    obtain ⟨u, hu⟩ : ∃ u, fill s = .ok u := by unfold fill; rw [if_neg hne]; exact ⟨_, rfl⟩
    obtain ⟨-, f2, f3, f4, f5, f6, f7⟩ := fill_spec s hu
    have fs : ∀ n, n ≠ s.cfg.numRS → specialAt u n = specialAt s n := by
      intro n hn
      unfold fill at hu; rw [if_neg hne] at hu; simp only [Except.ok.injEq] at hu
      subst hu; rw [specialAt_setGeneral, specialAt_setRS, if_neg hn]
    have fc : u.cfg = s.cfg := by rw [fill_frame hu]
    have hst : popStep s = .ok (setSpecial u u.cfg.numRO (rO u - 8)) := by
      unfold popStep; rw [if_pos (hag.2 hc), hu]; dsimp only
      rw [if_neg (by rw [f3]; omega)]
    have hO' : (rO u - 8).toNat = (rO s).toNat - 8 := by rw [f3, hsub _ hO]
    refine ⟨_, hst, ?_, by rw [rO_setRO, hO'], by rw [rL_setRO, f4], by rw [rG_setRO, f5], ?_, ?_⟩
    · refine ⟨?_, ?_, ?_, ?_⟩ <;> simp only [rO_setRO, rS_setRO, hO', f2] <;> omega
    · intro n n1 n2; rw [specialAt_setSpecial, fc, if_neg n1, fs n n2]
    · rw [if_pos hc]
      refine ⟨by rw [rS_setRO, f2], fun p => ?_, fun k hk => f7 k hk⟩
      rw [generalAt_setSpecial, f6 p]
      have : gamma u = BitVec.ofNat 8 ((rS s).toNat / 8 - 1) := by
        rw [gamma, f2]; congr 1; omega
      rw [this]; rfl
  · have hst : popStep s = .ok (setSpecial s s.cfg.numRO (rO s - 8)) := by
      unfold popStep; rw [if_neg (fun hh => hc (hag.1 hh))]; dsimp only
      rw [if_neg (by omega)]
    have hO' := hsub _ hO
    refine ⟨_, hst, ?_, by rw [rO_setRO, hO'], rL_setRO _ _, rG_setRO _ _, ?_, ?_⟩
    · refine ⟨?_, ?_, ?_, ?_⟩ <;> simp only [rO_setRO, rS_setRO, hO'] <;> omega
    · intro n n1 n2; rw [specialAt_setSpecial, if_neg n1]
    · rw [if_neg hc]; exact ⟨rS_setRO _ _, fun p => rfl, fun k => rfl⟩

/-- The pop loop with the ring in order and enough pushed: `rO` back by `8 * n`, `rS` no higher than it, every register that was
filled in the slot it was spilled from. -/
theorem popSteps_ring (n : Nat) {s : State} (h : PopOk s) (hn : 8 * n ≤ (rO s).toNat) (h256 : n ≤ 256) :
    ∃ t, popSteps n s = .ok t ∧ PopOk t ∧ (rO t).toNat = (rO s).toNat - 8 * n ∧ (rS t).toNat = min (rS s).toNat (rO t).toNat ∧
      rL t = rL s ∧ rG t = rG s ∧ (∀ n, n ≠ s.cfg.numRO → n ≠ s.cfg.numRS → specialAt t n = specialAt s n) ∧
      (∀ k, (rS t).toNat / 8 ≤ k → k < (rS s).toNat / 8 → generalAt t (BitVec.ofNat 8 k) = stackEntry s k) ∧
      (∀ p, (∀ k, (rS t).toNat / 8 ≤ k → k < (rS s).toNat / 8 → p ≠ BitVec.ofNat 8 k) → generalAt t p = generalAt s p) ∧
      ∀ k, k < (rS t).toNat / 8 → stackEntry t k = stackEntry s k := by
  induction n generalizing s with
  | zero =>
    obtain ⟨h1, h2, h3, h4⟩ := h
    exact ⟨s, rfl, ⟨h1, h2, h3, h4⟩, by omega, by omega, rfl, rfl, fun _ _ _ => rfl, fun k a b => by omega, fun _ _ => rfl, fun _ _ => rfl⟩
  | succ n ih =>
    obtain ⟨u, hu, hok, u1, u2, u3, u4, u5⟩ := popStep_ring h (by omega)
    obtain ⟨t, ht, tok, t1, t2, t3, t4, t5, t6, t7, t8⟩ := ih hok (by omega) (by omega)
    obtain ⟨h1, h2, h3, h4⟩ := h
    have uc : u.cfg = s.cfg := by rw [popStep_frame hu]
    refine ⟨t, by rw [popSteps, hu]; exact ht, tok, by omega, ?_, t3.trans u2, t4.trans u3, ?_, ?_, ?_, ?_⟩
    · split at u5
      · rw [t2, u5.1]; omega
      · rw [t2, u5.1]
    · intro m m1 m2; rw [t5 m (by rwa [uc]) (by rwa [uc]), u4 m m1 m2]
    · intro k k1 k2
      split at u5
      · obtain ⟨v1, v2, v3⟩ := u5
        by_cases hk : k < (rS u).toNat / 8
        · rw [t6 k k1 hk, v3 k (by omega)]
        · have hk' : k = (rS s).toNat / 8 - 1 := by omega
          subst hk'
          rw [t7, v2, if_pos rfl]
          intro j j1 j2 hj
          rw [ofNat8_eq] at hj; omega
      · obtain ⟨v1, v2, v3⟩ := u5
        rw [t6 k k1 (by rw [v1]; exact k2), v3]
    · intro p hp
      split at u5
      · obtain ⟨v1, v2, v3⟩ := u5
        rw [t7 p (fun k a b => hp k a (by omega)), v2, if_neg (hp _ (by omega) (by omega))]
      · obtain ⟨v1, v2, v3⟩ := u5
        rw [t7 p (fun k a b => hp k a (by rw [v1] at b; exact b)), v2]
    · intro k hk
      split at u5
      · obtain ⟨v1, v2, v3⟩ := u5
        rw [t8 k hk, v3 k (by omega)]
      · rw [t8 k hk, u5.2.2]

/-- The pop loop with the ring in order and too little pushed underflows the stack (R308, R388). -/
theorem popSteps_underflow (n : Nat) {s : State} (h : PopOk s) (hn : (rO s).toNat < 8 * n) : popSteps n s = .error .stackUnderflow := by
  induction n generalizing s with
  | zero => omega
  | succ n ih =>
    by_cases hO : 8 ≤ (rO s).toNat
    · obtain ⟨u, hu, hok, u1, -⟩ := popStep_ring h hO
      rw [popSteps, hu]; exact ih hok (by omega)
    · have hag := (alpha_eq_gamma h).2 (by obtain ⟨h1, h2, h3, h4⟩ := h; omega)
      have hf : fill s = .error .stackUnderflow := (fill_error s _).2 ⟨by obtain ⟨h1, h2, h3, h4⟩ := h; simp only [stackLen]; omega, rfl⟩
      rw [popSteps, popStep, if_pos hag, hf]

/-- A growth step keeps `rS` a multiple of 8 (R39). -/
theorem growStep_rS_aligned (s : State) (h : (rS s).toNat % 8 = 0) : (rS (growStep s)).toNat % 8 = 0 := by
  rw [(growStep_regs s).2.2.2.2]; split
  · rw [BitVec.toNat_add]; simp only [show (8:Octa).toNat = 8 from rfl]; omega
  · exact h

/-- Growth keeps `rS` a multiple of 8 (R39). -/
theorem growBy_rS_aligned (n : Nat) (s : State) (h : (rS s).toNat % 8 = 0) : (rS (growBy n s)).toNat % 8 = 0 := by
  induction n generalizing s with
  | zero => exact h
  | succ n ih => exact ih _ (growStep_rS_aligned s h)

/-- A pop step keeps `rO` and `rS` multiples of 8, `L` and `G` (R39). -/
theorem popStep_aligned {s t : State} (h : popStep s = .ok t) :
    ((rO s).toNat % 8 = 0 → (rO t).toNat % 8 = 0) ∧ ((rS s).toNat % 8 = 0 → (rS t).toNat % 8 = 0) ∧ rL t = rL s ∧ rG t = rG s := by
  unfold popStep at h
  split at h
  · simp at h
  · rename_i u hu
    split at h
    · simp at h
    · rename_i hlt
      simp only [Except.ok.injEq] at h
      subst h
      have hu' : rO u = rO s ∧ ((rS s).toNat % 8 = 0 → (rS u).toNat % 8 = 0) ∧ rL u = rL s ∧ rG u = rG s := by
        split at hu
        · obtain ⟨f1, f2, f3, f4, f5, -⟩ := fill_spec s hu
          exact ⟨f3, fun h => by rw [f2]; omega, f4, f5⟩
        · simp only [Except.ok.injEq] at hu; subst hu; exact ⟨rfl, id, rfl, rfl⟩
      rw [rO_setRO, rS_setRO, rL_setRO, rG_setRO]
      refine ⟨fun h => ?_, hu'.2.1, hu'.2.2.1, hu'.2.2.2⟩
      rw [BitVec.toNat_sub_of_le (by simp [BitVec.le_def]; omega), hu'.1]
      simp only [show (8:Octa).toNat = 8 from rfl]; rw [hu'.1] at hlt; omega

/-- Pop steps keep `rO` and `rS` multiples of 8, `L` and `G` (R39). -/
theorem popSteps_aligned (n : Nat) {s t : State} (h : popSteps n s = .ok t) :
    ((rO s).toNat % 8 = 0 → (rO t).toNat % 8 = 0) ∧ ((rS s).toNat % 8 = 0 → (rS t).toNat % 8 = 0) ∧ rL t = rL s ∧ rG t = rG s := by
  induction n generalizing s with
  | zero => simp only [popSteps, Except.ok.injEq] at h; subst h; exact ⟨id, id, rfl, rfl⟩
  | succ n ih =>
    rw [popSteps] at h
    split at h
    · simp at h
    · rename_i u hu
      obtain ⟨a1, a2, a3, a4⟩ := popStep_aligned hu
      obtain ⟨b1, b2, b3, b4⟩ := ih h
      exact ⟨b1 ∘ a1, b2 ∘ a2, b3.trans a3, b4.trans a4⟩

end Sys2Proof.Machine
end

