-- ==== Sys2Proof/Laws/Words.lean ====
section
/-! SUPPORT. Ports, raw forms, bytes and values of words: round trips and bounds. -/

namespace Sys2Proof

/-- Bit `i` of the raw form: the sign at 30, the magnitude below. -/
theorem mixRaw_getLsbD (w : MixWord) (i : Nat) :
    (mixRaw w).getLsbD i = if i < 30 then w.mag.getLsbD i else (decide (i = 30) && w.sign) := by
  change BitVec.getLsbD (w := 1 + 30) (BitVec.ofBool w.sign ++ w.mag) i = _
  rw [BitVec.getLsbD_append]
  split
  · rfl
  · rename_i h
    by_cases h30 : i = 30
    · subst h30; simp
    · have : ¬ i - 30 < 1 := by omega
      rw [BitVec.getLsbD_of_ge _ _ (by omega)]
      simp [h30]

@[simp] theorem mixOfRaw_mixRaw (w : MixWord) : mixOfRaw (mixRaw w) = w := by
  obtain ⟨sgn, m⟩ := w
  simp only [mixOfRaw, MixWord.mk.injEq]
  refine ⟨by rw [mixRaw_getLsbD]; rfl, BitVec.eq_of_getLsbD_eq fun i hi => ?_⟩
  simp [mixRaw_getLsbD, hi]

@[simp] theorem mixRaw_mixOfRaw (r : BitVec 31) : mixRaw (mixOfRaw r) = r := by
  refine BitVec.eq_of_getLsbD_eq fun i hi => ?_
  rw [mixRaw_getLsbD]
  split
  · simp [mixOfRaw, *]
  · obtain rfl : i = 30 := by omega
    simp [mixOfRaw]

@[simp] theorem portMix_mixPort (w : MixWord) : portMix (mixPort w) = w := by
  simp only [portMix, mixPort]
  rw [BitVec.setWidth_setWidth_of_le _ (by omega), BitVec.setWidth_eq, mixOfRaw_mixRaw]

@[simp] theorem portBool_boolPort (b : Bool) : portBool (boolPort b) = b := by cases b <;> rfl

theorem portBits_bitsPort {w : Nat} (h : w ≤ 64) (v : BitVec w) : portBits w (bitsPort v) = v := by
  simp only [portBits, bitsPort]
  rw [BitVec.setWidth_setWidth_of_le _ h, BitVec.setWidth_eq]

theorem bitsPort_toNat {w : Nat} (h : w ≤ 64) (v : BitVec w) : (bitsPort v).toNat = v.toNat := by
  have := v.isLt
  have : 2 ^ w ≤ 2 ^ 64 := Nat.pow_le_pow_right (by omega) h
  rw [bitsPort, BitVec.toNat_setWidth, Nat.mod_eq_of_lt (by omega)]

theorem mixRaw_toNat (w : MixWord) : (mixRaw w).toNat = w.sign.toNat * 2 ^ 30 + w.mag.toNat := by
  have := w.mag.isLt
  simp only [mixRaw, BitVec.toNat_append, BitVec.toNat_ofBool]
  rw [← Nat.shiftLeft_add_eq_or_of_lt this, Nat.shiftLeft_eq]

/-- The raw form of a word on a port is `sign * 2^30 + magnitude` (95_test_vectors.md). -/
theorem mixPort_toNat (w : MixWord) : (mixPort w).toNat = w.sign.toNat * 2 ^ 30 + w.mag.toNat := by
  have := w.mag.isLt
  have : w.sign.toNat ≤ 1 := w.sign.toNat_le
  rw [mixPort, BitVec.toNat_setWidth, mixRaw_toNat, Nat.mod_eq_of_lt (by omega)]

theorem mixPort_inj {v w : MixWord} : mixPort v = mixPort w ↔ v = w :=
  ⟨fun h => by rw [← portMix_mixPort v, h, portMix_mixPort], fun h => h ▸ rfl⟩

namespace Machine

theorem magOf_lt (w : MixWord) : magOf w < 2 ^ 30 := w.mag.isLt

theorem magOf_mixword (sgn : Bool) (m : Nat) : magOf (mixword sgn m) = m % 2 ^ 30 := by simp [magOf, mixword]

@[simp] theorem mixword_sign (sgn : Bool) (m : Nat) : (mixword sgn m).sign = sgn := rfl

@[simp] theorem mixword_magOf (w : MixWord) : mixword w.sign (magOf w) = w := by simp [mixword, magOf]

theorem mixWord_ext_magOf {v w : MixWord} (hs : v.sign = w.sign) (hm : magOf v = magOf w) : v = w := by
  rw [← mixword_magOf v, ← mixword_magOf w, hs, hm]

theorem valOf_natAbs (w : MixWord) : (valOf w).natAbs = magOf w := by
  unfold valOf magOf; split <;> simp

theorem valOf_bounds (w : MixWord) : -(2 ^ 30 - 1) ≤ valOf w ∧ valOf w ≤ 2 ^ 30 - 1 := by
  have := w.mag.isLt
  unfold valOf; split <;> omega

theorem byteOf_lt (w : MixWord) (k : Nat) : byteOf w k < 64 := Nat.mod_lt _ (by omega)

theorem packBytes_lt (f : Nat → Nat) (n : Nat) : packBytes f n < 64 ^ n := by
  induction n with
  | zero => simp [packBytes]
  | succ n ih =>
    have : f (n + 1) % 64 < 64 := Nat.mod_lt _ (by omega)
    rw [packBytes, pow_succ]; omega

theorem packBytes_congr {f g : Nat → Nat} {n : Nat} (h : ∀ k, 1 ≤ k → k ≤ n → f k % 64 = g k % 64) :
    packBytes f n = packBytes g n := by
  induction n with
  | zero => rfl
  | succ n ih =>
    rw [packBytes, packBytes, ih (fun k h1 h2 => h k h1 (by omega)), h (n + 1) (by omega) le_rfl]

/-- Byte `k` of a packed magnitude is the `k`th byte packed. -/
theorem packBytes_byte (f : Nat → Nat) {n k : Nat} (h1 : 1 ≤ k) (h2 : k ≤ n) :
    packBytes f n / 64 ^ (n - k) % 64 = f k % 64 := by
  induction n with
  | zero => omega
  | succ n ih =>
    rcases Nat.lt_or_ge n k with h | h
    · obtain rfl : k = n + 1 := by omega
      simp [packBytes, Nat.add_mod]
    · rw [packBytes, show n + 1 - k = (n - k) + 1 by omega, pow_succ', ← Nat.div_div_eq_div_mul,
        show (packBytes f n * 64 + f (n + 1) % 64) / 64 = packBytes f n by omega]
      exact ih h

/-- A number below `64^n` is packed from its own bytes. -/
theorem packBytes_self (n m : Nat) : packBytes (fun k => m / 64 ^ (n - k) % 64) n = m % 64 ^ n := by
  have key : ∀ j, j ≤ n → packBytes (fun k => m / 64 ^ (n - k) % 64) j = m / 64 ^ (n - j) % 64 ^ j := by
    intro j
    induction j with
    | zero => simp [packBytes, Nat.mod_one]
    | succ j ih =>
      intro hj
      rw [packBytes, ih (by omega), Nat.mod_mod, show n - j = (n - (j + 1)) + 1 by omega, pow_succ 64 (n - (j + 1)),
        ← Nat.div_div_eq_div_mul, pow_succ' 64 j, Nat.mod_mul, Nat.mul_comm]
      omega
  simpa using key n le_rfl

/-- The magnitude of a word is packed from its five bytes (R21). -/
theorem packBytes_byteOf (w : MixWord) : packBytes (byteOf w) 5 = magOf w := by
  have h := packBytes_self 5 (magOf w)
  have : magOf w < 64 ^ 5 := magOf_lt w
  rw [Nat.mod_eq_of_lt this] at h
  exact h

/-- Byte `k` of the word packed from `f`. -/
theorem byteOf_mixword_pack (sgn : Bool) (f : Nat → Nat) {k : Nat} (h1 : 1 ≤ k) (h2 : k ≤ 5) :
    byteOf (mixword sgn (packBytes f 5)) k = f k % 64 := by
  have : packBytes f 5 < 2 ^ 30 := packBytes_lt f 5
  rw [byteOf, magOf_mixword, Nat.mod_eq_of_lt this, packBytes_byte f h1 h2]

/-- Two words with one sign and the same five bytes are one word. -/
theorem mixWord_ext_bytes {v w : MixWord} (hs : v.sign = w.sign) (h : ∀ k, 1 ≤ k → k ≤ 5 → byteOf v k = byteOf w k) : v = w := by
  refine mixWord_ext_magOf hs ?_
  rw [← packBytes_byteOf v, ← packBytes_byteOf w]
  exact packBytes_congr (fun k h1 h2 => by rw [h k h1 h2])

theorem compareInt_less {a b : Int} : compareInt a b = .less ↔ a < b := by
  unfold compareInt; split
  · simp [*]
  · split <;> simp [*]

theorem compareInt_equal {a b : Int} : compareInt a b = .equal ↔ a = b := by
  unfold compareInt; split
  · simp; omega
  · split <;> simp [*]

theorem compareInt_greater {a b : Int} : compareInt a b = .greater ↔ b < a := by
  unfold compareInt; split
  · simp; omega
  · split <;> simp <;> omega

theorem cmpOfCode_cmpCode (c : Cmp) : cmpOfCode (cmpCode c) = some c := by cases c <;> rfl

theorem fieldCount_le {f : FieldCode} (h : fieldValid f = true) : fieldCount f ≤ 5 := by
  simp only [fieldValid, decide_eq_true_eq] at h
  unfold fieldCount fieldLo; omega

end Machine
end Sys2Proof
end

