-- ==== Sys2Proof/Tests/Slice0.lean ====
section
/-! SUPPORT. The model's own tests: the operand checks refuse an ill-formed term of each kind, every opcode is decoded from a word
written out from the spec's encoding, one or two single steps of each command against the vectors of spec/95_test_vectors.md (a
case not in that file is worked by hand from the rule its comment names), and for each statement a witness of its hypotheses. -/

namespace Sys2Proof.Tests

open Sys2Proof.Machine Sys2Proof.Claims

/-! ## Small helpers -/

/-- A MIX word from its five bytes, as the vectors write them. -/
def word (neg : Bool) (a b c d e : Nat) : MixWord := ⟨neg, BitVec.ofNat 30 ((((a * 64 + b) * 64 + c) * 64 + d) * 64 + e)⟩

/-- `A0`, `B0` and the largest word of the vectors (95_test_vectors.md section 1). -/
def wA : MixWord := word false 1 2 3 4 5
def wB : MixWord := word true 6 7 8 9 10
def wMax : MixWord := word false 63 63 63 63 63

/-- The state after a command that answers a next state. -/
def after (i : Instr) (s : State := State.reset) : State :=
  match exec i s with
  | .next t => t
  | _ => s

/-- The raw number of a word, as it stands on a result port. -/
def raw (neg : Bool) (a b c d e : Nat) : Nat := rawNum (word neg a b c d e)

def ans (i : Instr) (s : State := State.reset) : Nat := (after i s).resp.r0.toNat
def ans2 (i : Instr) (s : State := State.reset) : Nat × Nat := ((after i s).resp.r0.toNat, (after i s).resp.r1.toNat)
def ansOvf (i : Instr) (s : State := State.reset) : Nat × Bool := ((after i s).resp.r0.toNat, (after i s).resp.ovf)
def kind (i : Instr) (s : State := State.reset) : Nat := (cvCode (after i s).cvKind).toNat

/-- The window registers `(rO, rS, L)`, as the vectors write them. -/
def window (s : State) : Nat × Nat × Nat := ((rO s).toNat, (rS s).toNat, (rL s).toNat)

/-- Reset with other window registers. -/
def windowed (o sp l : Nat) : State :=
  { State.reset with special :=
      ((State.reset.special.set 10 (BitVec.ofNat 64 o)).set 11 (BitVec.ofNat 64 sp)).set 20 (BitVec.ofNat 64 l) }

/-- A block without alignment checking. -/
def unchecked : State := State.resetWith { Config.standard with checkAlignment := false }

/-- A block of 100 MIX words. -/
def small : State := State.resetWith { Config.standard with mixMemSize := 100, size_pos := by decide, size_le := by decide }

/-- The octa of the vectors at address 0x1000. -/
def octaAt1000 : State := after (.stO 0x0102030405060708 0x1000)

/-- The fatal state after a violation. -/
def broken : State := after (.mxMake false 0x40000000)

/-- Reset with inputs pending. -/
def pending (l : List Input) : State := { State.reset with inputs := l }

/-! ## Well-formedness: each check refuses an ill-formed term and takes a well-formed one at its boundary -/

theorem test_wf_field_pair : ¬ (Instr.fsEnc 3 2).WellFormed ∧ ¬ (Instr.fsEnc 0 6).WellFormed ∧ (Instr.fsEnc 5 5).WellFormed := by decide
theorem test_wf_field_code : ¬ (Instr.fsDec 46).WellFormed ∧ ¬ (Instr.mxFget wA 6).WellFormed ∧ ¬ (Instr.mxFput wA wB 8).WellFormed ∧
    ¬ (Instr.mmLoad 0 63).WellFormed ∧ ¬ (Instr.mmStore wA 0 14).WellFormed ∧ (Instr.mmLoad 0 45).WellFormed := by decide
theorem test_wf_magnitude : ¬ (Instr.mxMake true 0x40000000).WellFormed ∧ (Instr.mxMake true 0x3FFFFFFF).WellFormed := by decide
theorem test_wf_integer : ¬ (Instr.mxFromint 0xC0000000).WellFormed ∧ ¬ (Instr.mxFromint 0x80000000).WellFormed ∧
    (Instr.mxFromint 0xC0000001).WellFormed := by decide
theorem test_wf_byte : ¬ (Instr.mxGetb wA 0).WellFormed ∧ ¬ (Instr.mxGetb wA 6).WellFormed ∧ ¬ (Instr.mxSetb wA 0 1).WellFormed ∧
    ¬ (Instr.mxSetb wA 1 64).WellFormed ∧ (Instr.mxSetb wA 5 63).WellFormed := by decide
theorem test_wf_register : ¬ (Instr.mrRead 9).WellFormed ∧ ¬ (Instr.mrWrite wA 15).WellFormed ∧ (Instr.mrWrite wA 8).WellFormed := by decide
theorem test_wf_comparison : ¬ (Instr.mrSetci 3).WellFormed ∧ (Instr.mrSetci 2).WellFormed := by decide
theorem test_wf_frame_size : ¬ (Instr.popf 257).WellFormed ∧ (Instr.popf 256).WellFormed := by decide

/-! ## Decoding: every opcode, from the ports written out; a port carries more bits than its operand has -/

/-- MIX arithmetic, opcodes 0000 0000 to 0010 0001 (R104, R101). -/
theorem test_decode_mxa_1 :
    decode ⟨0b00000000, 0xF1E2D3C4B5A6978D, 0x8F7E6D5C4B3A291B, 0, []⟩ = .ok (.fsEnc 0x5 0x3) ∧
    decode ⟨0b00000001, 0xF1E2D3C4B5A6978D, 0, 0, []⟩ = .ok (.fsDec 0xD) ∧
    decode ⟨0b00000010, 0xF1E2D3C4B5A6978D, 0, 0, []⟩ = .ok (.maMake 0xF1E2D3C4B5A6978D) ∧
    decode ⟨0b00001000, 1, 0x8F7E6D5C4B3A291B, 0, []⟩ = .ok (.mxMake true 0x4B3A291B) ∧
    decode ⟨0b00001001, 0xF1E2D3C4B5A6978D, 0, 0, []⟩ = .ok (.mxFromint 0xB5A6978D) ∧
    decode ⟨0b00001010, 0xF1E2D3C4B5A6978D, 0, 0, []⟩ = .ok (.mxTrunc 0xB5A6978D) ∧
    decode ⟨0b00001011, 0b1000001000010000011000100000101, 0, 0, []⟩ = .ok (.mxToint ⟨true, 0b000001000010000011000100000101⟩) ∧
    decode ⟨0b00001100, 0b1000001000010000011000100000101, 0, 0, []⟩ = .ok (.mxSign ⟨true, 0b000001000010000011000100000101⟩) ∧
    decode ⟨0b00001101, 0b1000001000010000011000100000101, 0, 0, []⟩ = .ok (.mxMag ⟨true, 0b000001000010000011000100000101⟩) ∧
    decode ⟨0b00001110, 0b1000001000010000011000100000101, 0x8F7E6D5C4B3A291B, 0, []⟩ = .ok (.mxGetb ⟨true, 0b000001000010000011000100000101⟩ 0x3) ∧
    decode ⟨0b00001111, 0b1000001000010000011000100000101, 0x8F7E6D5C4B3A291B, 0x1122334455667786, []⟩ = .ok (.mxSetb ⟨true, 0b000001000010000011000100000101⟩ 0x3 0x86) ∧
    decode ⟨0b00010000, 0b1000001000010000011000100000101, 0, 0, []⟩ = .ok (.mxNeg ⟨true, 0b000001000010000011000100000101⟩) ∧
    decode ⟨0b00010001, 0b1000001000010000011000100000101, 0b0000110000111001000001001001010, 0, []⟩ = .ok (.mxAdd ⟨true, 0b000001000010000011000100000101⟩ ⟨false, 0b000110000111001000001001001010⟩) ∧
    decode ⟨0b00010010, 0b1000001000010000011000100000101, 0b0000110000111001000001001001010, 0, []⟩ = .ok (.mxSub ⟨true, 0b000001000010000011000100000101⟩ ⟨false, 0b000110000111001000001001001010⟩) ∧
    decode ⟨0b00010011, 0b1000001000010000011000100000101, 0b0000110000111001000001001001010, 0, []⟩ = .ok (.mxMul ⟨true, 0b000001000010000011000100000101⟩ ⟨false, 0b000110000111001000001001001010⟩) ∧
    decode ⟨0b00010100, 0b1000001000010000011000100000101, 0b0000110000111001000001001001010, 0b1001011001100001101001110001111, []⟩ = .ok (.mxDiv ⟨true, 0b000001000010000011000100000101⟩ ⟨false, 0b000110000111001000001001001010⟩ ⟨true, 0b001011001100001101001110001111⟩) :=
  ⟨rfl, rfl, rfl, rfl, rfl, rfl, rfl, rfl, rfl, rfl, rfl, rfl, rfl, rfl, rfl, rfl⟩

/-- MIX arithmetic, opcodes 0000 0000 to 0010 0001 (R104, R101). -/
theorem test_decode_mxa_2 :
    decode ⟨0b00010101, 0b1000001000010000011000100000101, 0b0000110000111001000001001001010, 0, []⟩ = .ok (.mxCmp ⟨true, 0b000001000010000011000100000101⟩ ⟨false, 0b000110000111001000001001001010⟩) ∧
    decode ⟨0b00010110, 0b1000001000010000011000100000101, 0, 0, []⟩ = .ok (.mxIszero ⟨true, 0b000001000010000011000100000101⟩) ∧
    decode ⟨0b00010111, 0b1000001000010000011000100000101, 0b0000110000111001000001001001010, 0, []⟩ = .ok (.mxEqbits ⟨true, 0b000001000010000011000100000101⟩ ⟨false, 0b000110000111001000001001001010⟩) ∧
    decode ⟨0b00011000, 0b1000001000010000011000100000101, 0x8F7E6D5C4B3A291B, 0, []⟩ = .ok (.mxShl ⟨true, 0b000001000010000011000100000101⟩ 0x91B) ∧
    decode ⟨0b00011001, 0b1000001000010000011000100000101, 0x8F7E6D5C4B3A291B, 0, []⟩ = .ok (.mxShr ⟨true, 0b000001000010000011000100000101⟩ 0x91B) ∧
    decode ⟨0b00011010, 0b1000001000010000011000100000101, 0x8F7E6D5C4B3A291B, 0, []⟩ = .ok (.mxRol ⟨true, 0b000001000010000011000100000101⟩ 0x91B) ∧
    decode ⟨0b00011011, 0b1000001000010000011000100000101, 0x8F7E6D5C4B3A291B, 0, []⟩ = .ok (.mxRor ⟨true, 0b000001000010000011000100000101⟩ 0x91B) ∧
    decode ⟨0b00011100, 0b1000001000010000011000100000101, 0b0000110000111001000001001001010, 0x1122334455667786, []⟩ = .ok (.mxShld ⟨true, 0b000001000010000011000100000101⟩ ⟨false, 0b000110000111001000001001001010⟩ 0x786) ∧
    decode ⟨0b00011101, 0b1000001000010000011000100000101, 0b0000110000111001000001001001010, 0x1122334455667786, []⟩ = .ok (.mxShrd ⟨true, 0b000001000010000011000100000101⟩ ⟨false, 0b000110000111001000001001001010⟩ 0x786) ∧
    decode ⟨0b00011110, 0b1000001000010000011000100000101, 0b0000110000111001000001001001010, 0x1122334455667786, []⟩ = .ok (.mxRold ⟨true, 0b000001000010000011000100000101⟩ ⟨false, 0b000110000111001000001001001010⟩ 0x786) ∧
    decode ⟨0b00011111, 0b1000001000010000011000100000101, 0b0000110000111001000001001001010, 0x1122334455667786, []⟩ = .ok (.mxRord ⟨true, 0b000001000010000011000100000101⟩ ⟨false, 0b000110000111001000001001001010⟩ 0x786) ∧
    decode ⟨0b00100000, 0b1000001000010000011000100000101, 0x8F7E6D5C4B3A291B, 0, []⟩ = .ok (.mxFget ⟨true, 0b000001000010000011000100000101⟩ 0x1B) ∧
    decode ⟨0b00100001, 0b1000001000010000011000100000101, 0b0000110000111001000001001001010, 0x1122334455667786, []⟩ = .ok (.mxFput ⟨true, 0b000001000010000011000100000101⟩ ⟨false, 0b000110000111001000001001001010⟩ 0x6) :=
  ⟨rfl, rfl, rfl, rfl, rfl, rfl, rfl, rfl, rfl, rfl, rfl, rfl, rfl⟩

/-- MIX memory, 0010 1000 to 0010 1110 (R104, R101). -/
theorem test_decode_mxm :
    decode ⟨0b00101000, 0xF1E2D3C4B5A6978D, 0x8F7E6D5C4B3A291B, 0, []⟩ = .ok (.mmLoad 0x78D 0x1B) ∧
    decode ⟨0b00101001, 0b1000001000010000011000100000101, 0x8F7E6D5C4B3A291B, 0x1122334455667786, []⟩ = .ok (.mmStore ⟨true, 0b000001000010000011000100000101⟩ 0x91B 0x6) ∧
    decode ⟨0b00101010, 0xF1E2D3C4B5A6978D, 0, 0, [0x01083105, 0x461C824A]⟩ = .ok (.mmLoadprog 0x78D [⟨false, 17314053⟩, ⟨true, 102531658⟩]) ∧
    decode ⟨0b00101011, 0xF1E2D3C4B5A6978D, 0, 0, [0x01083105, 0x461C824A]⟩ = .ok (.mmLoadimg 0x78D [⟨false, 17314053⟩, ⟨true, 102531658⟩]) ∧
    decode ⟨0b00101100, 0xF1E2D3C4B5A6978D, 0x8F7E6D5C4B3A291B, 0, []⟩ = .ok (.mmDump 0x78D 0x91B) ∧
    decode ⟨0b00101101, 0, 0, 0, []⟩ = .ok (.mmClear) ∧
    decode ⟨0b00101110, 0xF1E2D3C4B5A6978D, 0x8F7E6D5C4B3A291B, 0, []⟩ = .ok (.mmClrrng 0x78D 0x91B) :=
  ⟨rfl, rfl, rfl, rfl, rfl, rfl, rfl⟩

/-- MIX registers, 0011 0000 to 0011 0111 (R104, R101). -/
theorem test_decode_mxr :
    decode ⟨0b00110000, 0xF1E2D3C4B5A6978D, 0, 0, []⟩ = .ok (.mrRead 0xD) ∧
    decode ⟨0b00110001, 0b1000001000010000011000100000101, 0x8F7E6D5C4B3A291B, 0, []⟩ = .ok (.mrWrite ⟨true, 0b000001000010000011000100000101⟩ 0xB) ∧
    decode ⟨0b00110010, 0xF1E2D3C4B5A6978D, 0x8F7E6D5C4B3A291B, 0, []⟩ = .ok (.mrEa 0x78D 0x3) ∧
    decode ⟨0b00110011, 0xF1E2D3C4B5A6978D, 0, 0, []⟩ = .ok (.mrIdxoff 0x5) ∧
    decode ⟨0b00110100, 0, 0, 0, []⟩ = .ok (.mrGetov) ∧
    decode ⟨0b00110101, 1, 0, 0, []⟩ = .ok (.mrSetov true) ∧
    decode ⟨0b00110110, 0, 0, 0, []⟩ = .ok (.mrGetci) ∧
    decode ⟨0b00110111, 0xF1E2D3C4B5A6978D, 0, 0, []⟩ = .ok (.mrSetci 0x1) :=
  ⟨rfl, rfl, rfl, rfl, rfl, rfl, rfl, rfl⟩

/-- MMIX wrapping arithmetic, `op[1:0]` the width (R104, R101). -/
theorem test_decode_mmi_wrapping :
    decode ⟨0b01000000, 0xF1E2D3C4B5A6978D, 0x8F7E6D5C4B3A291B, 0, []⟩ = .ok (.addB 0x8D 0x1B) ∧
    decode ⟨0b01000001, 0xF1E2D3C4B5A6978D, 0x8F7E6D5C4B3A291B, 0, []⟩ = .ok (.addW 0x978D 0x291B) ∧
    decode ⟨0b01000010, 0xF1E2D3C4B5A6978D, 0x8F7E6D5C4B3A291B, 0, []⟩ = .ok (.addT 0xB5A6978D 0x4B3A291B) ∧
    decode ⟨0b01000011, 0xF1E2D3C4B5A6978D, 0x8F7E6D5C4B3A291B, 0, []⟩ = .ok (.addO 0xF1E2D3C4B5A6978D 0x8F7E6D5C4B3A291B) ∧
    decode ⟨0b01000100, 0xF1E2D3C4B5A6978D, 0x8F7E6D5C4B3A291B, 0, []⟩ = .ok (.subB 0x8D 0x1B) ∧
    decode ⟨0b01000101, 0xF1E2D3C4B5A6978D, 0x8F7E6D5C4B3A291B, 0, []⟩ = .ok (.subW 0x978D 0x291B) ∧
    decode ⟨0b01000110, 0xF1E2D3C4B5A6978D, 0x8F7E6D5C4B3A291B, 0, []⟩ = .ok (.subT 0xB5A6978D 0x4B3A291B) ∧
    decode ⟨0b01000111, 0xF1E2D3C4B5A6978D, 0x8F7E6D5C4B3A291B, 0, []⟩ = .ok (.subO 0xF1E2D3C4B5A6978D 0x8F7E6D5C4B3A291B) ∧
    decode ⟨0b01001000, 0xF1E2D3C4B5A6978D, 0x8F7E6D5C4B3A291B, 0, []⟩ = .ok (.mulB 0x8D 0x1B) ∧
    decode ⟨0b01001001, 0xF1E2D3C4B5A6978D, 0x8F7E6D5C4B3A291B, 0, []⟩ = .ok (.mulW 0x978D 0x291B) ∧
    decode ⟨0b01001010, 0xF1E2D3C4B5A6978D, 0x8F7E6D5C4B3A291B, 0, []⟩ = .ok (.mulT 0xB5A6978D 0x4B3A291B) ∧
    decode ⟨0b01001011, 0xF1E2D3C4B5A6978D, 0x8F7E6D5C4B3A291B, 0, []⟩ = .ok (.mulO 0xF1E2D3C4B5A6978D 0x8F7E6D5C4B3A291B) :=
  ⟨rfl, rfl, rfl, rfl, rfl, rfl, rfl, rfl, rfl, rfl, rfl, rfl⟩

/-- MMIX arithmetic with overflow (R104, R101). -/
theorem test_decode_mmi_overflow_1 :
    decode ⟨0b01001100, 0xF1E2D3C4B5A6978D, 0x8F7E6D5C4B3A291B, 0, []⟩ = .ok (.adduoB 0x8D 0x1B) ∧
    decode ⟨0b01001101, 0xF1E2D3C4B5A6978D, 0x8F7E6D5C4B3A291B, 0, []⟩ = .ok (.adduoW 0x978D 0x291B) ∧
    decode ⟨0b01001110, 0xF1E2D3C4B5A6978D, 0x8F7E6D5C4B3A291B, 0, []⟩ = .ok (.adduoT 0xB5A6978D 0x4B3A291B) ∧
    decode ⟨0b01001111, 0xF1E2D3C4B5A6978D, 0x8F7E6D5C4B3A291B, 0, []⟩ = .ok (.adduoO 0xF1E2D3C4B5A6978D 0x8F7E6D5C4B3A291B) ∧
    decode ⟨0b01010000, 0xF1E2D3C4B5A6978D, 0x8F7E6D5C4B3A291B, 0, []⟩ = .ok (.addsoB 0x8D 0x1B) ∧
    decode ⟨0b01010001, 0xF1E2D3C4B5A6978D, 0x8F7E6D5C4B3A291B, 0, []⟩ = .ok (.addsoW 0x978D 0x291B) ∧
    decode ⟨0b01010010, 0xF1E2D3C4B5A6978D, 0x8F7E6D5C4B3A291B, 0, []⟩ = .ok (.addsoT 0xB5A6978D 0x4B3A291B) ∧
    decode ⟨0b01010011, 0xF1E2D3C4B5A6978D, 0x8F7E6D5C4B3A291B, 0, []⟩ = .ok (.addsoO 0xF1E2D3C4B5A6978D 0x8F7E6D5C4B3A291B) ∧
    decode ⟨0b01010100, 0xF1E2D3C4B5A6978D, 0x8F7E6D5C4B3A291B, 0, []⟩ = .ok (.subuoB 0x8D 0x1B) ∧
    decode ⟨0b01010101, 0xF1E2D3C4B5A6978D, 0x8F7E6D5C4B3A291B, 0, []⟩ = .ok (.subuoW 0x978D 0x291B) ∧
    decode ⟨0b01010110, 0xF1E2D3C4B5A6978D, 0x8F7E6D5C4B3A291B, 0, []⟩ = .ok (.subuoT 0xB5A6978D 0x4B3A291B) ∧
    decode ⟨0b01010111, 0xF1E2D3C4B5A6978D, 0x8F7E6D5C4B3A291B, 0, []⟩ = .ok (.subuoO 0xF1E2D3C4B5A6978D 0x8F7E6D5C4B3A291B) ∧
    decode ⟨0b01011000, 0xF1E2D3C4B5A6978D, 0x8F7E6D5C4B3A291B, 0, []⟩ = .ok (.subsoB 0x8D 0x1B) ∧
    decode ⟨0b01011001, 0xF1E2D3C4B5A6978D, 0x8F7E6D5C4B3A291B, 0, []⟩ = .ok (.subsoW 0x978D 0x291B) ∧
    decode ⟨0b01011010, 0xF1E2D3C4B5A6978D, 0x8F7E6D5C4B3A291B, 0, []⟩ = .ok (.subsoT 0xB5A6978D 0x4B3A291B) ∧
    decode ⟨0b01011011, 0xF1E2D3C4B5A6978D, 0x8F7E6D5C4B3A291B, 0, []⟩ = .ok (.subsoO 0xF1E2D3C4B5A6978D 0x8F7E6D5C4B3A291B) :=
  ⟨rfl, rfl, rfl, rfl, rfl, rfl, rfl, rfl, rfl, rfl, rfl, rfl, rfl, rfl, rfl, rfl⟩

/-- MMIX arithmetic with overflow (R104, R101). -/
theorem test_decode_mmi_overflow_2 :
    decode ⟨0b01011100, 0xF1E2D3C4B5A6978D, 0x8F7E6D5C4B3A291B, 0, []⟩ = .ok (.muluoB 0x8D 0x1B) ∧
    decode ⟨0b01011101, 0xF1E2D3C4B5A6978D, 0x8F7E6D5C4B3A291B, 0, []⟩ = .ok (.muluoW 0x978D 0x291B) ∧
    decode ⟨0b01011110, 0xF1E2D3C4B5A6978D, 0x8F7E6D5C4B3A291B, 0, []⟩ = .ok (.muluoT 0xB5A6978D 0x4B3A291B) ∧
    decode ⟨0b01011111, 0xF1E2D3C4B5A6978D, 0x8F7E6D5C4B3A291B, 0, []⟩ = .ok (.muluoO 0xF1E2D3C4B5A6978D 0x8F7E6D5C4B3A291B) ∧
    decode ⟨0b01100000, 0xF1E2D3C4B5A6978D, 0x8F7E6D5C4B3A291B, 0, []⟩ = .ok (.mulsoB 0x8D 0x1B) ∧
    decode ⟨0b01100001, 0xF1E2D3C4B5A6978D, 0x8F7E6D5C4B3A291B, 0, []⟩ = .ok (.mulsoW 0x978D 0x291B) ∧
    decode ⟨0b01100010, 0xF1E2D3C4B5A6978D, 0x8F7E6D5C4B3A291B, 0, []⟩ = .ok (.mulsoT 0xB5A6978D 0x4B3A291B) ∧
    decode ⟨0b01100011, 0xF1E2D3C4B5A6978D, 0x8F7E6D5C4B3A291B, 0, []⟩ = .ok (.mulsoO 0xF1E2D3C4B5A6978D 0x8F7E6D5C4B3A291B) :=
  ⟨rfl, rfl, rfl, rfl, rfl, rfl, rfl, rfl⟩

/-- The rest of the MMIX integer unit (R104, R101). -/
theorem test_decode_mmi_rest_1 :
    decode ⟨0b01100100, 0xF1E2D3C4B5A6978D, 0x8F7E6D5C4B3A291B, 0, []⟩ = .ok (.mulfuB 0x8D 0x1B) ∧
    decode ⟨0b01100101, 0xF1E2D3C4B5A6978D, 0x8F7E6D5C4B3A291B, 0, []⟩ = .ok (.mulfuW 0x978D 0x291B) ∧
    decode ⟨0b01100110, 0xF1E2D3C4B5A6978D, 0x8F7E6D5C4B3A291B, 0, []⟩ = .ok (.mulfuT 0xB5A6978D 0x4B3A291B) ∧
    decode ⟨0b01100111, 0xF1E2D3C4B5A6978D, 0x8F7E6D5C4B3A291B, 0, []⟩ = .ok (.mulfuO 0xF1E2D3C4B5A6978D 0x8F7E6D5C4B3A291B) ∧
    decode ⟨0b01101000, 0xF1E2D3C4B5A6978D, 0x8F7E6D5C4B3A291B, 0, []⟩ = .ok (.divuB 0x8D 0x1B) ∧
    decode ⟨0b01101001, 0xF1E2D3C4B5A6978D, 0x8F7E6D5C4B3A291B, 0, []⟩ = .ok (.divuW 0x978D 0x291B) ∧
    decode ⟨0b01101010, 0xF1E2D3C4B5A6978D, 0x8F7E6D5C4B3A291B, 0, []⟩ = .ok (.divuT 0xB5A6978D 0x4B3A291B) ∧
    decode ⟨0b01101011, 0xF1E2D3C4B5A6978D, 0x8F7E6D5C4B3A291B, 0, []⟩ = .ok (.divuO 0xF1E2D3C4B5A6978D 0x8F7E6D5C4B3A291B) ∧
    decode ⟨0b01101100, 0xF1E2D3C4B5A6978D, 0x8F7E6D5C4B3A291B, 0, []⟩ = .ok (.cmpuB 0x8D 0x1B) ∧
    decode ⟨0b01101101, 0xF1E2D3C4B5A6978D, 0x8F7E6D5C4B3A291B, 0, []⟩ = .ok (.cmpuW 0x978D 0x291B) ∧
    decode ⟨0b01101110, 0xF1E2D3C4B5A6978D, 0x8F7E6D5C4B3A291B, 0, []⟩ = .ok (.cmpuT 0xB5A6978D 0x4B3A291B) ∧
    decode ⟨0b01101111, 0xF1E2D3C4B5A6978D, 0x8F7E6D5C4B3A291B, 0, []⟩ = .ok (.cmpuO 0xF1E2D3C4B5A6978D 0x8F7E6D5C4B3A291B) ∧
    decode ⟨0b01110000, 0xF1E2D3C4B5A6978D, 0x8F7E6D5C4B3A291B, 0, []⟩ = .ok (.cmpsB 0x8D 0x1B) ∧
    decode ⟨0b01110001, 0xF1E2D3C4B5A6978D, 0x8F7E6D5C4B3A291B, 0, []⟩ = .ok (.cmpsW 0x978D 0x291B) ∧
    decode ⟨0b01110010, 0xF1E2D3C4B5A6978D, 0x8F7E6D5C4B3A291B, 0, []⟩ = .ok (.cmpsT 0xB5A6978D 0x4B3A291B) ∧
    decode ⟨0b01110011, 0xF1E2D3C4B5A6978D, 0x8F7E6D5C4B3A291B, 0, []⟩ = .ok (.cmpsO 0xF1E2D3C4B5A6978D 0x8F7E6D5C4B3A291B) :=
  ⟨rfl, rfl, rfl, rfl, rfl, rfl, rfl, rfl, rfl, rfl, rfl, rfl, rfl, rfl, rfl, rfl⟩

/-- The rest of the MMIX integer unit (R104, R101). -/
theorem test_decode_mmi_rest_2 :
    decode ⟨0b01110101, 0xF1E2D3C4B5A6978D, 0, 0, []⟩ = .ok (.splitW 0x978D) ∧
    decode ⟨0b01110110, 0xF1E2D3C4B5A6978D, 0, 0, []⟩ = .ok (.splitT 0xB5A6978D) ∧
    decode ⟨0b01110111, 0xF1E2D3C4B5A6978D, 0, 0, []⟩ = .ok (.splitO 0xF1E2D3C4B5A6978D) ∧
    decode ⟨0b01111001, 0xF1E2D3C4B5A6978D, 0x8F7E6D5C4B3A291B, 0, []⟩ = .ok (.joinW 0x8D 0x1B) ∧
    decode ⟨0b01111010, 0xF1E2D3C4B5A6978D, 0x8F7E6D5C4B3A291B, 0, []⟩ = .ok (.joinT 0x978D 0x291B) ∧
    decode ⟨0b01111011, 0xF1E2D3C4B5A6978D, 0x8F7E6D5C4B3A291B, 0, []⟩ = .ok (.joinO 0xB5A6978D 0x4B3A291B) ∧
    decode ⟨0b01111100, 0xF1E2D3C4B5A6978D, 0, 0, []⟩ = .ok (.truncB 0xF1E2D3C4B5A6978D) ∧
    decode ⟨0b01111101, 0xF1E2D3C4B5A6978D, 0, 0, []⟩ = .ok (.truncW 0xF1E2D3C4B5A6978D) ∧
    decode ⟨0b01111110, 0xF1E2D3C4B5A6978D, 0, 0, []⟩ = .ok (.truncT 0xF1E2D3C4B5A6978D) ∧
    decode ⟨0b01111111, 0xF1E2D3C4B5A6978D, 0, 0, []⟩ = .ok (.truncO 0xF1E2D3C4B5A6978D) ∧
    decode ⟨0b10000000, 0xF1E2D3C4B5A6978D, 0, 0, []⟩ = .ok (.svalB 0x8D) ∧
    decode ⟨0b10000001, 0xF1E2D3C4B5A6978D, 0, 0, []⟩ = .ok (.svalW 0x978D) ∧
    decode ⟨0b10000010, 0xF1E2D3C4B5A6978D, 0, 0, []⟩ = .ok (.svalT 0xB5A6978D) ∧
    decode ⟨0b10000011, 0xF1E2D3C4B5A6978D, 0, 0, []⟩ = .ok (.svalO 0xF1E2D3C4B5A6978D) :=
  ⟨rfl, rfl, rfl, rfl, rfl, rfl, rfl, rfl, rfl, rfl, rfl, rfl, rfl, rfl⟩

/-- MMIX memory, 1001 0000 to 1001 1001 (R104, R101). -/
theorem test_decode_mmm :
    decode ⟨0b10010000, 0xF1E2D3C4B5A6978D, 0, 0, []⟩ = .ok (.ldB 0xF1E2D3C4B5A6978D) ∧
    decode ⟨0b10010001, 0xF1E2D3C4B5A6978D, 0, 0, []⟩ = .ok (.ldW 0xF1E2D3C4B5A6978D) ∧
    decode ⟨0b10010010, 0xF1E2D3C4B5A6978D, 0, 0, []⟩ = .ok (.ldT 0xF1E2D3C4B5A6978D) ∧
    decode ⟨0b10010011, 0xF1E2D3C4B5A6978D, 0, 0, []⟩ = .ok (.ldO 0xF1E2D3C4B5A6978D) ∧
    decode ⟨0b10010100, 0xF1E2D3C4B5A6978D, 0x8F7E6D5C4B3A291B, 0, []⟩ = .ok (.stB 0x8D 0x8F7E6D5C4B3A291B) ∧
    decode ⟨0b10010101, 0xF1E2D3C4B5A6978D, 0x8F7E6D5C4B3A291B, 0, []⟩ = .ok (.stW 0x978D 0x8F7E6D5C4B3A291B) ∧
    decode ⟨0b10010110, 0xF1E2D3C4B5A6978D, 0x8F7E6D5C4B3A291B, 0, []⟩ = .ok (.stT 0xB5A6978D 0x8F7E6D5C4B3A291B) ∧
    decode ⟨0b10010111, 0xF1E2D3C4B5A6978D, 0x8F7E6D5C4B3A291B, 0, []⟩ = .ok (.stO 0xF1E2D3C4B5A6978D 0x8F7E6D5C4B3A291B) ∧
    decode ⟨0b10011000, 0xF1E2D3C4B5A6978D, 0, 0, [0x11, 0xFF]⟩ = .ok (.mbLoadimg 0xF1E2D3C4B5A6978D [0x11, 0xFF]) ∧
    decode ⟨0b10011001, 0xF1E2D3C4B5A6978D, 0x8F7E6D5C4B3A291B, 0, []⟩ = .ok (.mbDump 0xF1E2D3C4B5A6978D 0x8F7E6D5C4B3A291B) :=
  ⟨rfl, rfl, rfl, rfl, rfl, rfl, rfl, rfl, rfl, rfl⟩

/-- The register window, 1010 0000 to 1010 0101 (R104, R101). -/
theorem test_decode_mmr :
    decode ⟨0b10100000, 0xF1E2D3C4B5A6978D, 0, 0, []⟩ = .ok (.grRead 0x8D) ∧
    decode ⟨0b10100001, 0xF1E2D3C4B5A6978D, 0x8F7E6D5C4B3A291B, 0, []⟩ = .ok (.grWrite 0xF1E2D3C4B5A6978D 0x1B) ∧
    decode ⟨0b10100010, 0xF1E2D3C4B5A6978D, 0, 0, []⟩ = .ok (.srRead 0xD) ∧
    decode ⟨0b10100011, 0xF1E2D3C4B5A6978D, 0x8F7E6D5C4B3A291B, 0, []⟩ = .ok (.srWrite 0xF1E2D3C4B5A6978D 0x1B) ∧
    decode ⟨0b10100100, 0, 0, 0, []⟩ = .ok (.pushf) ∧
    decode ⟨0b10100101, 0xF1E2D3C4B5A6978D, 0, 0, []⟩ = .ok (.popf 0x18D) :=
  ⟨rfl, rfl, rfl, rfl, rfl, rfl⟩

/-! ## The MIX arithmetic unit (95_test_vectors.md, the tables of 40_mix_word_alu.md) -/

theorem test_fsEnc : ans (.fsEnc 4 5) = 37 := rfl
theorem test_fsEnc_invalid : kind (.fsEnc 3 2) = 1 := rfl
theorem test_fsDec : (after (.fsDec 19)).resp = { noResult with r0 := 2, r1 := 3, r2 := 0, r3 := 2 } := rfl
theorem test_fsDec_zero : (after (.fsDec 0)).resp = { noResult with r0 := 0, r1 := 0, r2 := 1, r3 := 0 } := rfl
theorem test_maMake : ans (.maMake 5000) = 904 := rfl
theorem test_mxMake : ans (.mxMake true 0) = 0x40000000 := rfl
theorem test_mxMake_large : kind (.mxMake false 0x40000000) = 2 := rfl
theorem test_mxFromint : ans (.mxFromint 0xFFFFFC18) = 0x400003E8 := rfl
theorem test_mxFromint_large : kind (.mxFromint 0xC0000000) = 2 := rfl
theorem test_mxTrunc : ans (.mxTrunc 0xC61C824A) = rawNum wB := rfl
theorem test_mxToint : ans (.mxToint wB) = 2 ^ 32 - 102531658 := rfl
theorem test_mxSign : ans (.mxSign (word true 0 0 0 0 0)) = 1 := rfl
theorem test_mxMag : ans (.mxMag wB) = 102531658 := rfl
theorem test_mxGetb : ans (.mxGetb wA 1) = 1 ∧ ans (.mxGetb wB 5) = 10 := ⟨rfl, rfl⟩
theorem test_mxGetb_position : kind (.mxGetb wA 0) = 3 ∧ kind (.mxGetb wA 6) = 3 := ⟨rfl, rfl⟩
theorem test_mxSetb : ans (.mxSetb wA 3 10) = raw false 1 2 10 4 5 := rfl
theorem test_mxSetb_order : kind (.mxSetb wA 3 64) = 4 ∧ kind (.mxSetb wA 0 64) = 3 := ⟨rfl, rfl⟩
theorem test_mxNeg_zero : ans (.mxNeg (word false 0 0 0 0 0)) = raw true 0 0 0 0 0 := rfl
theorem test_mxAdd : ansOvf (.mxAdd wA wB) = (raw true 5 5 5 5 5, false) := rfl
theorem test_mxAdd_overflow : ansOvf (.mxAdd wMax (word false 0 0 0 0 1)) = (raw false 0 0 0 0 0, true) := rfl
theorem test_mxSub : ansOvf (.mxSub wA wB) = (raw false 7 9 11 13 15, false) := rfl
theorem test_mxSub_zero : ansOvf (.mxSub wB wB) = (raw false 0 0 0 0 0, false) := rfl
theorem test_mxMul : ans2 (.mxMul wA wB) = (raw true 0 6 19 41 7, raw true 47 51 43 21 50) := rfl
theorem test_mxMul_max : ans2 (.mxMul wMax wMax) = (raw false 63 63 63 63 62, raw false 0 0 0 0 1) := rfl
theorem test_mxDiv : ans2 (.mxDiv (word false 0 0 0 0 0) wA (word true 0 0 0 1 0)) = (raw true 0 1 2 3 4, raw false 0 0 0 0 5) := rfl
theorem test_mxDiv_stops : (after (.mxDiv wA wA (word true 0 0 0 0 0))).resp = Response.zero ∧
    kind (.mxDiv (word false 0 0 0 0 2) (word false 0 0 0 0 0) (word false 0 0 0 0 2)) = 2 := ⟨rfl, rfl⟩
theorem test_mxCmp : ans (.mxCmp wA wB) = 2 := rfl
theorem test_mxCmp_zeros : ans (.mxCmp (word false 0 0 0 0 0) (word true 0 0 0 0 0)) = 1 := rfl
theorem test_mxIszero : ans (.mxIszero (word true 0 0 0 0 0)) = 1 ∧ ans (.mxIszero wA) = 0 := ⟨rfl, rfl⟩
theorem test_mxEqbits : ans (.mxEqbits (word false 0 0 0 0 0) (word true 0 0 0 0 0)) = 0 := rfl
theorem test_mxShl : ans (.mxShl wA 4) = raw false 5 0 0 0 0 ∧ ans (.mxShl wA 4095) = 0 := ⟨rfl, rfl⟩
theorem test_mxShr : ans (.mxShr wB 1) = raw true 0 6 7 8 9 := rfl
theorem test_mxRol : ans (.mxRol wA 6) = raw false 2 3 4 5 1 := rfl
theorem test_mxRor : ans (.mxRor wB 4) = raw true 7 8 9 10 6 := rfl
theorem test_mxShld : ans2 (.mxShld wA wB 3) = (raw false 4 5 6 7 8, raw true 9 10 0 0 0) := rfl
theorem test_mxShrd : ans2 (.mxShrd wA wB 1) = (raw false 0 1 2 3 4, raw true 5 6 7 8 9) := rfl
theorem test_mxRold : ans2 (.mxRold wA wB 9) = (raw false 10 1 2 3 4, raw true 5 6 7 8 9) := rfl
theorem test_mxRord : ans2 (.mxRord wA wB 13) = (raw false 8 9 10 1 2, raw true 3 4 5 6 7) := rfl
theorem test_mxFget : ans (.mxFget wB 12) = raw false 0 6 7 8 9 := rfl
theorem test_mxFget_signed : ans (.mxFget wB 3) = raw true 0 0 6 7 8 := rfl
theorem test_mxFput : ans (.mxFput wA wB 20) = raw false 1 8 9 10 5 := rfl
theorem test_mxFput_sign : ans (.mxFput wA wB 0) = raw true 1 2 3 4 5 := rfl

/-! ## MIX memory and MIX registers -/

theorem test_mmLoad : ans (.mmLoad 4095 19) (after (.mmStore wA 95 5)) = raw false 0 0 0 2 3 := rfl
theorem test_mmStore : mixRead (after (.mmStore wB 100 18) (after (.mmStore wA 100 5))) 100 = word false 1 10 3 4 5 := rfl
theorem test_mmStore_wraps : (after (.mmStore wA 250 5) small).mixmem = [(50, wA)] := rfl
theorem test_mmLoadprog : (after (.mmLoadprog 99 [wA, wB]) small).mixmem = [(0, wB), (99, wA)] := rfl
theorem test_mmLoadimg : (after (.mmLoadimg 3999 [wA, wB])).mixmem = [(0, wB), (3999, wA)] := rfl
theorem test_mmDump : (after (.mmDump 3999 3) (after (.mmLoadimg 3999 [wA, wB]))).resp.seq = [0x01083105, 0x461C824A, 0] := rfl
theorem test_mmClear : (after .mmClear (after (.mmStore wA 7 5))).mixmem = [] := rfl
theorem test_mmClrrng : (after (.mmClrrng 3999 2) (after (.mmLoadimg 3999 [wA, wB, wA]))).mixmem = [(1, wA)] := rfl
theorem test_mrRead : ans (.mrRead 8) (after (.mrWrite wB 8)) = raw false 0 0 0 9 10 ∧ kind (.mrRead 15) = 5 := ⟨rfl, rfl⟩
theorem test_mrWrite : (after (.mrWrite (word true 1 2 3 4 5) 2)).idx[0] = ⟨true, 261⟩ := rfl
theorem test_mrWrite_bad : kind (.mrWrite wA 9) = 5 := rfl
theorem test_mrEa : ans (.mrEa 5 2) (after (.mrWrite (word true 0 0 0 0 10) 3)) = 3995 := rfl
theorem test_mrEa_bare : ans (.mrEa 4090 0) = 4090 ∧ ans (.mrEa 4090 7) = 90 := ⟨rfl, rfl⟩
theorem test_mrIdxoff : ans (.mrIdxoff 2) (after (.mrWrite (word true 0 0 0 0 10) 3)) = 0xFFFFFFF6 ∧ ans (.mrIdxoff 7) = 0 := ⟨rfl, rfl⟩
theorem test_mrGetov : ans .mrGetov = 0 ∧ ans .mrGetov (after (.mrSetov true)) = 1 := ⟨rfl, rfl⟩
theorem test_mrSetov : (after (.mrSetov true)).ov = true := rfl
theorem test_mrGetci : ans .mrGetci = 1 := rfl
theorem test_mrSetci : (after (.mrSetci 2)).ci = .greater ∧ kind (.mrSetci 3) = 6 := ⟨rfl, rfl⟩

/-! ## The MMIX integer unit: the widest and the narrowest width from the vectors, the two between by hand from the same rule -/

theorem test_add : ans (.addB 0xFF 1) = 0 ∧ ans (.addW 0xFFFF 2) = 1 ∧ ans (.addT 0xFFFFFFFF 1) = 0 ∧
    ans (.addO 0xFFFFFFFFFFFFFFFF 1) = 0 := ⟨rfl, rfl, rfl, rfl⟩
theorem test_sub : ans (.subB 0 1) = 0xFF ∧ ans (.subW 0 1) = 0xFFFF ∧ ans (.subT 1 2) = 0xFFFFFFFF ∧
    ans (.subO 0 1) = 0xFFFFFFFFFFFFFFFF := ⟨rfl, rfl, rfl, rfl⟩
theorem test_mul : ans (.mulB 0xFF 0xFF) = 1 ∧ ans (.mulW 0x8000 3) = 0x8000 ∧ ans (.mulT 0x10000 0x10001) = 0x10000 ∧
    ans (.mulO 0xFFFFFFFFFFFFFFFF 0xFFFFFFFFFFFFFFFF) = 1 := ⟨rfl, rfl, rfl, rfl⟩
theorem test_adduo : ansOvf (.adduoB 0x7F 1) = (0x80, false) ∧ ansOvf (.adduoW 0xFFFF 1) = (0, true) ∧
    ansOvf (.adduoT 0x80000000 0x80000000) = (0, true) ∧ ansOvf (.adduoO 0xFFFFFFFFFFFFFFFF 1) = (0, true) := ⟨rfl, rfl, rfl, rfl⟩
theorem test_addso : ansOvf (.addsoB 0x7F 1) = (0x80, true) ∧ ansOvf (.addsoW 0x8000 0xFFFF) = (0x7FFF, true) ∧
    ansOvf (.addsoT 0xFFFFFFFF 1) = (0, false) ∧ ansOvf (.addsoO 0x7FFFFFFFFFFFFFFF 1) = (0x8000000000000000, true) := ⟨rfl, rfl, rfl, rfl⟩
theorem test_subuo : ansOvf (.subuoB 0 1) = (0xFF, true) ∧ ansOvf (.subuoW 1 1) = (0, false) ∧
    ansOvf (.subuoT 0 0x80000000) = (0x80000000, true) ∧ ansOvf (.subuoO 0 1) = (0xFFFFFFFFFFFFFFFF, true) := ⟨rfl, rfl, rfl, rfl⟩
theorem test_subso : ansOvf (.subsoB 0x80 1) = (0x7F, true) ∧ ansOvf (.subsoW 0 1) = (0xFFFF, false) ∧
    ansOvf (.subsoT 0 0x80000000) = (0x80000000, true) ∧ ansOvf (.subsoO 0 0x8000000000000000) = (0x8000000000000000, true) := ⟨rfl, rfl, rfl, rfl⟩
theorem test_muluo : ansOvf (.muluoB 0x0F 0x11) = (0xFF, false) ∧ ansOvf (.muluoW 0x100 0x100) = (0, true) ∧
    ansOvf (.muluoT 0xFFFF 0x10001) = (0xFFFFFFFF, false) ∧ ansOvf (.muluoO 0x8000000000000000 2) = (0, true) := ⟨rfl, rfl, rfl, rfl⟩
theorem test_mulso : ansOvf (.mulsoB 0xF0 8) = (0x80, false) ∧ ansOvf (.mulsoW 0x8000 0xFFFF) = (0x8000, true) ∧
    ansOvf (.mulsoT 0xFFFFFFFF 0xFFFFFFFF) = (1, false) ∧
    ansOvf (.mulsoO 0x8000000000000000 0xFFFFFFFFFFFFFFFF) = (0x8000000000000000, true) := ⟨rfl, rfl, rfl, rfl⟩
theorem test_mulfu : ans2 (.mulfuB 0xFF 0xFF) = (0xFE, 1) ∧ ans2 (.mulfuW 0x100 0x203) = (2, 0x300) ∧
    ans2 (.mulfuT 0x10000 0x10000) = (1, 0) ∧
    ans2 (.mulfuO 0x123456789ABCDEF0 0xFEDCBA9876543210) = (0x121FA00AD77D7422, 0x236D88FE5618CF00) := ⟨rfl, rfl, rfl, rfl⟩
theorem test_divu : ans2 (.divuB 0xFF 0x10) = (15, 15) ∧ ans2 (.divuW 0xFFFF 0x100) = (0xFF, 0xFF) ∧
    ans2 (.divuT 100 7) = (14, 2) ∧ ans2 (.divuO 0xFFFFFFFFFFFFFFFF 10) = (0x1999999999999999, 5) := ⟨rfl, rfl, rfl, rfl⟩
theorem test_divu_zero : (after (.divuB 0xFF 0)).resp = { noResult with r1 := 0xFF } ∧
    (after (.divuO 0xFFFFFFFFFFFFFFFF 0)).resp = { noResult with r1 := 0xFFFFFFFFFFFFFFFF } := ⟨rfl, rfl⟩
theorem test_cmpu : ans (.cmpuB 0xFF 1) = 2 ∧ ans (.cmpuW 1 0x8000) = 0 ∧ ans (.cmpuT 7 7) = 1 ∧
    ans (.cmpuO 0xFFFFFFFFFFFFFFFF 1) = 2 := ⟨rfl, rfl, rfl, rfl⟩
theorem test_cmps : ans (.cmpsB 0xFF 1) = 0 ∧ ans (.cmpsW 1 0x8000) = 2 ∧ ans (.cmpsT 7 7) = 1 ∧
    ans (.cmpsO 0xFFFFFFFFFFFFFFFF 1) = 0 := ⟨rfl, rfl, rfl, rfl⟩
theorem test_split : ans2 (.splitW 0x0102) = (1, 2) ∧ ans2 (.splitT 0x01020304) = (0x0102, 0x0304) ∧
    ans2 (.splitO 0x0102030405060708) = (0x01020304, 0x05060708) := ⟨rfl, rfl, rfl⟩
theorem test_join : ans (.joinW 0xAB 0xCD) = 0xABCD ∧ ans (.joinT 0xABCD 0xEF01) = 0xABCDEF01 ∧
    ans (.joinO 0x01020304 0x05060708) = 0x0102030405060708 := ⟨rfl, rfl, rfl⟩
theorem test_trunc : ans (.truncB 0x12345678) = 0x78 ∧ ans (.truncW 0x12345678) = 0x5678 ∧ ans (.truncT 0x123456789A) = 0x3456789A ∧
    ans (.truncO 0x0123456789ABCDEF) = 0x0123456789ABCDEF := ⟨rfl, rfl, rfl, rfl⟩
theorem test_sval : ans (.svalB 0x80) = 0xFFFFFFFFFFFFFF80 ∧ ans (.svalW 0xFFFE) = 0xFFFFFFFFFFFFFFFE ∧
    ans (.svalT 0x80000000) = 0xFFFFFFFF80000000 ∧ ans (.svalO 0x8000000000000000) = 0x8000000000000000 := ⟨rfl, rfl, rfl, rfl⟩

/-! ## MMIX memory -/

theorem test_ld : ans (.ldB 0x1007) octaAt1000 = 8 ∧ ans (.ldW 0x1002) octaAt1000 = 0x0304 ∧ ans (.ldT 0x1004) octaAt1000 = 0x05060708 ∧
    ans (.ldO 0x1000) octaAt1000 = 0x0102030405060708 := ⟨rfl, rfl, rfl, rfl⟩
theorem test_ld_misaligned : (after (.ldW 0x1001) octaAt1000).resp = resultMisaligned ∧ (after (.ldT 0x1002) octaAt1000).resp = resultMisaligned ∧
    (after (.ldO 0x1004) octaAt1000).resp = resultMisaligned := ⟨rfl, rfl, rfl⟩
theorem test_ld_unchecked : ans (.ldO 0x1004) (after (.stO 0x0102030405060708 0x1000) unchecked) = 0x0506070800000000 := rfl
theorem test_stB : ans (.ldO 0x1000) (after (.stB 0xEE 0x1001) octaAt1000) = 0x01EE030405060708 := rfl
theorem test_stW_top : (after (.stW 0x1234 0xFFFFFFFFFFFFFFFF) unchecked).mmixmem = [(0, 0x34), (0xFFFFFFFFFFFFFFFF, 0x12)] := rfl
theorem test_stT_pages : (after (.stT 0xCAFEF00D 0x1FFE) unchecked).allocated = [0x1000, 0x2000] ∧
    (after (.stT 0xCAFEF00D 0x1FFE)).allocated = [] := by decide +kernel
theorem test_stO_zero : (after (.stO 0 0x1000)).mmixmem = [] ∧ (after (.stO 0 0x1000)).allocated = [0x1000] := by decide +kernel
theorem test_mbLoadimg : (after (.mbLoadimg 0xFFE [0x11, 0x22, 0x33, 0x44])).allocated = [0, 0x1000] ∧
    (after (.mbLoadimg 0x7000 [])).allocated = [] := by decide +kernel
theorem test_mbDump : (after (.mbDump 0xFFD 6) (after (.mbLoadimg 0xFFE [0x11, 0x22, 0x33, 0x44]))).resp.seq = [0, 0x11, 0x22, 0x33, 0x44, 0] := rfl

/-! ## The register window -/

theorem test_grRead_marginal : ans (.grRead 3) (after (.grWrite 5 3)) = 5 ∧ ans (.grRead 4) (after (.grWrite 5 3)) = 0 := ⟨rfl, rfl⟩
theorem test_grRead_global : ans (.grRead 255) (after (.grWrite 7 255)) = 7 := rfl
theorem test_grWrite_promotes : window (after (.grWrite 0xC8 200)) = (0, 0, 201) := by decide +kernel
theorem test_grWrite_spills : window (after (.grWrite 2 1) (windowed 2040 0 0)) = (2040, 16, 2) := rfl
theorem test_srRead : ans (.srRead 19) = 255 ∧ ans (.srRead 20) = 0 := ⟨rfl, rfl⟩
theorem test_srWrite : (after (.srWrite 0x18 11)).special[11] = 0x18 ∧ ans (.srRead 21) (after (.srWrite 0xDEADBEEF 21)) = 0xDEADBEEF := ⟨rfl, rfl⟩
theorem test_srWrite_geometry : kind (.srWrite 0x100 20) = 9 ∧ kind (.srWrite 0x12C 19) = 9 ∧ kind (.srWrite 0xC 10) = 9 ∧
    kind (.srWrite 4 11) = 9 := ⟨rfl, rfl, rfl, rfl⟩
theorem test_pushf : ans .pushf (windowed 0 0 255) = 255 ∧ window (after .pushf (windowed 0 0 255)) = (2040, 0, 0) := ⟨rfl, rfl⟩
theorem test_popf : window (after (.popf 2) (windowed 40 0 4)) = (24, 0, 2) := rfl
theorem test_popf_violations : kind (.popf 1) = 8 ∧ kind (.popf 256) = 9 ∧ kind (.popf 2) (windowed 8 16 0) = 10 := ⟨rfl, rfl, rfl⟩

/-! ## The whole block -/

theorem test_violation : (broken.fatal, broken.cvKind, broken.resp) = (true, CvKind.magnitude, noResult) := rfl
theorem test_ignored : (after (.mrWrite wA 0) broken).regA = ⟨false, 0⟩ ∧ kind (.mxSetb wA 0 64) broken = 2 := ⟨rfl, rfl⟩
/-- A command ignored while fatal answers zero results and changes nothing (95_test_vectors.md section 8). -/
theorem test_ignored_response : after (.mrWrite wA 0) broken = broken := by decide +kernel
theorem test_reserved : decode ⟨0x03, 0, 0, 0, []⟩ = .error (.reservedOpcode 0x03) ∧
    decode ⟨0xFF, 0, 0, 0, []⟩ = .error (.reservedOpcode 0xFF) := ⟨rfl, rfl⟩
theorem test_step_reserved : ∃ t, step (pending [.command ⟨0x03, 0, 0, 0, []⟩]) = .next t ∧ t.fatal = true ∧ t.cvKind = .opcode :=
  ⟨_, rfl, rfl, rfl⟩
theorem test_step_reset : ∃ t, step { broken with inputs := [.reset] } = .next t ∧ t.fatal = false ∧ t.cvKind = .none :=
  ⟨_, rfl, rfl, rfl⟩
/-- The word the opcode table gives `PUSHF`, placed and run as the next step. -/
theorem test_fetch_word : decodeTableWord 8 0xA4 = some .pushf ∧ step (State.reset.withFetchWord 8 0xA4) = exec .pushf State.reset :=
  ⟨rfl, rfl⟩

/-! ## Witnesses: for each statement with hypotheses, states and operands that meet them together, at the ends of each clause's range

`State.reset` is live (`fatal` clear), so a statement whose only hypothesis is `Live` has `witness_live`; the theorems below give the rest. -/

/-- FieldCodeCommands, MixAccessorsAndComparison, MixShifts, MixRotates, MixDoubleShifts, MixDoubleRotates, MixFlagCommands, WrappingArithmetic,
UnsignedOverflowArithmetic, SignedOverflowArithmetic, FullMultiplyAndDivide, MmixComparison, MmixConversions, FramePush: a live state. -/
theorem witness_live : State.reset.Live := rfl

/-- A command at a live state answers a next state, so `exec i s = .next t` can be met. -/
theorem witness_next (i : Instr) (s : State) : ∃ t, exec i s = .next t := by
  obtain ⟨act, h⟩ := exec_is_perform i s
  rw [h]; unfold perform; split
  · exact ⟨_, rfl⟩
  · split <;> exact ⟨_, rfl⟩

/-- FieldCodeCommands, MixFieldCommands, MixMemoryReads, MixStore: both sides of the field check. -/
theorem witness_field : State.reset.Live ∧ ((0 : BitVec 3).toNat ≤ (5 : BitVec 3).toNat ∧ (5 : BitVec 3).toNat ≤ 5) ∧
    ¬ ((0 : BitVec 3).toNat ≤ (6 : BitVec 3).toNat ∧ (6 : BitVec 3).toNat ≤ 5) ∧ fieldOk 0 ∧ fieldOk 45 ∧ ¬ fieldOk 6 ∧ ¬ fieldOk 8 ∧
    ¬ fieldOk 46 := by refine ⟨rfl, ?_⟩; decide

/-- MixConstruction: both sides of the magnitude checks. -/
theorem witness_construction : State.reset.Live ∧ (0x3FFFFFFF : BitVec 32).toNat < 2 ^ 30 ∧ ¬ (0x40000000 : BitVec 32).toNat < 2 ^ 30 ∧
    (0xC0000001 : BitVec 32).toInt.natAbs < 2 ^ 30 ∧ ¬ (0xC0000000 : BitVec 32).toInt.natAbs < 2 ^ 30 := by refine ⟨rfl, ?_⟩; decide

/-- MixByteAccess: positions 0, 1, 5 and 6, bytes 63 and 64. -/
theorem witness_byte : State.reset.Live ∧ ¬ 1 ≤ (0 : BitVec 3).toNat ∧ 1 ≤ (1 : BitVec 3).toNat ∧ (5 : BitVec 3).toNat ≤ 5 ∧
    ¬ (6 : BitVec 3).toNat ≤ 5 ∧ (63 : BitVec 8).toNat < 64 ∧ ¬ (64 : BitVec 8).toNat < 64 := by refine ⟨rfl, ?_⟩; decide

/-- MixAddSub: the true sum and difference exist. -/
theorem witness_sum : State.reset.Live ∧ ∃ S : Int, S = signedVal wMax + signedVal wMax := ⟨rfl, _, rfl⟩

/-- MixMultiply: the halves of the largest product. -/
theorem witness_product : State.reset.Live ∧ (0x3FFFFFFE : Nat) * 2 ^ 30 + 1 = wMax.mag.toNat * wMax.mag.toNat ∧ (1 : Nat) < 2 ^ 30 := by
  refine ⟨rfl, ?_⟩; decide

/-- MixDivide: a zero divisor, equal high word and divisor, and a quotient that fits. -/
theorem witness_divide : State.reset.Live ∧ (word true 0 0 0 0 0).mag.toNat = 0 ∧
    (wA.mag.toNat ≠ 0 ∧ wA.mag.toNat ≤ (word true 1 2 3 4 5).mag.toNat) ∧
    ((word false 0 0 0 0 1).mag.toNat < (word false 0 0 0 0 2).mag.toNat ∧
      (word false 0 0 0 0 1).mag.toNat * 2 ^ 30 + (word false 0 0 0 0 1).mag.toNat = 2 ^ 29 * (word false 0 0 0 0 2).mag.toNat + 1 ∧
      1 < (word false 0 0 0 0 2).mag.toNat) := by refine ⟨rfl, ?_⟩; decide

/-- MixStoreThenLoad: a field without the sign and one apart from it, the field of the sign alone, and the address field. -/
theorem witness_store_load : State.reset.Live ∧ (∃ t, exec (.mmStore wB 100 20) State.reset = .next t) ∧
    (fieldOk 20 ∧ fieldOk 45 ∧ ((20 : FieldCode).toNat % 8 < fieldFrom 45 ∨ (45 : FieldCode).toNat % 8 < fieldFrom 20) ∧
      ((20 : FieldCode).toNat / 8 = 0 → 1 ≤ (45 : FieldCode).toNat / 8)) ∧
    (fieldOk 0 ∧ fieldOk 9 ∧ (0 : FieldCode).toNat % 8 < fieldFrom 9 ∧ 1 ≤ (9 : FieldCode).toNat / 8) ∧ fieldOk 37 := by
  refine ⟨rfl, ⟨_, rfl⟩, ?_⟩; decide

/-- MixLoadImage: the last word of a sequence has no later one at its address, and an address outside the range exists. -/
theorem witness_image : State.reset.Live ∧ (∀ j, 1 < j → j < [wA, wB].length → (3999 + j) % 4000 ≠ (3999 + 1) % 4000) ∧
    ∀ k < [wA, wB].length, (3999 + k) % 4000 ≠ 1 % 4000 := ⟨rfl, by simp; omega, by decide⟩

/-- MixClear: an index in the range and an address outside it. -/
theorem witness_clear : State.reset.Live ∧ 1 < (2 : BitVec 13).toNat ∧ ∀ k < (2 : BitVec 13).toNat, (3999 + k) % 4000 ≠ 1 % 4000 := by
  refine ⟨rfl, ?_⟩; decide

/-- MixRegisterRead, MixRegisterWrite: the first and the last identifier that names no register. -/
theorem witness_register : State.reset.Live ∧ 9 ≤ (9 : BitVec 4).toNat ∧ 9 ≤ (15 : BitVec 4).toNat := by refine ⟨rfl, ?_⟩; decide

/-- EffectiveAddress: no index, and the ends of the index registers. -/
theorem witness_index : State.reset.Live ∧ (0 : BitVec 3).toNat = 0 ∧ (1 : BitVec 3).toNat ≠ 0 ∧ offsetOf State.reset 7 = 0 ∧
    offsetOf (after (.mrWrite (word true 0 0 0 0 10) 7)) 6 = -10 := ⟨rfl, rfl, by decide, rfl, rfl⟩

/-- MixRegisterProperties: a write of each class of register, at the ends of its range, and an index number that is not 0. -/
theorem witness_register_write : State.reset.Live ∧ (∃ t, exec (.mrWrite wB 8) State.reset = .next t) ∧ (1 : BitVec 4).toNat ≤ 1 ∧
    2 ≤ (2 : BitVec 4).toNat ∧ (7 : BitVec 4).toNat ≤ 7 ∧ (8 : BitVec 4).toNat = 8 ∧ (7 : BitVec 3).toNat ≠ 0 := by
  refine ⟨rfl, ⟨_, rfl⟩, ?_⟩; decide

/-- MixRegistersWrittenOnlyByTheirCommands: a command that is none of the three. -/
theorem witness_no_register_write : (∃ t, exec (.mxAdd wA wB) State.reset = .next t) ∧ (∀ v id, Instr.mxAdd wA wB ≠ .mrWrite v id) ∧
    (∀ b, Instr.mxAdd wA wB ≠ .mrSetov b) ∧ ∀ c, Instr.mxAdd wA wB ≠ .mrSetci c := by
  refine ⟨⟨_, rfl⟩, ?_, ?_, ?_⟩ <;> intros <;> simp

/-- MmixLoads, MmixStores: an access refused at each width, the same accepted without checking, and an aligned one. -/
theorem witness_alignment : State.reset.Live ∧ unchecked.Live ∧ refusedAt State.reset 0x1001 2 ∧ refusedAt State.reset 0x1002 4 ∧
    refusedAt State.reset 0x1004 8 ∧ ¬ refusedAt State.reset 0x1002 2 ∧ ¬ refusedAt State.reset 0x1004 4 ∧
    ¬ refusedAt State.reset 0x1008 8 ∧ ¬ refusedAt unchecked 0xFFFFFFFFFFFFFFFF 8 := by
  refine ⟨rfl, rfl, ?_⟩; decide +kernel

/-- MmixStoreThenLoad, MixedWidthAccess: stores that complete, at an aligned address and, without checking, across the top of memory. -/
theorem witness_store : State.reset.Live ∧ (0x1000 : Octa).toNat % 8 = 0 ∧ ¬ refusedAt State.reset 0x1000 8 ∧
    (∃ t, exec (.stO 1 0x1000) State.reset = .next t) ∧ ¬ refusedAt unchecked 0xFFFFFFFFFFFFFFFF 4 ∧
    (∃ t, exec (.stT 1 0xFFFFFFFFFFFFFFFF) unchecked = .next t) ∧ (∃ t, exec (.stW 1 0xFFFFFFFFFFFFFFFF) unchecked = .next t) ∧
    (∃ t, exec (.stB 1 0xFFFFFFFFFFFFFFFF) unchecked = .next t) ∧
    [(0x11 : Byte)].length < 2 ^ 64 ∧ ∃ t, exec (.mbLoadimg 0xFFFFFFFFFFFFFFFF [0x11]) State.reset = .next t :=
  ⟨rfl, by decide, by decide +kernel, witness_next _ _, by decide +kernel, witness_next _ _, witness_next _ _, witness_next _ _,
    by decide, witness_next _ _⟩

/-- MmixBulk: the last byte has no later one at its address, an address outside the range, and pages inside and outside it. -/
theorem witness_bulk : State.reset.Live ∧ (∀ j, 1 < j → j < [(0x11 : Byte), 0x22].length → BitVec.ofNat 64 j ≠ BitVec.ofNat 64 1) ∧
    (∀ k < [(0x11 : Byte), 0x22].length, (7 : Octa) ≠ 0xFFFFFFFFFFFFFFFF + BitVec.ofNat 64 k) := ⟨rfl, by simp; omega, by decide⟩

/-- AllocationIsHidden, ParametersFixed, HalvesAreIndependent: a command of each half that answers a next state, and two states with
equal MIX halves or equal MMIX halves that differ in the other. -/
theorem witness_halves : (∃ t, exec (.mxAdd wA wB) State.reset = .next t) ∧ (Instr.mxAdd wA wB).isMix = true ∧
    MixHalfEq State.reset octaAt1000 ∧ BlockEq State.reset octaAt1000 ∧ State.reset.mmixmem ≠ octaAt1000.mmixmem ∧
    (∃ t, exec (.ldB 0) State.reset = .next t) ∧ (Instr.ldB 0).isMix = false ∧
    MmixHalfEq State.reset (after (.mmStore wA 0 5)) ∧ BlockEq State.reset (after (.mmStore wA 0 5)) ∧
    State.reset.mixmem ≠ (after (.mmStore wA 0 5)).mixmem :=
  ⟨witness_next _ _, by decide, ⟨rfl, rfl, rfl, rfl, rfl, rfl, rfl⟩, ⟨rfl, rfl, rfl⟩, by decide +kernel, witness_next _ _, by decide,
    ⟨rfl, rfl, rfl, rfl, rfl⟩, ⟨rfl, rfl, rfl⟩, by decide +kernel⟩

/-- GeneralRead, GeneralWriteInPlace: `$0`, the first global, the last local and the first marginal at `L = 8`. -/
theorem witness_general : (windowed 0 0 8).Live ∧ (0 : BitVec 8).toNat = 0 ∧
    ((255 : BitVec 8).toNat ≠ 0 ∧ (rG (windowed 0 0 8)).toNat ≤ (255 : BitVec 8).toNat) ∧
    ((7 : BitVec 8).toNat ≠ 0 ∧ (7 : BitVec 8).toNat < (rG (windowed 0 0 8)).toNat ∧ (7 : BitVec 8).toNat < (rL (windowed 0 0 8)).toNat) ∧
    ((rL (windowed 0 0 8)).toNat ≤ (8 : BitVec 8).toNat ∧ (8 : BitVec 8).toNat < (rG (windowed 0 0 8)).toNat) := by
  refine ⟨rfl, ?_⟩; decide +kernel

theorem geometry_windowed_push : (windowed 2040 0 0).Geometry := by unfold State.Geometry; decide +kernel
theorem ring_windowed_push : (windowed 2040 0 0).RingInv := by unfold State.RingInv residentCount; decide +kernel

/-- GeneralWritePromotes, PromotionSpills: the first and the last marginal, in a ring so full that the promotion spills. -/
theorem witness_promotion : (windowed 2040 0 0).Live ∧ (windowed 2040 0 0).Geometry ∧ (windowed 2040 0 0).RingInv ∧
    (rO (windowed 2040 0 0)).toNat + 8 < 2 ^ 64 ∧
    ((1 : BitVec 8).toNat ≠ 0 ∧ (rL (windowed 2040 0 0)).toNat ≤ (1 : BitVec 8).toNat ∧ (254 : BitVec 8).toNat < (rG (windowed 2040 0 0)).toNat) ∧
    (∃ t, exec (.grWrite 5 254) (windowed 2040 0 0) = .next t) ∧ spillCount (windowed 2040 0 0) 254 = 255 :=
  ⟨rfl, geometry_windowed_push, ring_windowed_push, by decide +kernel, by decide +kernel, witness_next _ _, by decide +kernel⟩

/-- FramePop: the largest frame that was pushed, none of it, and a frame some of which was spilled. -/
theorem witness_pop : (windowed 2040 16 2).Live ∧ (windowed 2040 16 2).Geometry ∧ (windowed 2040 16 2).RingInv ∧
    ((255 : BitVec 9).toNat ≤ (rG (windowed 2040 16 2)).toNat ∧ 8 * (255 : BitVec 9).toNat ≤ (rO (windowed 2040 16 2)).toNat) ∧
    8 * (0 : BitVec 9).toNat ≤ (rO (windowed 2040 16 2)).toNat := by
  refine ⟨rfl, ?_, ?_, ?_⟩
  · unfold State.Geometry; decide +kernel
  · unfold State.RingInv residentCount; decide +kernel
  · decide +kernel

theorem geometry_windowed_low : (windowed 8 0 0).Geometry := by unfold State.Geometry; decide +kernel
theorem ring_windowed_low : (windowed 8 0 0).RingInv := by unfold State.RingInv residentCount; decide +kernel

/-- FramePopViolations: one more than `G`; one more than was pushed; and `rS` above a zero `rO`. -/
theorem witness_pop_violations : (windowed 8 0 0).Live ∧ (rG (windowed 8 0 0)).toNat < (256 : BitVec 9).toNat ∧
    ((windowed 8 0 0).Geometry ∧ (windowed 8 0 0).RingInv ∧ (2 : BitVec 9).toNat ≤ (rG (windowed 8 0 0)).toNat ∧
      (rO (windowed 8 0 0)).toNat < 8 * (2 : BitVec 9).toNat) ∧
    ((windowed 0 8 0).Live ∧ (1 : BitVec 9).toNat ≤ (rG (windowed 0 8 0)).toNat ∧ (1 : BitVec 9).toNat ≠ 0 ∧ (rO (windowed 0 8 0)).toNat = 0 ∧
      (rS (windowed 0 8 0)).toNat / 8 % 256 ≠ 0) :=
  ⟨rfl, by decide +kernel, ⟨geometry_windowed_low, ring_windowed_low, by decide +kernel, by decide +kernel⟩, rfl, by decide +kernel⟩

/-- FrameRoundTrip, RingInvariantKept: a caller of 255 locals, its push, and a write of the callee that spills. -/
theorem witness_round_trip : (windowed 0 0 255).Live ∧ (windowed 0 0 255).Geometry ∧ (windowed 0 0 255).RingInv ∧
    (rL (windowed 0 0 255)).toNat ≤ 255 ∧ (rO (windowed 0 0 255)).toNat + 8 * (rL (windowed 0 0 255)).toNat < 2 ^ 64 ∧
    (∀ w ∈ [((254 : BitVec 8), (7 : Octa))], w.1.toNat < (rG (windowed 0 0 255)).toNat ∧ w.1.toNat ≤ 254) ∧
    ∃ s1 s2, exec .pushf (windowed 0 0 255) = .next s1 ∧ Writes [(254, 7)] s1 s2 := by
  refine ⟨rfl, ?_, ?_, ?_, ?_, ?_, ?_⟩
  · unfold State.Geometry; decide +kernel
  · unfold State.RingInv residentCount; decide +kernel
  · decide +kernel
  · decide +kernel
  · intro w hw
    rw [List.mem_singleton.1 hw]
    decide +kernel
  · obtain ⟨s1, h1⟩ := witness_next .pushf (windowed 0 0 255)
    obtain ⟨s2, h2⟩ := witness_next (.grWrite 7 254) s1
    refine ⟨s1, s2, h1, ?_⟩
    unfold Writes
    exact ⟨s2, h2, by unfold Writes; rfl⟩

/-- RingInvariantKept: the writes and pops it speaks of answer a next state. -/
theorem witness_ring_kept : (254 : BitVec 8).toNat ≤ 254 ∧ (∃ t, exec (.grWrite 7 254) (windowed 2040 0 0) = .next t) ∧
    (255 : BitVec 9).toNat ≤ 255 ∧ ∃ t, exec (.popf 255) (windowed 2040 0 0) = .next t :=
  ⟨by decide, witness_next _ _, by decide, witness_next _ _⟩

/-- SpecialReadWrite: each kind of write that breaks the geometry, by one. -/
theorem witness_special_illegal : State.reset.Live ∧ illegalWrite State.reset 20 256 ∧ illegalWrite (windowed 0 0 8) 19 7 ∧
    illegalWrite State.reset 19 257 ∧ illegalWrite State.reset 10 4 ∧ illegalWrite State.reset 11 4 := by
  refine ⟨rfl, ?_, ?_, ?_, ?_, ?_⟩ <;> decide +kernel

/-- SpecialReadWrite: writes that just keep it, and one to a register that is plain storage. -/
theorem witness_special_legal : ((20 : BitVec 5) ≠ State.reset.cfg.numRS ∧ ¬ illegalWrite State.reset 20 255) ∧
    ((19 : BitVec 5) ≠ State.reset.cfg.numRS ∧ ¬ illegalWrite (windowed 0 0 8) 19 8 ∧ ¬ illegalWrite State.reset 19 256) ∧
    ((0 : BitVec 5) ≠ State.reset.cfg.numRS ∧ ¬ illegalWrite State.reset 0 0xFFFFFFFFFFFFFFFF) := by
  refine ⟨⟨?_, ?_⟩, ⟨?_, ?_, ?_⟩, ?_, ?_⟩ <;> decide +kernel

theorem storage_reset (cfg : Config) : (State.resetWith cfg).StorageWf := by
  refine ⟨⟨⟨.nil, ?_⟩, ?_⟩, ⟨⟨.nil, ?_⟩, ?_⟩, ⟨.nil, ?_⟩, ⟨⟨.nil, ?_⟩, ?_⟩⟩ <;> intro e h <;> cases h

/-- StackPointerWrite: growth of the stack from nothing to its largest, and no change. -/
theorem witness_stack_pointer : State.reset.Live ∧ State.reset.StorageWf ∧ (0xFFFFFFFFFFFFFFF8 : Octa).toNat % 8 = 0 ∧ (0 : Octa).toNat % 8 = 0 :=
  ⟨rfl, storage_reset _, by decide, by decide⟩

/-- ViolationsAreAtomic, ViolationTable: a violation, a refused access and a nil answer at a live state, a command and a reset while fatal. -/
theorem witness_violation : State.reset.Live ∧ exec (.mrRead 9) State.reset = .next (after (.mrRead 9)) ∧ (after (.mrRead 9)).fatal = true ∧
    (after (.ldW 1)).fatal = false ∧ (after (.ldW 1)).resp.err = .misaligned ∧
    (after (.mxDiv wA wA MixWord.plusZero)).fatal = false ∧ (after (.mxDiv wA wA MixWord.plusZero)).resp.valid = false ∧
    broken.fatal = true ∧ ({ broken with inputs := [.command ⟨0x30, 0, 0, 0, []⟩] } : State).fatal = true ∧
    ∃ t, step { broken with inputs := [.reset] } = .next t :=
  ⟨rfl, rfl, rfl, rfl, rfl, rfl, rfl, rfl, rfl, _, rfl⟩

theorem geometry_reset : State.reset.Geometry := by unfold State.Geometry; decide +kernel

/-- OperandChecksSuffice: an ill-formed command, and a well-formed one that raises all the same. -/
theorem witness_operand_checks : State.reset.Live ∧ State.reset.Geometry ∧ (∃ t, exec (.mrSetci 3) State.reset = .next t) ∧
    ¬ (Instr.mrSetci 3).WellFormed ∧ exec (.popf 1) State.reset = .next (after (.popf 1)) ∧ (Instr.popf 1).WellFormed ∧
    (after (.popf 1)).fatal = true := ⟨rfl, geometry_reset, ⟨_, rfl⟩, by decide, rfl, by decide, rfl⟩

/-- ReservedOpcodes: the ends of the reserved ranges and their neighbours, at a live state. -/
theorem witness_reserved : (pending [.command ⟨0xA6, 0, 0, 0, []⟩]).Live ∧
    (∀ n ∈ [0x03, 0x07, 0x22, 0x27, 0x2F, 0x38, 0x3F, 0x74, 0x78, 0x84, 0x8F, 0x9A, 0x9F, 0xA6, 0xFF], reservedOp n) ∧
    ∀ n ∈ [0x02, 0x08, 0x21, 0x28, 0x2E, 0x30, 0x37, 0x40, 0x73, 0x75, 0x77, 0x79, 0x83, 0x90, 0x99, 0xA0, 0xA5], ¬ reservedOp n := by
  refine ⟨rfl, ?_⟩; decide

/-- StepRunsDecoded, ResetInput: a decoded command, a reset and no input. -/
theorem witness_step : (pending [.command ⟨0xA4, 0, 0, 0, []⟩]).inputs = [.command ⟨0xA4, 0, 0, 0, []⟩] ∧
    decode ⟨0xA4, 0, 0, 0, []⟩ = .ok .pushf ∧ (pending [.reset]).inputs = [.reset] ∧ State.reset.inputs = [] := ⟨rfl, rfl, rfl, rfl⟩

/-- StepKeepsInvariant: the state after reset, a command pending. -/
theorem witness_invariant : (pending [.command ⟨0xA1, 5, 200, 0, []⟩]).Inv ∧
    ∃ t, step (pending [.command ⟨0xA1, 5, 200, 0, []⟩]) = .next t := by
  refine ⟨⟨?_, ?_, ?_⟩, _, rfl⟩
  · unfold State.Geometry; decide +kernel
  · exact storage_reset Config.standard
  · unfold State.ViolationWf; decide +kernel

/-- MmixConversions: the reserved opcodes, and a reconstruction of each width. -/
theorem witness_join_ports : ((⟨0x74, 0, 0, 0, []⟩ : Command).op = 0x74 ∧ (⟨0x78, 0, 0, 0, []⟩ : Command).op = 0x78) ∧
    (0x79 ≤ (0x79 : BitVec 8).toNat ∧ 8 = 4 * 2 ^ ((0x79 : BitVec 8).toNat % 4)) ∧
    ((0x7B : BitVec 8).toNat ≤ 0x7B ∧ 32 = 4 * 2 ^ ((0x7B : BitVec 8).toNat % 4)) := by decide

/-- UpperPortBitsIgnored: the ends of the opcode range, at the narrowest and the widest width. -/
theorem witness_ports : 0x40 ≤ (0x40 : BitVec 8).toNat ∧ (0x73 : BitVec 8).toNat ≤ 0x73 ∧ 8 = 8 * 2 ^ ((0x40 : BitVec 8).toNat % 4) ∧
    64 = 8 * 2 ^ ((0x73 : BitVec 8).toNat % 4) ∧ decode ⟨0x40, 0x1FF, 1, 0, []⟩ = .ok (.addB 0xFF 1) ∧
    decode ⟨0x73, 5, 6, 0, []⟩ = .ok (.cmpsO 5 6) := ⟨by decide, by decide, by decide, by decide, rfl, rfl⟩

end Sys2Proof.Tests
end

section
/-! What one step can do, and that it changes neither the parameters nor the inputs behind the first one (R8, R34, R371). -/

namespace Sys2Proof.Machine

variable {s t : State}

/-- Everything a step can do: nothing, a reset, a command, or the rejection of a reserved opcode (R349). -/
theorem step_cases (h : step s = .next t) :
    (s.inputs = [] ∧ t = s) ∨
    (∃ rest, s.inputs = .reset :: rest ∧ t = applyReset { s with inputs := rest }) ∨
    (∃ c rest i, s.inputs = .command c :: rest ∧ decode c = .ok i ∧ exec i { s with inputs := rest } = .next t) ∨
    (∃ c rest e, s.inputs = .command c :: rest ∧ decode c = .error e ∧ rejectOpcode { s with inputs := rest } = .next t) := by
  unfold step at h
  split at h
  · injection h with h; exact .inl ⟨‹_›, h.symm⟩
  · injection h with h; exact .inr (.inl ⟨_, ‹_›, h.symm⟩)
  · split at h
    · exact .inr (.inr (.inl ⟨_, _, _, ‹_›, ‹_›, h⟩))
    · exact .inr (.inr (.inr ⟨_, _, _, ‹_›, ‹_›, h⟩))

theorem exec_cfg_inputs {i : Instr} (h : exec i s = .next t) : t.cfg = s.cfg ∧ t.inputs = s.inputs := by
  obtain ⟨-, rfl⟩ | ⟨-, k, -, rfl⟩ | ⟨-, u, hu, ht⟩ := exec_effect h
  · exact ⟨rfl, rfl⟩
  · exact ⟨rfl, rfl⟩
  · obtain ⟨hcfg, -, -, hinputs, -⟩ := effect_block hu
    rw [ht]; exact ⟨hcfg, hinputs⟩

theorem rejectOpcode_cfg_inputs (h : rejectOpcode s = .next t) : t.cfg = s.cfg ∧ t.inputs = s.inputs := by
  obtain ⟨-, rfl⟩ | ⟨-, k, -, rfl⟩ | ⟨-, u, r, hact, -⟩ := perform_cases h
  · exact ⟨rfl, rfl⟩
  · exact ⟨rfl, rfl⟩
  · cases hact

theorem step_cfg_inputs (h : step s = .next t) : t.cfg = s.cfg ∧ t.inputs = s.inputs.tail := by
  obtain ⟨hin, rfl⟩ | ⟨rest, hin, rfl⟩ | ⟨c, rest, i, hin, -, hc⟩ | ⟨c, rest, e, hin, -, hc⟩ := step_cases h <;> rw [hin]
  · exact ⟨rfl, rfl⟩
  · exact ⟨rfl, rfl⟩
  · exact exec_cfg_inputs hc
  · exact rejectOpcode_cfg_inputs hc

end Sys2Proof.Machine

namespace Sys2Proof.Proofs

open Sys2Proof.Machine

/-- Settles O60: a step and a command keep the parameters, and only a step takes an input off. -/
theorem parametersFixed : Obligations.ParametersFixed :=
  ⟨fun _ _ => step_cfg_inputs, fun _ _ _ => exec_cfg_inputs⟩

end Sys2Proof.Proofs
end

section
/-! A state whose foreign half is exchanged for another state's, and that a command of the own half commutes with the
exchange: this one equation holds the frame and the non-interference of R10. -/

namespace Sys2Proof.Machine

/-- `s` on the half `mix` names (MIX if true, MMIX if false), on the parameters and on the block-level bits; `p` on the other half, the
response port and the pending inputs. -/
def State.graft (mix : Bool) (p s : State) : State where
  cfg := s.cfg
  regA := bif mix then s.regA else p.regA
  regX := bif mix then s.regX else p.regX
  idx := bif mix then s.idx else p.idx
  regJ := bif mix then s.regJ else p.regJ
  ov := bif mix then s.ov else p.ov
  ci := bif mix then s.ci else p.ci
  mixmem := bif mix then s.mixmem else p.mixmem
  mmixmem := bif mix then p.mmixmem else s.mmixmem
  allocated := bif mix then p.allocated else s.allocated
  general := bif mix then p.general else s.general
  special := bif mix then p.special else s.special
  memoryStack := bif mix then p.memoryStack else s.memoryStack
  fatal := s.fatal
  cvKind := s.cvKind
  resp := p.resp
  inputs := p.inputs

/-- The graft after a command: the answer is the command's. -/
def State.graftNext (mix : Bool) (p t : State) : State := { State.graft mix p t with resp := t.resp }

variable (mix : Bool) (p s : State)

theorem graft_self : State.graft mix s s = s := by cases mix <;> rfl

/-! ### The shapes of a command -/

section
variable {mix p s}
variable {t u u' : State} {r r' : Response} {k : CvKind} {c : Prop} [Decidable c]

theorem perform_ok_graft (hu : u' = State.graft mix p u) (h : perform s (.ok (u, r)) = .next t) :
    perform (State.graft mix p s) (.ok (u', r)) = .next (State.graftNext mix p t) := by
  obtain ⟨hf, rfl⟩ | ⟨-, k, hact, -⟩ | ⟨hf, u₁, r₁, hact, rfl⟩ := perform_cases h
  · exact perform_fatal (s := State.graft mix p s) hf
  · cases hact
  · cases hact; rw [hu]; exact perform_ok (s := State.graft mix p s) hf _ _

theorem perform_error_graft (h : perform s (.error k) = .next t) :
    perform (State.graft mix p s) (.error k) = .next (State.graftNext mix p t) := by
  obtain ⟨hf, rfl⟩ | ⟨hf, k₁, hact, rfl⟩ | ⟨-, u, r, hact, -⟩ := perform_cases h
  · exact perform_fatal (s := State.graft mix p s) hf
  · cases hact; exact perform_error (s := State.graft mix p s) hf _
  · cases hact

theorem respond_graft (hr : r' = r) (h : respond s r = .next t) :
    respond (State.graft mix p s) r' = .next (State.graftNext mix p t) := by
  rw [hr]; exact perform_ok_graft rfl h

theorem perform_ite_graft {a b a' b' : Except CvKind (State × Response)}
    (ha : perform s a = .next t → perform (State.graft mix p s) a' = .next (State.graftNext mix p t))
    (hb : perform s b = .next t → perform (State.graft mix p s) b' = .next (State.graftNext mix p t))
    (h : perform s (if c then a else b) = .next t) :
    perform (State.graft mix p s) (if c then a' else b') = .next (State.graftNext mix p t) := by
  split at h <;> rename_i hc
  · rw [if_pos hc]; exact ha h
  · rw [if_neg hc]; exact hb h

end

/-! ### Operations of the MIX half, the MMIX half grafted -/

theorem mixReadSeq_graft (a n : Nat) : mixReadSeq (State.graft true p s) a n = mixReadSeq s a n := by
  induction n generalizing a with
  | zero => rfl
  | succ n ih => rw [mixReadSeq, ih]; rfl

theorem mixWriteSeq_graft (ws : List MixWord) (a : Nat) :
    mixWriteSeq (State.graft true p s) a ws = State.graft true p (mixWriteSeq s a ws) := by
  induction ws generalizing s a with
  | nil => rfl
  | cons w ws ih => exact ih (mixWrite s a w) (a + 1)

theorem mixRegWrite_graft (v : MixWord) (r : MixReg) :
    mixRegWrite (State.graft true p s) v r = State.graft true p (mixRegWrite s v r) := by cases r <;> rfl

/-! ### Operations of the MMIX half, the MIX half grafted -/

theorem loadBytes_graft (a : Octa) (n : Nat) : loadBytes (State.graft false p s) a n = loadBytes s a n := by
  induction n generalizing a with
  | zero => rfl
  | succ n ih => rw [loadBytes, ih]; rfl

theorem memRead_graft (a : Octa) (n : Nat) : memRead (State.graft false p s) a n = memRead s a n := by
  rw [memRead, loadBytes_graft]; rfl

theorem loadAnswer_graft (a : Octa) (n : Nat) : loadAnswer (State.graft false p s) a n = loadAnswer s a n := by
  rw [loadAnswer, memRead_graft]; rfl

theorem storeBytes_graft (bs : List Byte) (a : Octa) :
    storeBytes (State.graft false p s) a bs = State.graft false p (storeBytes s a bs) := by
  induction bs generalizing s a with
  | nil => rfl
  | cons b bs ih => exact ih (setByte s a b) (a + 1)

theorem memWrite_graft (a : Octa) (n : Nat) (v : BitVec (8 * n)) :
    memWrite (State.graft false p s) a n v = State.graft false p (memWrite s a n v) := storeBytes_graft p s _ a

theorem growStep_graft : growStep (State.graft false p s) = State.graft false p (growStep s) := by
  unfold growStep; dsimp only; rw [apply_ite (State.graft false p)]; rfl

theorem growBy_graft (n : Nat) : growBy n (State.graft false p s) = State.graft false p (growBy n s) := by
  induction n generalizing s with
  | zero => rfl
  | succ n ih => rw [growBy, growStep_graft, ih]; rfl

theorem generalWrite_graft (r : BitVec 8) (v : Octa) :
    generalWrite (State.graft false p s) r v = State.graft false p (generalWrite s r v) := by
  unfold generalWrite; dsimp only; rw [growBy_graft]; simp only [apply_ite (State.graft false p)]; rfl

theorem specialWrite_graft (n : BitVec 5) (v : Octa) :
    specialWrite (State.graft false p s) n v = State.graft false p (specialWrite s n v) := by
  rw [specialWrite, specialWrite, apply_ite (State.graft false p)]; rfl

theorem fill_graft : fill (State.graft false p s) = (fill s).map (State.graft false p) := by
  rw [fill, fill, apply_ite (Except.map (State.graft false p))]; rfl

theorem popStep_graft : popStep (State.graft false p s) = (popStep s).map (State.graft false p) := by
  have hfill : (if alpha (State.graft false p s) = gamma (State.graft false p s) then fill (State.graft false p s) else .ok (State.graft false p s)) =
      (if alpha s = gamma s then fill s else .ok s).map (State.graft false p) := by
    rw [fill_graft, apply_ite (Except.map (State.graft false p))]; rfl
  rw [popStep, popStep, hfill]
  cases (if alpha s = gamma s then fill s else .ok s) with
  | error k => rfl
  | ok t =>
    exact (apply_ite (Except.map (State.graft false p)) ((rO t).toNat < 8) (.error CvKind.frameUnderflow)
      (.ok (setSpecial t t.cfg.numRO (rO t - 8)))).symm

theorem popSteps_graft (n : Nat) : popSteps n (State.graft false p s) = (popSteps n s).map (State.graft false p) := by
  induction n generalizing s with
  | zero => rfl
  | succ n ih =>
    rw [popSteps, popSteps, popStep_graft]
    cases popStep s with
    | error k => rfl
    | ok t => exact ih t

theorem popFrame_graft (size : BitVec 9) :
    popFrame (State.graft false p s) size = (popFrame s size).map (State.graft false p) := by
  have hsteps : popSteps size.toNat (setSpecial (State.graft false p s) (State.graft false p s).cfg.numRL 0) =
      (popSteps size.toNat (setSpecial s s.cfg.numRL 0)).map (State.graft false p) :=
    popSteps_graft p (setSpecial s s.cfg.numRL 0) size.toNat
  unfold popFrame
  rw [apply_ite (Except.map (State.graft false p)), hsteps]
  congr 1
  cases popSteps size.toNat (setSpecial s s.cfg.numRL 0) <;> rfl

variable {p s} in
theorem perform_storeResult_graft {t : State} {addr : Octa} {n : Nat} {v : BitVec (8 * n)}
    (h : perform s (.ok (storeResult s addr n v)) = .next t) :
    perform (State.graft false p s) (.ok (storeResult (State.graft false p s) addr n v)) = .next (State.graftNext false p t) := by
  have hm : misaligned (State.graft false p s) addr n = misaligned s addr n := rfl
  rw [storeResult] at h ⊢
  rw [hm]
  split at h <;> rename_i hmis
  · rw [if_pos hmis]; exact perform_ok_graft rfl h
  · rw [if_neg hmis]; exact perform_ok_graft (memWrite_graft p s _ _ _) h

variable {p s} in
theorem execPopf_graft {t : State} {size : BitVec 9} (h : execPopf size s = .next t) :
    execPopf size (State.graft false p s) = .next (State.graftNext false p t) := by
  rw [execPopf] at h ⊢
  rw [popFrame_graft]
  cases hpop : popFrame s size with
  | error k => rw [hpop] at h; exact perform_error_graft h
  | ok u => rw [hpop] at h; exact perform_ok_graft rfl h

/-! ### The commuting equation -/

variable {s} in
/-- A command cannot tell the graft from the state itself, and leaves what was grafted alone (R10). -/
theorem exec_graft {i : Instr} {t : State} (h : exec i s = .next t) :
    exec i (State.graft i.isMix p s) = .next (State.graftNext i.isMix p t) := by
  cases i with
  | fsEnc | fsDec | mxFget | mxFput | mmLoad | mmStore => exact perform_ite_graft (perform_ok_graft rfl) perform_error_graft h
  | mxMake | mxFromint | mxGetb => exact perform_ite_graft perform_error_graft (perform_ok_graft rfl) h
  | mxSetb => exact perform_ite_graft perform_error_graft (perform_ite_graft perform_error_graft (perform_ok_graft rfl)) h
  | mxDiv => exact perform_ite_graft (perform_ok_graft rfl) (perform_ite_graft perform_error_graft (perform_ok_graft rfl)) h
  | maMake | mxTrunc | mxToint | mxSign | mxMag | mxNeg | mxAdd | mxSub | mxMul | mxCmp | mxIszero | mxEqbits
  | mxShl | mxShr | mxRol | mxRor | mxShld | mxShrd | mxRold | mxRord
  | mrEa | mrIdxoff | mrGetov | mrGetci => exact respond_graft rfl h
  | mmLoadprog | mmLoadimg | mmClrrng => exact perform_ok_graft (mixWriteSeq_graft p s _ _) h
  | mmClear | mrSetov | pushf => exact perform_ok_graft rfl h
  | mrRead id =>
    dsimp only [exec, execMrRead] at h ⊢
    cases hr : mixRegOf id with
    | none => rw [hr] at h; exact perform_error_graft h
    | some r => rw [hr] at h; exact perform_ok_graft rfl h
  | mrWrite v id =>
    dsimp only [exec, execMrWrite] at h ⊢
    cases hr : mixRegOf id with
    | none => rw [hr] at h; exact perform_error_graft h
    | some r => rw [hr] at h; exact perform_ok_graft (mixRegWrite_graft p s v r) h
  | mrSetci c =>
    dsimp only [exec, execMrSetci] at h ⊢
    cases hc : cmpOfCode c with
    | none => rw [hc] at h; exact perform_error_graft h
    | some v => rw [hc] at h; exact perform_ok_graft rfl h
  | mmDump => exact respond_graft (congrArg (fun ws => answerSeq (ws.map mixPort)) (mixReadSeq_graft p s _ _)) h
  | addB | addW | addT | addO | subB | subW | subT | subO | mulB | mulW | mulT | mulO
  | adduoB | adduoW | adduoT | adduoO | addsoB | addsoW | addsoT | addsoO
  | subuoB | subuoW | subuoT | subuoO | subsoB | subsoW | subsoT | subsoO
  | muluoB | muluoW | muluoT | muluoO | mulsoB | mulsoW | mulsoT | mulsoO
  | mulfuB | mulfuW | mulfuT | mulfuO | divuB | divuW | divuT | divuO
  | cmpuB | cmpuW | cmpuT | cmpuO | cmpsB | cmpsW | cmpsT | cmpsO
  | splitW | splitT | splitO | joinW | joinT | joinO | truncB | truncW | truncT | truncO
  | svalB | svalW | svalT | svalO | grRead | srRead => exact respond_graft rfl h
  | ldB => exact respond_graft (congrArg (fun v => answer1 (bitsPort v)) (memRead_graft p s _ 1)) h
  | ldW | ldT | ldO => exact respond_graft (loadAnswer_graft p s _ _) h
  | stB => exact perform_ok_graft (memWrite_graft p s _ _ _) h
  | mbLoadimg => exact perform_ok_graft (storeBytes_graft p s _ _) h
  | mbDump => exact respond_graft (congrArg (fun bs => answerSeq (bs.map bitsPort)) (loadBytes_graft p s _ _)) h
  | grWrite => exact perform_ok_graft (generalWrite_graft p s _ _) h
  | stW | stT | stO => exact perform_storeResult_graft h
  | srWrite => exact perform_ite_graft perform_error_graft (perform_ok_graft (specialWrite_graft p s _ _)) h
  | popf => exact execPopf_graft h

variable {p s}

open Sys2Proof.Claims

theorem eq_graft_of_mixHalfEq (hm : MixHalfEq s p) (hb : BlockEq s p) : p = State.graft true p s := by
  obtain ⟨hA, hX, hidx, hJ, hov, hci, hmem⟩ := hm
  obtain ⟨hcfg, hfatal, hcv⟩ := hb
  rw [State.graft, ← hA, ← hX, ← hidx, ← hJ, ← hov, ← hci, ← hmem, ← hcfg, ← hfatal, ← hcv]; rfl

theorem eq_graft_of_mmixHalfEq (hm : MmixHalfEq s p) (hb : BlockEq s p) : p = State.graft false p s := by
  obtain ⟨hmem, halloc, hgen, hspec, hstack⟩ := hm
  obtain ⟨hcfg, hfatal, hcv⟩ := hb
  rw [State.graft, ← hmem, ← halloc, ← hgen, ← hspec, ← hstack, ← hcfg, ← hfatal, ← hcv]; rfl

variable {i : Instr} {t : State}

/-- The frame, from the graft of a state on itself. -/
theorem exec_eq_graftNext (h : exec i s = .next t) : t = State.graftNext i.isMix s t := by
  have hg := exec_graft s h
  rw [graft_self, h] at hg
  injection hg

/-- A MIX command neither changes nor reads the MMIX half (R10). -/
theorem exec_mix_independent (hi : i.isMix = true) (h : exec i s = .next t) :
    MmixHalfEq s t ∧ (MixHalfEq s p → BlockEq s p →
      ∃ t', exec i p = .next t' ∧ t'.resp = t.resp ∧ MixHalfEq t t' ∧ BlockEq t t' ∧ MmixHalfEq p t') := by
  refine ⟨?_, fun hm hb => ⟨State.graftNext true p t, ?_, rfl, ⟨rfl, rfl, rfl, rfl, rfl, rfl, rfl⟩, ⟨rfl, rfl, rfl⟩, ⟨rfl, rfl, rfl, rfl, rfl⟩⟩⟩
  · rw [exec_eq_graftNext h, hi]; exact ⟨rfl, rfl, rfl, rfl, rfl⟩
  · have hg := exec_graft p h
    rwa [hi, ← eq_graft_of_mixHalfEq hm hb] at hg

/-- An MMIX command neither changes nor reads the MIX half (R10). -/
theorem exec_mmix_independent (hi : i.isMix = false) (h : exec i s = .next t) :
    MixHalfEq s t ∧ (MmixHalfEq s p → BlockEq s p →
      ∃ t', exec i p = .next t' ∧ t'.resp = t.resp ∧ MmixHalfEq t t' ∧ BlockEq t t' ∧ MixHalfEq p t') := by
  refine ⟨?_, fun hm hb => ⟨State.graftNext false p t, ?_, rfl, ⟨rfl, rfl, rfl, rfl, rfl⟩, ⟨rfl, rfl, rfl⟩, ⟨rfl, rfl, rfl, rfl, rfl, rfl, rfl⟩⟩⟩
  · rw [exec_eq_graftNext h, hi]; exact ⟨rfl, rfl, rfl, rfl, rfl, rfl, rfl⟩
  · have hg := exec_graft p h
    rwa [hi, ← eq_graft_of_mmixHalfEq hm hb] at hg

end Sys2Proof.Machine

namespace Sys2Proof.Proofs

open Sys2Proof.Machine

/-- Settles O59: a command commutes with the exchange of the foreign half. -/
theorem halvesAreIndependent : Obligations.HalvesAreIndependent :=
  fun _ _ _ _ h => ⟨(exec_mix_independent · h), (exec_mmix_independent · h)⟩

end Sys2Proof.Proofs
end

section
/-! The special registers after reset, and the values of R28, R30, R33, R43. -/

namespace Sys2Proof.Machine

variable (cfg : Config)

theorem specialAt_resetWith (n : BitVec 5) :
    specialAt (State.resetWith cfg) n = if n = cfg.numRG then BitVec.ofNat 64 cfg.gReset else 0 := by
  simp only [specialAt, State.resetWith, Vector.getElem_set, Vector.getElem_replicate, BitVec.toNat_inj, eq_comm]

@[simp] theorem rO_resetWith : rO (State.resetWith cfg) = 0 :=
  (specialAt_resetWith cfg _).trans (if_neg cfg.distinct.2.2.1)

@[simp] theorem rS_resetWith : rS (State.resetWith cfg) = 0 :=
  (specialAt_resetWith cfg _).trans (if_neg cfg.distinct.2.2.2.2.1)

@[simp] theorem rL_resetWith : rL (State.resetWith cfg) = 0 :=
  (specialAt_resetWith cfg _).trans (if_neg cfg.distinct.2.2.2.2.2)

@[simp] theorem rG_resetWith : rG (State.resetWith cfg) = BitVec.ofNat 64 cfg.gReset :=
  (specialAt_resetWith cfg _).trans (if_pos rfl)

theorem gReset_toNat : (BitVec.ofNat 64 cfg.gReset).toNat = cfg.gReset := by
  have := cfg.g_le
  rw [BitVec.toNat_ofNat]; omega

end Sys2Proof.Machine

namespace Sys2Proof.Proofs

open Sys2Proof.Machine

/-- Settles O53: the storage is that of `State.resetWith`, and the pointers are those of `rO`, `rS` and `rL` zero. -/
theorem resetValues : Obligations.ResetValues := by
  intro cfg
  refine ⟨rfl, rfl, rfl, fun k => ?_, rfl, rfl, rfl, fun _ => rfl, rfl, fun _ => rfl, fun k => ?_, fun n => ?_, ?_, ?_, ?_, ?_, rfl, rfl⟩
  · exact Vector.getElem_replicate _
  · exact Vector.getElem_replicate _
  · rw [specialAt_resetWith, apply_ite BitVec.toNat, gReset_toNat]; rfl
  · simp [alpha]
  · simp [beta, alpha, thresholdL]
  · simp [gamma]
  · simp [stackLen]

end Sys2Proof.Proofs
end

section
/-! Which commands write the MIX registers, `OV` and `CI` (R27). -/

namespace Sys2Proof.Machine

variable {i : Instr} {s u : State}

/-- Of the MIX commands' effects, one writes the MIX registers, one `OV` and one `CI`. -/
theorem mix_effect_registers (hi : i.isMix = true) (h : Effect s i u) :
    ((∀ v id, i ≠ .mrWrite v id) → u.regA = s.regA ∧ u.regX = s.regX ∧ u.idx = s.idx ∧ u.regJ = s.regJ) ∧
    ((∀ b, i ≠ .mrSetov b) → u.ov = s.ov) ∧ ((∀ c, i ≠ .mrSetci c) → u.ci = s.ci) := by
  cases h with
  | same | mmStore | mmClear => exact ⟨fun _ => ⟨rfl, rfl, rfl, rfl⟩, fun _ => rfl, fun _ => rfl⟩
  | mmLoadprog | mmLoadimg | mmClrrng =>
    rw [mixWriteSeq_frame]; exact ⟨fun _ => ⟨rfl, rfl, rfl, rfl⟩, fun _ => rfl, fun _ => rfl⟩
  | mrWrite v id => rw [mixRegWrite_frame]; exact ⟨fun hne => absurd rfl (hne v id), fun _ => rfl, fun _ => rfl⟩
  | mrSetov b => exact ⟨fun _ => ⟨rfl, rfl, rfl, rfl⟩, fun hne => absurd rfl (hne b), fun _ => rfl⟩
  | mrSetci c => exact ⟨fun _ => ⟨rfl, rfl, rfl, rfl⟩, fun _ => rfl, fun hne => absurd rfl (hne c)⟩
  | stB | stW | stT | stO | mbLoadimg | grWrite | srWrite | pushf | popf => cases hi

end Sys2Proof.Machine

namespace Sys2Proof.Proofs

open Sys2Proof.Machine

/-- Settles O23: an MMIX command leaves the MIX half alone (R10); a MIX command answers, raises, or has one of its effects. -/
theorem mixRegistersWrittenOnlyByTheirCommands : Obligations.MixRegistersWrittenOnlyByTheirCommands := by
  intro i s t h
  cases hi : i.isMix with
  | false =>
    obtain ⟨⟨hA, hX, hidx, hJ, hov, hci, -⟩, -⟩ := exec_mmix_independent (p := s) hi h
    exact ⟨fun _ => ⟨hA, hX, hidx, hJ⟩, fun _ => hov, fun _ => hci⟩
  | true =>
    obtain ⟨-, rfl⟩ | ⟨-, k, -, rfl⟩ | ⟨-, u, hu, ht⟩ := exec_effect h
    · exact ⟨fun _ => ⟨rfl, rfl, rfl, rfl⟩, fun _ => rfl, fun _ => rfl⟩
    · exact ⟨fun _ => ⟨rfl, rfl, rfl, rfl⟩, fun _ => rfl, fun _ => rfl⟩
    · have hregs := mix_effect_registers hi hu
      rw [ht]; exact hregs

end Sys2Proof.Proofs
end

section
/-! The invariant of the block: it holds at reset, and every writing operation, every command and every step keeps it
(R39, R42, R44, R372). -/

namespace Sys2Proof.Machine

variable {s t u : State}

/-! ### From the storage an operation writes -/

theorem inv_of_mixmem (h : s.Inv) (hu : u = { s with mixmem := u.mixmem }) (hwf : SparseWf MixWord.plusZero u.mixmem)
    (hlt : ∀ e ∈ u.mixmem, e.1 < s.cfg.mixMemSize) : u.Inv := by
  obtain ⟨hgeo, ⟨-, hmem, hpages, hstack⟩, hviol⟩ := h
  rw [hu]; exact ⟨hgeo, ⟨⟨hwf, hlt⟩, hmem, hpages, hstack⟩, hviol⟩

theorem inv_of_window (h : s.Inv) (hu : u = { s with general := u.general, special := u.special, memoryStack := u.memoryStack })
    (hgeo : u.Geometry) (hstack : StackWf u) : u.Inv := by
  obtain ⟨-, ⟨hmix, hmem, hpages, -⟩, hviol⟩ := h
  rw [hu] at hgeo hstack ⊢
  exact ⟨hgeo, ⟨hmix, hmem, hpages, hstack⟩, hviol⟩

theorem inv_window (h : s.Inv) : s.Geometry ∧ StackWf s := by
  obtain ⟨hgeo, ⟨-, -, -, hstack⟩, -⟩ := h
  exact ⟨hgeo, hstack⟩

/-! ### The two memories -/

theorem mixWriteSeq_inv (h : s.Inv) (a : Nat) (ws : List MixWord) : (mixWriteSeq s a ws).Inv := by
  have ⟨_, ⟨⟨hwf, hlt⟩, _⟩, _⟩ := h
  exact inv_of_mixmem h (mixWriteSeq_frame ws s a) (mixWriteSeq_wf hwf a ws) (mixWriteSeq_mem_lt ws hlt a)

theorem storeBytes_inv (h : s.Inv) (a : Octa) (bs : List Byte) : (storeBytes s a bs).Inv := by
  obtain ⟨hgeo, ⟨hmix, ⟨hmem, hon⟩, hpages, hstack⟩, hviol⟩ := h
  obtain ⟨hon', hpages'⟩ := storeBytes_pagesWf bs ⟨hon, hpages⟩ a
  have hmem' := storeBytes_wf hmem a bs
  rw [storeBytes_frame] at hmem' hon' hpages' ⊢
  exact ⟨hgeo, ⟨hmix, ⟨hmem', hon'⟩, hpages', hstack⟩, hviol⟩

/-! ### The register window -/

theorem setGeneral_inv (h : s.Inv) (p : BitVec 8) (v : Octa) : (setGeneral s p v).Inv := h

/-- Growth that stays within `G` keeps the geometry (R39). -/
theorem growBy_geometry (h : s.Geometry) {n : Nat} (hn : thresholdL s + n ≤ thresholdG s) : (growBy n s).Geometry := by
  obtain ⟨-, h256, hO, hS⟩ := h
  obtain ⟨gL, gO, gG, -⟩ := growBy_regs n s
  have hL : thresholdL (growBy n s) = thresholdL s + n := by
    simp only [thresholdL, thresholdG] at *
    rw [gL, BitVec.toNat_add, BitVec.toNat_ofNat]; omega
  have hG : thresholdG (growBy n s) = thresholdG s := congrArg BitVec.toNat gG
  exact ⟨by omega, by omega, by rw [gO]; exact hO, growBy_rS_aligned n s hS⟩

theorem growBy_inv (h : s.Inv) {n : Nat} (hn : thresholdL s + n ≤ thresholdG s) : (growBy n s).Inv := by
  obtain ⟨hgeo, hstack⟩ := inv_window h
  exact inv_of_window h (by rw [growBy_frame]) (growBy_geometry hgeo hn) (growBy_stackWf n hstack)

theorem generalWrite_inv (h : s.Inv) (r : BitVec 8) (v : Octa) : (generalWrite s r v).Inv := by
  unfold generalWrite
  split
  · exact h
  · split
    · exact setGeneral_inv h _ v
    · split
      · exact setGeneral_inv h _ v
      · exact setGeneral_inv (growBy_inv h (by omega)) _ v

theorem specialAt_specialWrite (n m : BitVec 5) (v : Octa) :
    specialAt (specialWrite s n v) m = if m = n then v else specialAt s m := by
  unfold specialWrite
  split
  · rename_i hn; rw [hn]; exact specialAt_setRS s m v
  · exact specialAt_setSpecial s n m v

theorem breaksGeometry_eq_false {n : BitVec 5} {v : Octa} :
    breaksGeometry s n v = false ↔
      (n = s.cfg.numRL → v.toNat ≤ thresholdG s) ∧ (n = s.cfg.numRG → thresholdL s ≤ v.toNat ∧ v.toNat ≤ 256) ∧
      (n = s.cfg.numRO → v.toNat % 8 = 0) ∧ (n = s.cfg.numRS → v.toNat % 8 = 0) := by
  simp [breaksGeometry, and_assoc]

/-- The check of R316 is what keeps the geometry. -/
theorem specialWrite_geometry (h : s.Geometry) {n : BitVec 5} {v : Octa} (hb : breaksGeometry s n v = false) :
    (specialWrite s n v).Geometry := by
  obtain ⟨hL, hG, hO, hS⟩ := h
  obtain ⟨bL, bG, bO, bS⟩ := breaksGeometry_eq_false.1 hb
  have hc : (specialWrite s n v).cfg = s.cfg := by rw [specialWrite_frame]
  have hval : ∀ m, (specialAt (specialWrite s n v) m).toNat = if m = n then v.toNat else (specialAt s m).toNat :=
    fun m => by rw [specialAt_specialWrite, apply_ite BitVec.toNat]
  simp only [State.Geometry, thresholdL, thresholdG, rL, rG, rO, rS, hc, hval]
  refine ⟨?_, ?_, ?_, ?_⟩
  · split_ifs with hnL hnG hnG
    · exact absurd (hnL.trans hnG.symm) s.cfg.distinct.2.2.2.2.2
    · exact bL hnL.symm
    · exact (bG hnG.symm).1
    · exact hL
  · split_ifs with hn
    exacts [(bG hn.symm).2, hG]
  · split_ifs with hn
    exacts [bO hn.symm, hO]
  · split_ifs with hn
    exacts [bS hn.symm, hS]

theorem specialWrite_inv (h : s.Inv) {n : BitVec 5} {v : Octa} (hb : breaksGeometry s n v = false) : (specialWrite s n v).Inv := by
  obtain ⟨hgeo, hstack⟩ := inv_window h
  refine inv_of_window h (by rw [specialWrite_frame]) (specialWrite_geometry hgeo hb) ?_
  unfold specialWrite
  split
  · exact setRS_stackWf hstack.1 v
  · exact setSpecial_stackWf hstack ‹_› v

/-- What `PUSHF` leaves of the state: `rO` past the caller's locals, modulo `2^64`, and `L` zero (R307). -/
def pushFrame (s : State) : State := setSpecial (setSpecial s s.cfg.numRO (rO s + 8 * rL s)) s.cfg.numRL 0

theorem pushFrame_inv (h : s.Inv) : (pushFrame s).Inv := by
  obtain ⟨⟨-, gG, gO, gS⟩, hstack⟩ := inv_window h
  have hL : thresholdL (pushFrame s) = 0 := congrArg BitVec.toNat (rL_setRL _ _)
  have hG : rG (pushFrame s) = rG s := (rG_setRL _ _).trans (rG_setRO _ _)
  have hO : rO (pushFrame s) = rO s + 8 * rL s := (rO_setRL _ _).trans (rO_setRO _ _)
  have hS : rS (pushFrame s) = rS s := (rS_setRL _ _).trans (rS_setRO _ _)
  refine inv_of_window h rfl ⟨by omega, ?_, ?_, ?_⟩
    (setSpecial_stackWf (setSpecial_stackWf hstack s.cfg.distinct.1 _) s.cfg.distinct.2.2.2.1.symm _)
  · rw [thresholdG, hG]; exact gG
  · rw [hO, BitVec.toNat_add, BitVec.toNat_mul, show (8 : Octa).toNat = 8 from rfl]; omega
  · rw [hS]; exact gS

/-- A frame pop that succeeds: the pop steps with `L` zero, then `L` the size, which is at most `G` (R308). -/
theorem popFrame_ok {size : BitVec 9} (h : popFrame s size = .ok u) : size.toNat ≤ thresholdG s ∧
    ∃ t, popSteps size.toNat (setSpecial s s.cfg.numRL 0) = .ok t ∧ u = setSpecial t t.cfg.numRL (size.setWidth 64) := by
  unfold popFrame at h
  split at h
  · cases h
  · split at h
    · cases h
    · injection h with h; exact ⟨by omega, _, ‹_›, h.symm⟩

theorem popFrame_inv (h : s.Inv) {size : BitVec 9} (hp : popFrame s size = .ok u) : u.Inv := by
  have hframe := popFrame_frame hp
  obtain ⟨⟨-, gG, gO, gS⟩, hstack⟩ := inv_window h
  obtain ⟨hsize, t, ht, rfl⟩ := popFrame_ok hp
  obtain ⟨aO, aS, -, aG⟩ := popSteps_aligned _ ht
  have tstack := popSteps_stackWf _ (setSpecial_stackWf hstack s.cfg.distinct.2.2.2.1.symm 0) ht
  have hL : thresholdL (setSpecial t t.cfg.numRL (size.setWidth 64)) = size.toNat := by
    rw [thresholdL, rL_setRL, BitVec.toNat_setWidth]; omega
  have hG : thresholdG (setSpecial t t.cfg.numRL (size.setWidth 64)) = thresholdG s := by
    rw [thresholdG, rG_setRL, aG, rG_setRL, thresholdG]
  refine inv_of_window h hframe ⟨by omega, by omega, ?_, ?_⟩ (setSpecial_stackWf tstack t.cfg.distinct.2.2.2.1.symm _)
  · rw [rO_setRL]; exact aO (by rw [rO_setRL]; exact gO)
  · rw [rS_setRL]; exact aS (by rw [rS_setRL]; exact gS)

/-! ### Every effect, every command, the reset -/

theorem effect_inv {i : Instr} (h : s.Inv) (hu : Effect s i u) : u.Inv := by
  cases hu with
  | same | mrSetov | mrSetci => exact h
  | mmStore v addr f => exact mixWriteSeq_inv h _ [fieldInsert (mixRead s addr.toNat) v f]
  | mmLoadprog | mmLoadimg | mmClrrng => exact mixWriteSeq_inv h _ _
  | mmClear => exact inv_of_mixmem h rfl (sparseWf_nil _) (List.forall_mem_nil _)
  | mrWrite => rw [mixRegWrite_frame]; exact h
  | stB | stW | stT | stO | mbLoadimg => exact storeBytes_inv h _ _
  | grWrite => exact generalWrite_inv h _ _
  | srWrite v n hb => exact specialWrite_inv h hb
  | pushf => exact pushFrame_inv h
  | popf size u hp => exact popFrame_inv h hp

theorem raiseCV_inv (h : s.Inv) {k : CvKind} (hk : k ≠ .none) : (raiseCV k s).Inv := by
  obtain ⟨hgeo, hstore, -⟩ := h
  exact ⟨hgeo, hstore, iff_of_true rfl hk⟩

theorem outcomes_inv {P : State → Prop} (h : s.Inv) (hP : ∀ u, P u → u.Inv) (ho : Outcomes P s t) : t.Inv := by
  obtain ⟨-, rfl⟩ | ⟨-, k, hk, rfl⟩ | ⟨-, u, hu, ht⟩ := ho
  · exact h
  · exact raiseCV_inv h hk
  · have hinv := hP u hu
    rw [ht]; exact hinv

theorem exec_inv {i : Instr} (h : s.Inv) (hc : exec i s = .next t) : t.Inv :=
  outcomes_inv h (fun _ => effect_inv h) (exec_effect hc)

theorem rejectOpcode_inv (h : s.Inv) (hc : rejectOpcode s = .next t) : t.Inv :=
  outcomes_inv (P := State.Inv) h (fun _ => id) (outcomes_error (by decide) hc)

theorem resetWith_inv (cfg : Config) : (State.resetWith cfg).Inv := by
  have hG : thresholdG (State.resetWith cfg) = cfg.gReset := by rw [thresholdG, rG_resetWith, gReset_toNat]
  have hgeo : (State.resetWith cfg).Geometry :=
    ⟨by simp [thresholdL], by rw [hG]; exact cfg.g_le, by simp, by simp⟩
  have hviol : (State.resetWith cfg).ViolationWf := iff_of_false Bool.false_ne_true (fun hne => hne rfl)
  exact ⟨hgeo, ⟨⟨sparseWf_nil _, List.forall_mem_nil _⟩, ⟨sparseWf_nil _, List.forall_mem_nil _⟩, ⟨.nil, List.forall_mem_nil _⟩,
    sparseWf_nil _, List.forall_mem_nil _⟩, hviol⟩

/-- Neither the pending inputs nor the response port is part of the invariant. -/
theorem inv_inputs (h : s.Inv) (inputs : List Input) : { s with inputs := inputs }.Inv := h

end Sys2Proof.Machine

namespace Sys2Proof.Proofs

open Sys2Proof.Machine

/-- Settles O55: a step is nothing, a reset, a command or a rejected opcode, and each keeps the invariant. -/
theorem stepKeepsInvariant : Obligations.StepKeepsInvariant := by
  intro s t h hstep
  obtain ⟨-, rfl⟩ | ⟨rest, -, rfl⟩ | ⟨c, rest, i, -, -, hc⟩ | ⟨c, rest, e, -, -, hc⟩ := step_cases hstep
  · exact h
  · exact inv_inputs (resetWith_inv s.cfg) rest
  · exact exec_inv (inv_inputs h rest) hc
  · exact rejectOpcode_inv (inv_inputs h rest) hc

end Sys2Proof.Proofs
end

section
/-! A command on a state with another set of allocated pages: only the stores of MMIX memory touch the set, and nothing reads it
(R32). -/

namespace Sys2Proof.Machine

/-- The state with another set of allocated pages. -/
def State.withPages (pages : List Nat) (s : State) : State := { s with allocated := pages }

variable (pages : List Nat) (s : State)

/-! ### MMIX memory -/

theorem loadBytes_withPages (a : Octa) (n : Nat) : loadBytes (s.withPages pages) a n = loadBytes s a n := by
  induction n generalizing a with
  | zero => rfl
  | succ n ih => rw [loadBytes, ih]; rfl

theorem memRead_withPages (a : Octa) (n : Nat) : memRead (s.withPages pages) a n = memRead s a n := by
  rw [memRead, loadBytes_withPages]; rfl

theorem loadAnswer_withPages (a : Octa) (n : Nat) : loadAnswer (s.withPages pages) a n = loadAnswer s a n := by
  rw [loadAnswer, memRead_withPages]; rfl

theorem storeBytes_withPages (bs : List Byte) (a : Octa) :
    ∃ pages', storeBytes (s.withPages pages) a bs = (storeBytes s a bs).withPages pages' := by
  induction bs generalizing s pages a with
  | nil => exact ⟨pages, rfl⟩
  | cons b bs ih => exact ih (insertPage (pageBase a) pages) (setByte s a b) (a + 1)

/-! ### The register window -/

theorem growBy_withPages (n : Nat) : growBy n (s.withPages pages) = (growBy n s).withPages pages := by
  induction n generalizing s with
  | zero => rfl
  | succ n ih =>
    have hstep : growStep (s.withPages pages) = (growStep s).withPages pages := by
      unfold growStep; dsimp only; rw [apply_ite (State.withPages pages)]; rfl
    rw [growBy, hstep, ih]; rfl

theorem generalWrite_withPages (r : BitVec 8) (v : Octa) :
    generalWrite (s.withPages pages) r v = (generalWrite s r v).withPages pages := by
  unfold generalWrite; dsimp only; rw [growBy_withPages]; simp only [apply_ite (State.withPages pages)]; rfl

theorem specialWrite_withPages (n : BitVec 5) (v : Octa) :
    specialWrite (s.withPages pages) n v = (specialWrite s n v).withPages pages := by
  rw [specialWrite, specialWrite, apply_ite (State.withPages pages)]; rfl

theorem popStep_withPages : popStep (s.withPages pages) = (popStep s).map (State.withPages pages) := by
  have hfill : (if alpha (s.withPages pages) = gamma (s.withPages pages) then fill (s.withPages pages) else .ok (s.withPages pages)) =
      (if alpha s = gamma s then fill s else .ok s).map (State.withPages pages) := by
    unfold fill; simp only [apply_ite (Except.map (State.withPages pages))]; rfl
  rw [popStep, popStep, hfill]
  cases (if alpha s = gamma s then fill s else .ok s) with
  | error k => rfl
  | ok t =>
    exact (apply_ite (Except.map (State.withPages pages)) _ (.error CvKind.frameUnderflow)
      (.ok (setSpecial t t.cfg.numRO (rO t - 8)))).symm

theorem popSteps_withPages (n : Nat) : popSteps n (s.withPages pages) = (popSteps n s).map (State.withPages pages) := by
  induction n generalizing s with
  | zero => rfl
  | succ n ih =>
    rw [popSteps, popSteps, popStep_withPages]
    cases popStep s with
    | error k => rfl
    | ok t => exact ih t

theorem popFrame_withPages (size : BitVec 9) :
    popFrame (s.withPages pages) size = (popFrame s size).map (State.withPages pages) := by
  have hsteps : popSteps size.toNat (setSpecial (s.withPages pages) (s.withPages pages).cfg.numRL 0) =
      (popSteps size.toNat (setSpecial s s.cfg.numRL 0)).map (State.withPages pages) :=
    popSteps_withPages pages (setSpecial s s.cfg.numRL 0) size.toNat
  rw [popFrame, popFrame, hsteps, apply_ite (Except.map (State.withPages pages))]
  cases popSteps size.toNat (setSpecial s s.cfg.numRL 0) <;> rfl

/-! ### Every command -/

variable {pages s} {t u u' : State} {r r' : Response} {k : CvKind}

theorem perform_ok_withPages {left : List Nat} (hu : u' = u.withPages left) (h : perform s (.ok (u, r)) = .next t) :
    ∃ pages', perform (s.withPages pages) (.ok (u', r)) = .next (t.withPages pages') := by
  obtain ⟨hf, rfl⟩ | ⟨-, k, hact, -⟩ | ⟨hf, u₁, r₁, hact, rfl⟩ := perform_cases h
  · exact ⟨pages, perform_fatal (s := s.withPages pages) hf⟩
  · cases hact
  · cases hact; rw [hu]; exact ⟨left, perform_ok (s := s.withPages pages) hf _ _⟩

theorem perform_error_withPages (h : perform s (.error k) = .next t) :
    ∃ pages', perform (s.withPages pages) (.error k) = .next (t.withPages pages') := by
  obtain ⟨hf, rfl⟩ | ⟨hf, k₁, hact, rfl⟩ | ⟨-, u, r, hact, -⟩ := perform_cases h
  · exact ⟨pages, perform_fatal (s := s.withPages pages) hf⟩
  · cases hact; exact ⟨pages, perform_error (s := s.withPages pages) hf _⟩
  · cases hact

theorem respond_withPages (hr : r' = r) (h : respond s r = .next t) :
    ∃ pages', respond (s.withPages pages) r' = .next (t.withPages pages') := by
  rw [hr]; exact perform_ok_withPages (left := pages) rfl h

theorem perform_storeBytes_withPages {a : Octa} {bs : List Byte} (h : perform s (.ok (storeBytes s a bs, r)) = .next t) :
    ∃ pages', perform (s.withPages pages) (.ok (storeBytes (s.withPages pages) a bs, r)) = .next (t.withPages pages') := by
  obtain ⟨pages', hpages⟩ := storeBytes_withPages pages s bs a
  exact perform_ok_withPages hpages h

theorem perform_storeResult_withPages {addr : Octa} {n : Nat} {v : BitVec (8 * n)}
    (h : perform s (.ok (storeResult s addr n v)) = .next t) :
    ∃ pages', perform (s.withPages pages) (.ok (storeResult (s.withPages pages) addr n v)) = .next (t.withPages pages') := by
  have hm : misaligned (s.withPages pages) addr n = misaligned s addr n := rfl
  rw [storeResult] at h ⊢
  rw [hm]
  split at h <;> rename_i hmis
  · rw [if_pos hmis]; exact respond_withPages rfl h
  · rw [if_neg hmis]; exact perform_storeBytes_withPages h

theorem execSrWrite_withPages {v : Octa} {n : BitVec 5} (h : execSrWrite v n s = .next t) :
    ∃ pages', execSrWrite v n (s.withPages pages) = .next (t.withPages pages') := by
  have hb : breaksGeometry (s.withPages pages) n v = breaksGeometry s n v := rfl
  rw [execSrWrite] at h ⊢
  rw [hb]
  split at h <;> rename_i hbreaks
  · rw [if_pos hbreaks]; exact perform_error_withPages h
  · rw [if_neg hbreaks]; exact perform_ok_withPages (specialWrite_withPages pages s n v) h

theorem execPopf_withPages {size : BitVec 9} (h : execPopf size s = .next t) :
    ∃ pages', execPopf size (s.withPages pages) = .next (t.withPages pages') := by
  rw [execPopf] at h ⊢
  rw [popFrame_withPages]
  cases hpop : popFrame s size with
  | error k => rw [hpop] at h; exact perform_error_withPages h
  | ok u => rw [hpop] at h; exact perform_ok_withPages rfl h

/-- For a MIX command the page set is part of the foreign half, which can be exchanged (R10). -/
theorem exec_mix_withPages {i : Instr} (hi : i.isMix = true) (h : exec i s = .next t) :
    ∃ pages', exec i (s.withPages pages) = .next (t.withPages pages') := by
  have hg := exec_graft (s.withPages pages) h
  have ht := exec_eq_graftNext h
  rw [hi] at hg ht
  rw [ht]; exact ⟨pages, hg⟩

theorem exec_withPages {i : Instr} (h : exec i s = .next t) :
    ∃ pages', exec i (s.withPages pages) = .next (t.withPages pages') := by
  cases hi : i.isMix with
  | true => exact exec_mix_withPages hi h
  | false =>
    cases i with
    | ldB => exact respond_withPages (congrArg (fun v => answer1 (bitsPort v)) (memRead_withPages pages s _ 1)) h
    | ldW | ldT | ldO => exact respond_withPages (loadAnswer_withPages pages s _ _) h
    | mbDump => exact respond_withPages (congrArg (fun bs => answerSeq (bs.map bitsPort)) (loadBytes_withPages pages s _ _)) h
    | stB | mbLoadimg => exact perform_storeBytes_withPages h
    | stW | stT | stO => exact perform_storeResult_withPages h
    | grWrite => exact perform_ok_withPages (generalWrite_withPages pages s _ _) h
    | srWrite => exact execSrWrite_withPages h
    | pushf => exact perform_ok_withPages (u := pushFrame s) (left := pages) rfl h
    | popf => exact execPopf_withPages h
    | addB | addW | addT | addO | subB | subW | subT | subO | mulB | mulW | mulT | mulO
    | adduoB | adduoW | adduoT | adduoO | addsoB | addsoW | addsoT | addsoO
    | subuoB | subuoW | subuoT | subuoO | subsoB | subsoW | subsoT | subsoO
    | muluoB | muluoW | muluoT | muluoO | mulsoB | mulsoW | mulsoT | mulsoO
    | mulfuB | mulfuW | mulfuT | mulfuO | divuB | divuW | divuT | divuO
    | cmpuB | cmpuW | cmpuT | cmpuO | cmpsB | cmpsW | cmpsT | cmpsO
    | splitW | splitT | splitO | joinW | joinT | joinO | truncB | truncW | truncT | truncO
    | svalB | svalW | svalT | svalO | grRead | srRead => exact respond_withPages rfl h
    | _ => cases hi

end Sys2Proof.Machine

namespace Sys2Proof.Proofs

open Sys2Proof.Machine

/-- Settles O35: a command commutes with the exchange of the page set, up to the set it leaves. -/
theorem allocationIsHidden : Obligations.AllocationIsHidden := fun _ _ _ _ => exec_withPages

end Sys2Proof.Proofs
end

section
/-! A read inside a range just written, and the narrower loads inside an octa just stored (R76, R77, R80). -/

namespace Sys2Proof.Machine

open Sys2Proof.Claims

variable {s t : State} {a addr : Octa} {n m k : Nat} {v : Octa}

/-! ### Reads inside a written range -/

/-- Bytes `j` to `j + n - 1` of the `N` bytes of a number just written: those of the number with the less significant ones dropped. -/
theorem loadBytes_memWrite_inside {N j : Nat} (w : BitVec (8 * N)) (hN : N ≤ 2 ^ 64) (h : j + n ≤ N) :
    loadBytes (memWrite s a N w) (a + BitVec.ofNat 64 j) n = splitBytes (w.toNat / 256 ^ (N - j - n)) n := by
  refine List.ext_getElem (by rw [loadBytes_length, splitBytes_length]) fun i hi _ => ?_
  have hin : i < n := by rwa [loadBytes_length] at hi
  have hlen : (splitBytes w.toNat N).length = N := splitBytes_length _ _
  rw [loadBytes_getElem, BitVec.add_assoc, ← BitVec.ofNat_add, memWrite, byteAt_storeBytes _ _ _ _ (by omega) (by omega),
    splitBytes_getElem, splitBytes_getElem, Nat.div_div_eq_div_mul, ← pow_add, show N - j - n + (n - 1 - i) = N - 1 - (j + i) by omega]

/-- A read of `n` bytes at distance `j` inside the `N` bytes just written (R76, R77). -/
theorem memRead_memWrite_inside {N j : Nat} (w : BitVec (8 * N)) (hN : N ≤ 2 ^ 64) (h : j + n ≤ N) :
    (memRead (memWrite s a N w) (a + BitVec.ofNat 64 j) n).toNat = w.toNat / 256 ^ (N - j - n) % 256 ^ n := by
  rw [memRead_toNat, loadBytes_memWrite_inside w hN h, joinBytes_splitBytes]

/-- A read depends on the bytes in memory alone. -/
theorem loadBytes_congr (h : t.mmixmem = s.mmixmem) (a : Octa) (n : Nat) : loadBytes t a n = loadBytes s a n := by
  induction n generalizing a with
  | zero => rfl
  | succ n ih => rw [loadBytes, loadBytes, byteAt, byteAt, h, ih]

theorem memRead_congr (h : t.mmixmem = s.mmixmem) (a : Octa) (n : Nat) : memRead t a n = memRead s a n := by
  rw [memRead, memRead, loadBytes_congr h]

/-! ### Aligned accesses -/

theorem misaligned_of_dvd (s : State) (h : n ∣ addr.toNat) : misaligned s addr n = false := by
  rw [misaligned, decide_eq_false (not_not_intro (Nat.mod_eq_zero_of_dvd h)), Bool.false_and]

/-- An aligned load answers the bytes it reads (R281). -/
theorem loadAnswer_of_dvd (s : State) (h : n ∣ addr.toNat) : loadAnswer s addr n = result (memRead s addr n).toNat := by
  rw [loadAnswer, misaligned_of_dvd s h, if_neg Bool.false_ne_true, bitsPort, ← BitVec.ofNat_toNat]; rfl

/-- A live block answers a command that changes no state. -/
theorem respond_of_eq (hs : s.Live) {r r' : Response} (hr : r = r') : respond s r = .next { s with resp := r' } :=
  hr ▸ respond_live hs r

/-- A byte is always aligned (R282). -/
theorem execLdB_eq (s : State) (addr : Octa) : execLdB addr s = respond s (loadAnswer s addr 1) := by
  rw [loadAnswer, misaligned_of_dvd s (one_dvd _)]; rfl

/-- An aligned `ST.O` writes the octa, and the block stays live (R281, R289). -/
theorem execStO_of_dvd (hs : s.Live) (h : 8 ∣ addr.toNat) (hst : exec (.stO v addr) s = .next t) :
    t.mmixmem = (memWrite s addr 8 v).mmixmem ∧ t.Live := by
  have hexec : perform s (.ok (storeResult s addr 8 v)) = .next t := hst
  rw [storeResult, misaligned_of_dvd s h, if_neg Bool.false_ne_true, perform_ok hs] at hexec
  injection hexec with ht
  obtain ⟨-, hfatal, -⟩ := effect_block (.stO v addr : Effect s _ _)
  rw [← ht]; exact ⟨rfl, hfatal.trans hs⟩

/-! ### The octa as an array of narrower items -/

/-- The address of item `k` of the `m` items of `n` bytes in an aligned octa is a multiple of `n`: the octa does not wrap past `2^64`,
which `n` divides. -/
theorem dvd_item_addr (ha : 8 ∣ addr.toNat) (hnm : n * m = 8) : n ∣ (addr + BitVec.ofNat 64 (n * k)).toNat := by
  have hn : n ∣ 8 := ⟨m, hnm.symm⟩
  have hw : n ∣ 2 ^ 64 := hn.trans (by decide)
  rw [BitVec.toNat_add, BitVec.toNat_ofNat, Nat.add_mod_mod]
  exact (Nat.dvd_mod_iff hw).2 (dvd_add (hn.trans ha) ⟨k, rfl⟩)

/-- After `ST.O` at an aligned address a load of item `k` of the octa's items of `n` bytes answers it, item 0 the most significant, the
last of them `l` (R80). -/
theorem loadAnswer_after_stO {l b : Nat} (hs : s.Live) (ha : 8 ∣ addr.toNat) (hst : exec (.stO v addr) s = .next t)
    (hnl : n * (l + 1) = 8) (hb : 256 ^ n = b) (hk : k < l + 1) :
    loadAnswer t (addr + BitVec.ofNat 64 (n * k)) n = result (v.toNat / b ^ (l - k) % b) := by
  have hend : n * k + n + n * (l - k) = 8 := by
    rw [← hnl, ← Nat.mul_succ, ← Nat.mul_add]; congr 1; omega
  obtain ⟨hmem, -⟩ := execStO_of_dvd hs ha hst
  rw [loadAnswer_of_dvd t (dvd_item_addr ha hnl), memRead_congr hmem, memRead_memWrite_inside (N := 8) v (by decide) (by omega),
    ← hb, ← pow_mul, show 8 - n * k - n = n * (l - k) by omega]

end Sys2Proof.Machine

namespace Sys2Proof.Proofs

open Sys2Proof.Machine

/-- Settles O33: the octa is eight items of one byte, four of two and two of four, and each load is aligned. -/
theorem mixedWidthAccess : Obligations.MixedWidthAccess := by
  intro s t v addr hs haddr hst
  have ha : 8 ∣ addr.toNat := Nat.dvd_of_mod_eq_zero haddr
  obtain ⟨-, hlive⟩ := execStO_of_dvd hs ha hst
  refine ⟨fun k hk => ?_, fun k hk => ?_, fun k hk => ?_⟩
  · have hload := loadAnswer_after_stO (n := 1) (b := 256) hs ha hst rfl rfl hk
    rw [one_mul] at hload
    exact (execLdB_eq t _).trans (respond_of_eq hlive hload)
  · exact respond_of_eq hlive (loadAnswer_after_stO (n := 2) (b := 65536) hs ha hst rfl rfl hk)
  · exact respond_of_eq hlive (loadAnswer_after_stO (n := 4) (b := 4294967296) hs ha hst rfl rfl hk)

end Sys2Proof.Proofs
end

section
/-! The decoder undoes the encoder, operand by operand, at every opcode of the map (R100, R101, R104). -/

namespace Sys2Proof

/-! ### A command's row gives it back when each operand comes back from its port -/

variable {α β γ : Type} {c : Command} {m : String} {op : BitVec 8} {p : Command → α} {q : Command → β} {r : Command → γ}
  {a : α} {b : β} {d : γ}

theorem decode_of_row {row : OpcodeRow} (h : opcodeRow c.op = some row) : decode c = .ok (row.read c) := by
  rw [decode, h]

theorem decode_of_row₁ {f : α → Instr} (h : opcodeRow c.op = some ⟨m, op, fun c => f (p c)⟩) (ha : p c = a) :
    decode c = .ok (f a) := by
  subst ha; exact decode_of_row h

theorem decode_of_row₂ {f : α → β → Instr} (h : opcodeRow c.op = some ⟨m, op, fun c => f (p c) (q c)⟩)
    (ha : p c = a) (hb : q c = b) : decode c = .ok (f a b) := by
  subst ha hb; exact decode_of_row h

theorem decode_of_row₃ {f : α → β → γ → Instr} (h : opcodeRow c.op = some ⟨m, op, fun c => f (p c) (q c) (r c)⟩)
    (ha : p c = a) (hb : q c = b) (hd : r c = d) : decode c = .ok (f a b d) := by
  subst ha hb hd; exact decode_of_row h

/-- Every operand type of the map fits its port, so the bound is found where the width is known (R101). -/
theorem read_bitsPort {w : Nat} (v : BitVec w) (h : w ≤ 64 := by decide) : portBits w (bitsPort v) = v := portBits_bitsPort h v

/-! ### Streams (R102) -/

theorem map_portMix_mixPort (ws : List MixWord) : (ws.map mixPort).map portMix = ws :=
  Function.LeftInverse.list_map portMix_mixPort ws

theorem map_portBits_bitsPort {w : Nat} (h : w ≤ 64) (vs : List (BitVec w)) : (vs.map bitsPort).map (portBits w) = vs :=
  Function.LeftInverse.list_map (portBits_bitsPort h) vs

/-- The encoder's opcode selects the command's own row, by computation; what is left is the round trip of each operand through its port.
The cases are the shapes of operand lists; an octa is its port. -/
theorem decode_encode (i : Instr) : decode (encode i) = .ok i := by
  cases i with
  | maMake | mmClear | mrGetov | mrGetci | addO | subO | mulO | adduoO | addsoO | subuoO | subsoO | muluoO | mulsoO | mulfuO | divuO
  | cmpuO | cmpsO | splitO | truncB | truncW | truncT | truncO | svalO | ldB | ldW | ldT | ldO | stO | mbDump | pushf => rfl
  | fsDec | mxFromint | mxTrunc | mrRead | mrIdxoff | mrSetci | splitW | splitT | svalB | svalW | svalT | grRead | srRead | popf =>
    exact decode_of_row₁ rfl (read_bitsPort _)
  | mxToint | mxSign | mxMag | mxNeg | mxIszero => exact decode_of_row₁ rfl (portMix_mixPort _)
  | mrSetov => exact decode_of_row₁ rfl (portBool_boolPort _)
  | fsEnc | mmLoad | mmDump | mmClrrng | mrEa
  | addB | addW | addT | subB | subW | subT | mulB | mulW | mulT
  | adduoB | adduoW | adduoT | addsoB | addsoW | addsoT | subuoB | subuoW | subuoT | subsoB | subsoW | subsoT
  | muluoB | muluoW | muluoT | mulsoB | mulsoW | mulsoT | mulfuB | mulfuW | mulfuT | divuB | divuW | divuT
  | cmpuB | cmpuW | cmpuT | cmpsB | cmpsW | cmpsT | joinW | joinT | joinO =>
    exact decode_of_row₂ rfl (read_bitsPort _) (read_bitsPort _)
  | mxMake => exact decode_of_row₂ rfl (portBool_boolPort _) (read_bitsPort _)
  | mxAdd | mxSub | mxMul | mxCmp | mxEqbits => exact decode_of_row₂ rfl (portMix_mixPort _) (portMix_mixPort _)
  | mxGetb | mxShl | mxShr | mxRol | mxRor | mxFget | mrWrite => exact decode_of_row₂ rfl (portMix_mixPort _) (read_bitsPort _)
  | stB | stW | stT => exact decode_of_row₂ rfl (read_bitsPort _) rfl
  | grWrite | srWrite => exact decode_of_row₂ rfl rfl (read_bitsPort _)
  | mxDiv => exact decode_of_row₃ rfl (portMix_mixPort _) (portMix_mixPort _) (portMix_mixPort _)
  | mxShld | mxShrd | mxRold | mxRord | mxFput =>
    exact decode_of_row₃ rfl (portMix_mixPort _) (portMix_mixPort _) (read_bitsPort _)
  | mxSetb | mmStore => exact decode_of_row₃ rfl (portMix_mixPort _) (read_bitsPort _) (read_bitsPort _)
  | mmLoadprog | mmLoadimg => exact decode_of_row₂ rfl (read_bitsPort _) (map_portMix_mixPort _)
  | mbLoadimg => exact decode_of_row₂ rfl rfl (map_portBits_bitsPort (by decide) _)

end Sys2Proof

namespace Sys2Proof.Proofs

/-- Settles O56: every operand comes back from its port. -/
theorem decodeEncode : Obligations.DecodeEncode := decode_encode

/-- Settles O57: each of the commands written out is what the encoder drives for its instruction. -/
theorem decodeSamples : Obligations.DecodeSamples :=
  ⟨decode_encode (.fsEnc 4 5), decode_encode (.mxAdd ⟨false, 17314053⟩ ⟨true, 102531658⟩),
    decode_encode (.mmStore ⟨true, 102531658⟩ 100 37), decode_encode (.mrEa 4090 1), decode_encode (.addsoB 0x7F 0x01),
    decode_encode (.stO 0x0102030405060708 0x1000), decode_encode (.grWrite 0xC8 200)⟩

end Sys2Proof.Proofs
end

section
/-! Which opcodes the decoder accepts, and what a step does on a command it accepts or rejects (R100, R104, R116). -/

namespace Sys2Proof

open Sys2Proof.Claims

/-- The opcode map lists nine ranges of opcodes. -/
theorem opcodeRows_opcodes : opcodeRows.map (fun r => r.op.toNat) =
    List.range' 0x00 3 ++ List.range' 0x08 26 ++ List.range' 0x28 7 ++ List.range' 0x30 8 ++ List.range' 0x40 52 ++
    List.range' 0x75 3 ++ List.range' 0x79 11 ++ List.range' 0x90 10 ++ List.range' 0xA0 6 := by
  rfl

theorem opcodeRow_isSome_iff (op : BitVec 8) : (opcodeRow op).isSome ↔ ¬ reservedOp op.toNat := by
  have hmem : op.toNat ∈ opcodeRows.map (fun r => r.op.toNat) ↔ ¬ reservedOp op.toNat := by
    have hlt := op.isLt
    simp only [opcodeRows_opcodes, List.mem_append, List.mem_range'_1]
    omega
  simpa [opcodeRow, BitVec.toNat_inj] using hmem

theorem decode_isOk_iff (c : Command) : (∃ i, decode c = .ok i) ↔ (opcodeRow c.op).isSome := by
  unfold decode
  cases opcodeRow c.op with
  | none => simp
  | some r => simp

theorem decode_accepts_iff (c : Command) : (∃ i, decode c = .ok i) ↔ ¬ reservedOp c.op.toNat :=
  (decode_isOk_iff c).trans (opcodeRow_isSome_iff c.op)

theorem decode_reserved {c : Command} (h : reservedOp c.op.toNat) : ∃ e, decode c = .error e := by
  cases hd : decode c with
  | error e => exact ⟨e, rfl⟩
  | ok i => exact absurd h ((decode_accepts_iff c).1 ⟨i, hd⟩)

namespace Machine

variable {s : State} {c : Command} {rest : List Input}

theorem step_decoded {i : Instr} (hin : s.inputs = .command c :: rest) (hd : decode c = .ok i) :
    step s = exec i { s with inputs := rest } := by
  simp only [step, hin, hd]

theorem step_rejected {e : DecodeReject} (hin : s.inputs = .command c :: rest) (hd : decode c = .error e) :
    step s = rejectOpcode { s with inputs := rest } := by
  simp only [step, hin, hd]

theorem rejectOpcode_live (h : s.Live) : rejectOpcode s = .next (violated s .opcode true) := perform_error h .opcode

end Machine

end Sys2Proof

namespace Sys2Proof.Proofs

open Sys2Proof.Machine

/-- Settles O50: the map lists exactly the opcodes that are not reserved, and a step rejects any other by a violation. -/
theorem reservedOpcodes : Obligations.ReservedOpcodes := by
  refine ⟨decode_accepts_iff, fun s c rest hlive hin hres => ⟨true, ?_⟩⟩
  obtain ⟨e, hd⟩ := decode_reserved hres
  rw [step_rejected hin hd]
  exact rejectOpcode_live hlive

/-- Settles O51: the first input is the command, and its decoding succeeds. -/
theorem stepRunsDecoded : Obligations.StepRunsDecoded := fun _ _ _ _ => step_decoded

end Sys2Proof.Proofs
end

section
/-! What a command whose checks pass or fail answers, and the number each kind of value shows on a result port (R21, R103, R113). -/

namespace Sys2Proof.Machine

open Sys2Proof.Claims

variable {s : State} {i : Instr} {act : Except CvKind (State × Response)} {k : CvKind}

/-! ### Checked commands -/

theorem raises_of_error (hs : s.Live) (hexec : exec i s = perform s act) (hact : act = .error k) : Raises i s k :=
  ⟨true, by rw [hexec, hact]; exact perform_error hs k⟩

theorem answers_of_ok {r : Response} (hs : s.Live) (hexec : exec i s = perform s act) (hact : act = .ok (s, r)) :
    Answers i s r := by
  rw [Answers, hexec, hact]; exact perform_ok hs s r

/-- A command that answers exactly when its check `p` passes. -/
theorem answers_or_raises {p : Prop} [Decidable p] {r : Response} (hs : s.Live) (hexec : exec i s = perform s act)
    (hok : p → act = .ok (s, r)) (herr : ¬ p → act = .error k) : if p then Answers i s r else Raises i s k := by
  split
  · exact answers_of_ok hs hexec (hok ‹_›)
  · exact raises_of_error hs hexec (herr ‹_›)

/-! ### Result ports -/

theorem bitsPort_eq {w : Nat} (v : BitVec w) : bitsPort v = BitVec.ofNat 64 v.toNat := (BitVec.ofNat_toNat 64 v).symm

theorem boolPort_eq (b : Bool) : boolPort b = BitVec.ofNat 64 (flag b) := by cases b <;> rfl

theorem mixPort_eq (w : MixWord) : mixPort w = BitVec.ofNat 64 (rawNum w) := by
  have hraw : rawNum w = w.sign.toNat * 2 ^ 30 + w.mag.toNat := by cases h : w.sign <;> simp [rawNum, wordNum, h]
  rw [hraw, ← mixPort_toNat, BitVec.ofNat_toNat, BitVec.setWidth_eq]

theorem mixPort_mixword (sgn : Bool) {m : Nat} (h : m < 2 ^ 30) :
    mixPort (mixword sgn m) = BitVec.ofNat 64 (wordNum sgn m) := by
  rw [mixPort_eq, rawNum, mixword_sign, show (mixword sgn m).mag.toNat = m from (magOf_mixword sgn m).trans (Nat.mod_eq_of_lt h)]

theorem cmpPort_compareInt (a b : Int) : cmpPort (compareInt a b) = BitVec.ofNat 64 (order a b) := by
  unfold compareInt order
  split
  · rfl
  · split <;> rfl

theorem valOf_eq_signedVal (w : MixWord) : valOf w = signedVal w := by unfold valOf signedVal; split <;> simp

theorem ofInt_toNat_eq_twos (W : Nat) (v : Int) : (BitVec.ofInt W v).toNat = twos W v := by
  rw [BitVec.toNat_ofInt, twos]; norm_cast

end Sys2Proof.Machine
end

section
/-! Numbers as strings of bytes to the base 64, as the statements and the model write them: bit fields, packed bytes, double
words, shifts and fields (R21, R140, R160 to R169, R180, R181). -/

namespace Sys2Proof.Machine

open Sys2Proof.Claims

variable {w hi lo : MixWord} {f : Nat → Nat} {m n N k j : Nat}

/-! ### Bytes of numbers -/

theorem byte_mod (m : Nat) (h : j < n) : m % 64 ^ n / 64 ^ j % 64 = m / 64 ^ j % 64 := by
  obtain ⟨d, rfl⟩ : ∃ d, n = j + 1 + d := ⟨n - (j + 1), by omega⟩
  rw [Nat.add_assoc, pow_add, Nat.mod_mul_right_div_self, Nat.mod_mod_of_dvd _ (by rw [Nat.add_comm, pow_succ]; exact Nat.dvd_mul_left _ _)]

theorem byte_of_lt (h : m < 64 ^ n) (hj : n ≤ j) : m / 64 ^ j % 64 = 0 := by
  rw [Nat.div_eq_of_lt (h.trans_le (Nat.pow_le_pow_right (by decide) hj)), Nat.zero_mod]

/-- Byte `k` of `N` after a shift left by `n` bytes, at every distance (R161, R166). -/
theorem byte_shiftLeft (m n : Nat) (h1 : 1 ≤ k) (hk : k ≤ N) :
    (if N ≤ n then 0 else m * 64 ^ n % 64 ^ N) / 64 ^ (N - k) % 64 = if k + n ≤ N then m / 64 ^ (N - (k + n)) % 64 else 0 := by
  by_cases hin : k + n ≤ N
  · rw [if_neg (by omega), if_pos hin, byte_mod _ (by omega), show N - k = n + (N - (k + n)) by omega, pow_add,
      ← Nat.div_div_eq_div_mul, Nat.mul_div_cancel _ (by positivity)]
  · rw [if_neg hin]
    split
    · rw [Nat.zero_div]
    · obtain ⟨d, rfl⟩ : ∃ d, n = d + 1 + (N - k) := ⟨n - (N - k) - 1, by omega⟩
      rw [byte_mod _ (by omega), pow_add, ← Nat.mul_assoc, Nat.mul_div_cancel _ (by positivity), pow_succ, ← Nat.mul_assoc,
        Nat.mul_mod_left]

/-- Byte `k` of `N` after a shift right by `n` bytes, at every distance (R162, R167). -/
theorem byte_shiftRight (hm : m < 64 ^ N) (n : Nat) (hk : k ≤ N) :
    (if N ≤ n then 0 else m / 64 ^ n) / 64 ^ (N - k) % 64 = if n < k then m / 64 ^ (N - (k - n)) % 64 else 0 := by
  have hshift : (if N ≤ n then 0 else m / 64 ^ n) = m / 64 ^ n := by
    split
    · exact (Nat.div_eq_of_lt (hm.trans_le (Nat.pow_le_pow_right (by decide) ‹_›))).symm
    · rfl
  rw [hshift, Nat.div_div_eq_div_mul, ← pow_add]
  split
  · rw [show n + (N - k) = N - (k - n) by omega]
  · exact byte_of_lt hm (by omega)

theorem shiftRight_lt (hm : m < j) (n : Nat) : (if N ≤ n then 0 else m / 64 ^ n) < j := by
  split
  · exact (Nat.zero_le m).trans_lt hm
  · exact (Nat.div_le_self _ _).trans_lt hm

/-! ### The bytes of a word -/

/-- A byte as a bit field is the byte as a quotient, also at the positions that do not exist. -/
theorem mbyte_eq_byteOf (w : MixWord) (k : Nat) : mbyte w k = byteOf w k := by
  rw [mbyte, BitVec.extractLsb'_toNat, Nat.shiftRight_eq_div_pow, pow_mul]; rfl

theorem mbyte_lt (w : MixWord) (k : Nat) : mbyte w k < 64 := mbyte_eq_byteOf w k ▸ byteOf_lt w k

/-- The number whose five bytes are known. -/
theorem eq_bytesNum (hm : m < 2 ^ 30) (h : ∀ k, 1 ≤ k → k ≤ 5 → m / 64 ^ (5 - k) % 64 = f k) : m = bytesNum f := by
  rw [bytesNum, ← h 1 (by decide) (by decide), ← h 2 (by decide) (by decide), ← h 3 (by decide) (by decide),
    ← h 4 (by decide) (by decide), ← h 5 (by decide) (by decide)]
  omega

theorem magOf_eq_bytesNum (w : MixWord) : magOf w = bytesNum (mbyte w) :=
  eq_bytesNum (magOf_lt w) fun k _ _ => (mbyte_eq_byteOf w k).symm

theorem packBytes_eq_bytesNum {g : Nat → Nat} (h : ∀ k, 1 ≤ k → k ≤ 5 → g k % 64 = f k) : packBytes g 5 = bytesNum f :=
  eq_bytesNum (packBytes_lt g 5) fun k h1 h5 => (packBytes_byte g h1 h5).trans (h k h1 h5)

/-- A word on a result port, its five bytes known. -/
theorem mixPort_of_bytes (sgn : Bool) (hm : m < 2 ^ 30) (h : ∀ k, 1 ≤ k → k ≤ 5 → m / 64 ^ (5 - k) % 64 = f k) :
    mixPort (mixword sgn m) = BitVec.ofNat 64 (wordNum sgn (bytesNum f)) := by
  rw [mixPort_mixword sgn hm, ← eq_bytesNum hm h]

theorem mixPort_packBytes (sgn : Bool) {g : Nat → Nat} (h : ∀ k, 1 ≤ k → k ≤ 5 → g k % 64 = f k) :
    mixPort (mixword sgn (packBytes g 5)) = BitVec.ofNat 64 (wordNum sgn (bytesNum f)) := by
  rw [mixPort_mixword sgn (packBytes_lt g 5), packBytes_eq_bytesNum h]

/-- A word whose bytes are moved: the packed bytes and the statement's may name the positions each in its own way. -/
theorem mixPort_permuted (sgn : Bool) {p q : Nat → Nat} (h : ∀ k, 1 ≤ k → k ≤ 5 → p k = q k) :
    mixPort (mixword sgn (packBytes (fun k => byteOf w (p k)) 5)) = BitVec.ofNat 64 (wordNum sgn (bytesNum fun k => mbyte w (q k))) :=
  mixPort_packBytes sgn fun k h1 h5 => by rw [mbyte_eq_byteOf, h k h1 h5, Nat.mod_eq_of_lt (byteOf_lt w _)]

/-- One byte of a word replaced by arithmetic on the magnitude (R151). -/
theorem magOf_replaceByte (w : MixWord) (h1 : 1 ≤ k) (h5 : k ≤ 5) (b : Nat) :
    magOf w - byteOf w k * 64 ^ (5 - k) + b * 64 ^ (5 - k) = bytesNum fun j => if j = k then b else mbyte w j := by
  rw [magOf_eq_bytesNum w, ← mbyte_eq_byteOf]
  obtain rfl | rfl | rfl | rfl | rfl : k = 1 ∨ k = 2 ∨ k = 3 ∨ k = 4 ∨ k = 5 := by omega
  all_goals simp only [bytesNum, Nat.reduceEqDiff, if_true, if_false]; omega

theorem bytesNum_lt (h : ∀ k, f k < 64) : bytesNum f < 2 ^ 30 := by
  have h1 := h 1; have h2 := h 2; have h3 := h 3; have h4 := h 4; have h5 := h 5
  unfold bytesNum; omega

/-! ### Double words (R165) -/

theorem pairMag_lt (hi lo : MixWord) : pairMag hi lo < 2 ^ 60 := by
  have := magOf_lt hi; have := magOf_lt lo
  unfold pairMag; omega

/-- The ten bytes of a double word are the five of each word; the two agree also at the positions that do not exist. -/
theorem pairByte_pairMag (hi lo : MixWord) (k : Nat) : pairByte (pairMag hi lo) k = dbyte hi lo k := by
  have hlo := magOf_lt lo
  unfold pairByte dbyte
  split
  · rw [mbyte_eq_byteOf, byteOf, show 10 - k = 5 + (5 - k) by omega, pow_add, ← Nat.div_div_eq_div_mul,
      show pairMag hi lo / 64 ^ 5 = magOf hi by unfold pairMag; omega]
  · rw [mbyte_eq_byteOf, byteOf, ← byte_mod (n := 5) (pairMag hi lo) (by omega),
      show pairMag hi lo % 64 ^ 5 = magOf lo by unfold pairMag; omega, show 5 - (k - 5) = 10 - k by omega]

theorem dbyte_lt (hi lo : MixWord) (k : Nat) : dbyte hi lo k < 64 := by unfold dbyte; split <;> exact mbyte_lt _ _

/-- A double word on the result ports, its ten bytes known. -/
theorem pairAnswer_of_bytes (hm : m < 2 ^ 60) (h : ∀ k, 1 ≤ k → k ≤ 10 → pairByte m k = f k) :
    pairAnswer hi lo m = pairResult hi lo f := by
  have hhigh := mixPort_of_bytes (m := m / 2 ^ 30) (f := f) hi.sign (by omega) fun k h1 h5 => by
    rw [← h k h1 (by omega), pairByte, show 10 - k = 5 + (5 - k) by omega, pow_add, ← Nat.div_div_eq_div_mul]; rfl
  have hlow := mixPort_of_bytes (m := m % 2 ^ 30) (f := fun k => f (k + 5)) lo.sign (by omega) fun k h1 h5 => by
    rw [← h (k + 5) (by omega) (by omega), pairByte, show 10 - (k + 5) = 5 - k by omega]; exact byte_mod (n := 5) m (by omega)
  rw [pairAnswer, hhigh, hlow]; rfl

/-- A double word whose bytes are moved, as `mixPort_permuted`. -/
theorem pairAnswer_permuted {p q : Nat → Nat} (h : ∀ k, 1 ≤ k → k ≤ 10 → p k = q k) :
    pairAnswer hi lo (packBytes (fun k => pairByte (pairMag hi lo) (p k)) 10) = pairResult hi lo fun k => dbyte hi lo (q k) :=
  pairAnswer_of_bytes ((packBytes_lt _ 10).trans_eq (by norm_num)) fun k h1 h10 => by
    rw [pairByte, packBytes_byte _ h1 h10, h k h1 h10, pairByte_pairMag, Nat.mod_eq_of_lt (dbyte_lt hi lo _)]

/-! ### Fields (R140, R180, R181) -/

theorem fieldValid_iff (F : FieldCode) : fieldValid F = true ↔ fieldOk F := decide_eq_true_iff

theorem fieldCount_eq_fieldBytes {F : FieldCode} (h : fieldOk F) : fieldCount F = fieldBytes F := by
  obtain ⟨hle, -⟩ := h
  unfold fieldCount fieldBytes fieldLo fieldRight fieldLeft
  split <;> omega

/-- The packed bytes of an extraction are the quotient and remainder of R180. -/
theorem magOf_fieldExtract (w : MixWord) {F : FieldCode} (h : fieldOk F) :
    magOf (fieldExtract w F) = magOf w / 64 ^ (5 - fieldRight F) % 64 ^ fieldCount F := by
  obtain ⟨hle, hr⟩ := h
  have hn : fieldCount F ≤ 5 := fieldCount_le ((fieldValid_iff F).2 ⟨hle, hr⟩)
  have hlt : magOf w / 64 ^ (5 - fieldRight F) % 64 ^ fieldCount F < 64 ^ fieldCount F := Nat.mod_lt _ (by positivity)
  rw [fieldExtract, magOf_mixword, Nat.mod_eq_of_lt (show packBytes _ 5 < 2 ^ 30 from packBytes_lt _ 5),
    ← Nat.mod_eq_of_lt (hlt.trans_le (Nat.pow_le_pow_right (by decide) hn)), ← packBytes_self]
  refine packBytes_congr fun k h1 h5 => ?_
  rw [Nat.mod_mod]
  split
  · rw [byte_of_lt hlt (by omega)]
  · have hpos : fieldLo F - 1 + (k - (5 - fieldCount F)) = fieldRight F + k - 5 := by unfold fieldCount fieldLo at *; omega
    rw [byte_mod _ (by omega), Nat.div_div_eq_div_mul, ← pow_add, hpos, byteOf, Nat.mod_mod,
      show 5 - fieldRight F + (5 - k) = 5 - (fieldRight F + k - 5) by unfold fieldCount fieldLo fieldRight at *; omega]

theorem mixPort_fieldExtract (w : MixWord) {F : FieldCode} (h : fieldOk F) :
    mixPort (fieldExtract w F) = BitVec.ofNat 64 (extractNum w F) := by
  have hmag : (fieldExtract w F).mag.toNat = _ := magOf_fieldExtract w h
  rw [mixPort_eq, rawNum, hmag, fieldCount_eq_fieldBytes h]; rfl

theorem mixPort_fieldInsert (old v : MixWord) {F : FieldCode} (h : fieldOk F) :
    mixPort (fieldInsert old v F) = BitVec.ofNat 64 (insertNum old v F) := by
  have hsign : (if fieldSigned F then v.sign else old.sign) = if F.toNat / 8 = 0 then v.sign else old.sign := by
    simp [fieldSigned, fieldLeft]
  rw [fieldInsert, insertNum, ← hsign, ← fieldCount_eq_fieldBytes h]
  refine mixPort_packBytes _ fun k _ _ => ?_
  rw [Nat.mod_eq_of_lt (by split <;> exact byteOf_lt _ _)]
  simp only [mbyte_eq_byteOf]; rfl

end Sys2Proof.Machine
end

section
/-! What the commands of the MIX arithmetic unit show on the result port (40_mix_word_alu.md). -/

namespace Sys2Proof.Machine

open Sys2Proof.Claims

variable {n : Nat}

theorem answer1_mixPort (w : MixWord) : answer1 (mixPort w) = result (rawNum w) := congrArg answer1 (mixPort_eq w)

theorem answer1_mixword (sgn : Bool) {m : Nat} (h : m < 2 ^ 30) : answer1 (mixPort (mixword sgn m)) = result (wordNum sgn m) :=
  congrArg answer1 (mixPort_mixword sgn h)

theorem answer1_bitsPort {w : Nat} (v : BitVec w) : answer1 (bitsPort v) = result v.toNat := congrArg answer1 (bitsPort_eq v)

theorem answer1_boolPort (b : Bool) : answer1 (boolPort b) = result (flag b) := congrArg answer1 (boolPort_eq b)

theorem answer2_mixword (s t : Bool) {m n : Nat} (hm : m < 2 ^ 30) (hn : n < 2 ^ 30) :
    answer2 (mixPort (mixword s m)) (mixPort (mixword t n)) = result2 (wordNum s m) (wordNum t n) :=
  congrArg₂ answer2 (mixPort_mixword s hm) (mixPort_mixword t hn)

/-- The word of the low 31 bits of a pattern (R146). -/
theorem rawNum_mixOfRaw_setWidth (r : BitVec 32) : rawNum (mixOfRaw (r.setWidth 31)) = wordNum (r.getLsbD 30) (r.toNat % 2 ^ 30) := by
  have hmag : ((r.setWidth 31).setWidth 30).toNat = r.toNat % 2 ^ 30 := by simp only [BitVec.toNat_setWidth]; omega
  rw [rawNum, ← hmag]; simp [mixOfRaw]

/-- The magnitude is reduced modulo `2^30` when the word is made (R153). -/
theorem sumAnswer_eq (S : Int) : sumAnswer S = resultOvf (wordNum (decide (S < 0)) (S.natAbs % 2 ^ 30)) (decide (S.natAbs ≥ 2 ^ 30)) := by
  have hword : mixword (decide (S < 0)) S.natAbs = mixword (decide (S < 0)) (S.natAbs % 2 ^ 30) :=
    mixWord_ext_magOf rfl (by simp only [magOf_mixword, Nat.mod_mod])
  rw [sumAnswer, hword, mixPort_mixword _ (Nat.mod_lt _ (by decide))]; rfl

theorem eq_iff_sign_mag (a b : MixWord) : a = b ↔ a.sign = b.sign ∧ a.mag.toNat = b.mag.toNat :=
  ⟨fun h => h ▸ ⟨rfl, rfl⟩, fun ⟨hs, hm⟩ => mixWord_ext_magOf hs hm⟩

/-- The quotient fits a word exactly when the high word is below the divisor (R156). -/
theorem pairMag_div_fits (hi lo : MixWord) (hd : 0 < n) : pairMag hi lo / n < 2 ^ 30 ↔ magOf hi < n := by
  have hlo := magOf_lt lo
  rw [Nat.div_lt_iff_lt_mul hd, pairMag]; omega

/-- Rotating by the distance of the full circle less `n` to the left is rotating by `n` to the right (R164, R169). -/
theorem rotate_right_eq_left {N k n : Nat} (hN : 0 < N) : (k - 1 + N - n % N) % N = (k - 1 + (N - n % N) % N) % N := by
  have := Nat.mod_lt n hN
  rw [Nat.add_mod_mod, Nat.add_sub_assoc (by omega)]

end Sys2Proof.Machine
end

section
/-! The commands of the MIX arithmetic unit (40_mix_word_alu.md): each answers what its rule gives, and raises exactly what its rule says. -/

namespace Sys2Proof.Proofs

open Sys2Proof.Machine Sys2Proof.Claims

/-- Settles O1: the check of each command is the statement's, and each part of a code fits its port. -/
theorem fieldCodeCommands : Obligations.FieldCodeCommands := by
  refine fun s hs => ⟨fun l r => ⟨rfl, ?_⟩, fun F => ⟨rfl, ?_⟩⟩
  · have hcheck : (l ≤ r ∧ r ≤ 5) ↔ (l.toNat ≤ r.toNat ∧ r.toNat ≤ 5) := by rw [BitVec.le_def, BitVec.le_def]; rfl
    refine answers_or_raises hs rfl (fun h => ?_) fun h => if_neg (hcheck.not.2 h)
    rw [if_pos (hcheck.2 h), answer1_bitsPort, BitVec.toNat_ofNat, Nat.mod_eq_of_lt (by omega)]
  · refine answers_or_raises hs rfl (fun h => ?_) fun h => if_neg ((fieldValid_iff F).not.2 h)
    rw [if_pos ((fieldValid_iff F).2 h), boolPort_eq, fieldCount_eq_fieldBytes h]; rfl

/-- Settles O2: a magnitude below `2^30` stands on the port as it is. -/
theorem mixConstruction : Obligations.MixConstruction := by
  refine fun s hs => ⟨fun v => ⟨rfl, respond_of_eq hs ?_⟩, fun neg m => ⟨rfl, ?_⟩, fun v => ⟨rfl, ?_⟩,
    fun r => ⟨rfl, respond_of_eq hs ?_⟩⟩
  · rw [answer1_bitsPort, BitVec.toNat_ofNat, Nat.mod_mod]
  · refine answers_or_raises hs rfl (fun h => ?_) fun h => if_pos (not_lt.1 h)
    rw [if_neg (not_le.2 h), answer1_mixword neg h]
  · refine answers_or_raises hs rfl (fun h => ?_) fun h => if_pos (not_lt.1 h)
    rw [if_neg (not_le.2 h), answer1_mixword _ h]
  · rw [answer1_mixPort, rawNum_mixOfRaw_setWidth]

/-- Settles O3: each answer is the number of its own type on the port. -/
theorem mixAccessorsAndComparison : Obligations.MixAccessorsAndComparison := by
  refine fun s a b hs => ⟨⟨rfl, respond_of_eq hs ?_⟩, ⟨rfl, respond_of_eq hs ?_⟩, ⟨rfl, respond_of_eq hs ?_⟩,
    ⟨rfl, respond_of_eq hs ?_⟩, ⟨rfl, respond_of_eq hs ?_⟩, ⟨rfl, respond_of_eq hs ?_⟩, ⟨rfl, respond_of_eq hs ?_⟩⟩
  · rw [answer1_bitsPort, ofInt_toNat_eq_twos, valOf_eq_signedVal]
  · exact answer1_boolPort a.sign
  · exact answer1_bitsPort a.mag
  · exact answer1_mixPort _
  · rw [cmpPort_compareInt, valOf_eq_signedVal, valOf_eq_signedVal]; rfl
  · exact answer1_boolPort _
  · rw [answer1_boolPort, decide_eq_decide.2 (eq_iff_sign_mag a b)]

/-- Settles O4: the byte read is the bit field, and the arithmetic of `MX.SETB` replaces one byte. -/
theorem mixByteAccess : Obligations.MixByteAccess := by
  refine fun s w k hs => ⟨⟨rfl, ?_⟩, fun b => ⟨rfl, ?_⟩⟩
  · refine answers_or_raises hs rfl (fun hk => ?_) fun hk => if_pos (by omega)
    rw [if_neg (by omega), mbyte_eq_byteOf]; rfl
  · split
    · rename_i hk
      have hposition : ¬ (k.toNat < 1 ∨ 5 < k.toNat) := by omega
      refine answers_or_raises hs rfl (fun hb => ?_) fun hb => by rw [if_neg hposition, if_pos (not_lt.1 hb)]
      rw [if_neg hposition, if_neg (not_le.2 hb), magOf_replaceByte w hk.1 hk.2, answer1_mixword]
      exact bytesNum_lt fun j => by split <;> [exact hb; exact mbyte_lt w j]
    · exact raises_of_error hs rfl (if_pos (by omega))

/-- Settles O5: both commands are one answer, a function of the true result. -/
theorem mixAddSub : Obligations.MixAddSub := by
  refine fun s a b hs => ⟨fun S hS => ⟨rfl, respond_of_eq hs ?_⟩, fun S hS => ⟨rfl, respond_of_eq hs ?_⟩⟩
  · rw [hS, ← valOf_eq_signedVal, ← valOf_eq_signedVal, sumAnswer_eq]
  · rw [hS, ← valOf_eq_signedVal, ← valOf_eq_signedVal, sumAnswer_eq]

/-- Settles O6: the two words are the quotient and the remainder of the product by `2^30`. -/
theorem mixMultiply : Obligations.MixMultiply := by
  refine fun s a b hs => ⟨rfl, fun high low hprod hlow => ?_⟩
  have hlt : magOf a * magOf b < 2 ^ 30 * 2 ^ 30 := Nat.mul_lt_mul'' (magOf_lt a) (magOf_lt b)
  have hprod : high * 2 ^ 30 + low = magOf a * magOf b := hprod
  have hhigh : high < 2 ^ 30 := by omega
  have hdiv : magOf a * magOf b / 2 ^ 30 = high := by omega
  have hmod : magOf a * magOf b % 2 ^ 30 = low := by omega
  refine ⟨hhigh, respond_of_eq hs ?_⟩
  rw [hdiv, hmod, answer2_mixword _ _ hhigh hlow]

/-- Settles O7: the quotient fits exactly when `mag(hi) < mag(d)`, and then quotient and remainder are the only ones. -/
theorem mixDivide : Obligations.MixDivide := by
  refine fun s hi lo d hs => ⟨rfl, fun h0 => ?_, fun h0 hle => ?_, fun Q R hlt hdiv hR => ?_⟩
  · exact answers_of_ok hs rfl (if_pos h0)
  · have hbig : ¬ pairMag hi lo / magOf d < 2 ^ 30 := (pairMag_div_fits hi lo (Nat.pos_of_ne_zero h0)).not.2 (not_lt.2 hle)
    exact raises_of_error hs rfl (by rw [if_neg (show ¬ magOf d = 0 from h0), if_pos (not_lt.1 hbig)])
  · have hd : 0 < magOf d := (Nat.zero_le R).trans_lt hR
    have hpair : R + magOf d * Q = pairMag hi lo := by rw [Nat.add_comm, Nat.mul_comm]; exact hdiv.symm
    obtain ⟨hquot, hrem⟩ := (Nat.div_mod_unique hd).2 ⟨hpair, hR⟩
    have hfits : Q < 2 ^ 30 := hquot ▸ (pairMag_div_fits hi lo hd).2 hlt
    refine ⟨hfits, answers_of_ok hs rfl ?_⟩
    rw [if_neg hd.ne', hquot, hrem, if_neg (not_le.2 hfits), answer2_mixword _ _ hfits (hR.trans (magOf_lt d))]

/-- Settles O8: byte by byte. -/
theorem mixShifts : Obligations.MixShifts := by
  refine fun s w n hs => ⟨⟨rfl, respond_of_eq hs (congrArg answer1 ?_)⟩, ⟨rfl, respond_of_eq hs (congrArg answer1 ?_)⟩⟩
  · refine mixPort_of_bytes _ (by split <;> omega) fun k h1 h5 => ?_
    rw [mbyte_eq_byteOf]; exact byte_shiftLeft (N := 5) (magOf w) n.toNat h1 h5
  · refine mixPort_of_bytes _ (shiftRight_lt (magOf_lt w) _) fun k h1 h5 => ?_
    rw [mbyte_eq_byteOf]; exact byte_shiftRight (N := 5) (magOf_lt w) n.toNat h5

/-- Settles O9: byte by byte; the model's modulus is the floored one. -/
theorem mixRotates : Obligations.MixRotates := by
  refine fun s w n hs => ⟨⟨rfl, respond_of_eq hs (congrArg answer1 ?_)⟩, ⟨rfl, respond_of_eq hs (congrArg answer1 ?_)⟩, ?_⟩
  · exact mixPort_permuted _ fun k h1 h5 => by omega
  · exact mixPort_permuted _ fun k h1 h5 => by omega
  · have hn : (BitVec.ofNat 12 (5 - n.toNat % 5)).toNat = 5 - n.toNat % 5 := by rw [BitVec.toNat_ofNat]; omega
    refine congrArg (fun m => respond s (answer1 (mixPort (mixword w.sign m)))) (packBytes_congr fun k _ _ => ?_)
    rw [hn, rotate_right_eq_left (by decide)]

/-- Settles O10: byte by byte over the ten bytes. -/
theorem mixDoubleShifts : Obligations.MixDoubleShifts := by
  refine fun s hi lo n hs => ⟨⟨rfl, respond_of_eq hs ?_⟩, ⟨rfl, respond_of_eq hs ?_⟩⟩
  · refine pairAnswer_of_bytes (by split <;> omega) fun k h1 h10 => ?_
    rw [← pairByte_pairMag]; exact byte_shiftLeft (N := 10) (pairMag hi lo) n.toNat h1 h10
  · refine pairAnswer_of_bytes (shiftRight_lt (pairMag_lt hi lo) _) fun k h1 h10 => ?_
    rw [← pairByte_pairMag]; exact byte_shiftRight (N := 10) (pairMag_lt hi lo) n.toNat h10

/-- Settles O11: byte by byte over the ten bytes. -/
theorem mixDoubleRotates : Obligations.MixDoubleRotates := by
  refine fun s hi lo n hs => ⟨⟨rfl, respond_of_eq hs ?_⟩, ⟨rfl, respond_of_eq hs ?_⟩, ?_⟩
  · exact pairAnswer_permuted fun k h1 h10 => by omega
  · exact pairAnswer_permuted fun k h1 h10 => by omega
  · have hn : (BitVec.ofNat 12 (10 - n.toNat % 10)).toNat = 10 - n.toNat % 10 := by rw [BitVec.toNat_ofNat]; omega
    refine congrArg (fun m => respond s (pairAnswer hi lo m)) (packBytes_congr fun k _ _ => ?_)
    rw [hn, rotate_right_eq_left (by decide)]

/-- Settles O12: extraction and insertion in the spec's formulas, the check that of the statement. -/
theorem mixFieldCommands : Obligations.MixFieldCommands := by
  refine fun s w v F hs => ⟨⟨rfl, ?_⟩, ⟨rfl, ?_⟩⟩
  · refine answers_or_raises hs rfl (fun h => ?_) fun h => if_neg ((fieldValid_iff F).not.2 h)
    rw [if_pos ((fieldValid_iff F).2 h), mixPort_fieldExtract w h]; rfl
  · refine answers_or_raises hs rfl (fun h => ?_) fun h => if_neg ((fieldValid_iff F).not.2 h)
    rw [if_pos ((fieldValid_iff F).2 h), mixPort_fieldInsert w v h]; rfl

end Sys2Proof.Proofs
end

section
/-! The reads and writes of MIX memory as the statements put them, and the fields of a word after a field was put in (R71, R72, R180,
R181, R203, R204, R206). -/

namespace Sys2Proof.Machine

open Sys2Proof.Claims

variable {s u : State} {i : Instr} {v w : MixWord} {F G : FieldCode}

/-! ### MIX memory -/

@[simp] theorem mixRead_mod (s : State) (a : Nat) : mixRead s (a % s.cfg.mixMemSize) = mixRead s a := by
  rw [mixRead, Nat.mod_mod, mixRead]

theorem mixReadSeq_eq_map (s : State) (a n : Nat) : mixReadSeq s a n = (List.range n).map fun k => mixRead s (a + k) :=
  List.ext_getElem (by simp [mixReadSeq_length]) fun k _ _ => by simp [mixReadSeq_getElem]

/-- One word put at a run of indexes, the run longer than the memory or not (R206). -/
theorem mixRead_mixWriteSeq_replicate (s : State) (a n b : Nat) (w : MixWord) :
    mixRead (mixWriteSeq s a (List.replicate n w)) b =
      if ∃ k < n, (a + k) % s.cfg.mixMemSize = b % s.cfg.mixMemSize then w else mixRead s b := by
  induction n generalizing s a with
  | zero => simp [mixWriteSeq]
  | succ n ih =>
    simp only [List.replicate_succ, mixWriteSeq, ih, mixRead_mixWrite, mixWrite_cfg, Nat.exists_lt_succ_left, Nat.add_zero,
      Nat.add_assoc, Nat.add_comm 1, eq_comm (a := b % s.cfg.mixMemSize), ite_or]
    split <;> split <;> rfl

/-- A command whose checks pass and that leaves everything but MIX memory as it is. -/
theorem changesMixMem_of_ok {P : State → Prop} (hs : s.Live) (hexec : exec i s = perform s (.ok (u, answer0)))
    (hframe : u = { s with mixmem := u.mixmem }) (hP : P { u with resp := noResult }) : ChangesMixMem i s noResult P :=
  ⟨{ u with resp := noResult }, hexec.trans (perform_ok hs u _), by rw [hframe], hP⟩

/-! ### Fields of a word after an insertion -/

theorem fieldSigned_iff : fieldSigned F = true ↔ F.toNat / 8 = 0 := decide_eq_true_iff

/-- The sign counts only for a field that takes it (R180). -/
theorem fieldSigned_and_congr (h : F.toNat / 8 = 0 → v.sign = w.sign) : (fieldSigned F && v.sign) = (fieldSigned F && w.sign) := by
  cases hsigned : fieldSigned F
  · rfl
  · rw [h (fieldSigned_iff.1 hsigned)]

theorem fieldInsert_sign (old v : MixWord) (F : FieldCode) :
    (fieldInsert old v F).sign = if F.toNat / 8 = 0 then v.sign else old.sign := by
  simp only [fieldInsert, mixword_sign, fieldSigned_iff]

/-- A byte of the selected range comes from the low end of the value, every other from the old word (R181). -/
theorem byteOf_fieldInsert (old v : MixWord) (F : FieldCode) {k : Nat} (h1 : 1 ≤ k) (h5 : k ≤ 5) :
    byteOf (fieldInsert old v F) k =
      if fieldLo F ≤ k ∧ k ≤ fieldRight F then byteOf v (5 - fieldCount F + (k - fieldLo F + 1)) else byteOf old k := by
  rw [fieldInsert, byteOf_mixword_pack _ _ h1 h5, Nat.mod_eq_of_lt (by split <;> exact byteOf_lt _ _)]

theorem rawNum_fieldInsert (old v : MixWord) (hF : fieldOk F) : rawNum (fieldInsert old v F) = insertNum old v F := by
  rw [insertNum, rawNum, fieldInsert_sign, ← fieldCount_eq_fieldBytes hF]
  refine congrArg _ (eq_bytesNum (magOf_lt _) fun k h1 h5 => ?_)
  simp only [mbyte_eq_byteOf]
  exact byteOf_fieldInsert old v F h1 h5

/-- The field `(4,5)`: the last two bytes stand where they stood in the value (R207). -/
theorem byteOf_fieldInsert_address (old v : MixWord) {k : Nat} (h1 : 1 ≤ k) (h5 : k ≤ 5) :
    byteOf (fieldInsert old v 37) k = if 4 ≤ k then byteOf v k else byteOf old k := by
  have hlo : fieldLo 37 = 4 := rfl
  have hright : fieldRight 37 = 5 := rfl
  have hcount : fieldCount 37 = 2 := rfl
  rw [byteOf_fieldInsert old v 37 h1 h5, hlo, hright, hcount]
  by_cases h4 : 4 ≤ k
  · rw [if_pos ⟨h4, h5⟩, if_pos h4, show 5 - 2 + (k - 4 + 1) = k by omega]
  · rw [if_neg fun h => h4 h.1, if_neg h4]

/-- An extraction sees the bytes of its range, and the sign if it takes it (R180). -/
theorem fieldExtract_congr (hsign : G.toNat / 8 = 0 → v.sign = w.sign)
    (hbytes : ∀ k, fieldLo G ≤ k → k ≤ fieldRight G → byteOf v k = byteOf w k) : fieldExtract v G = fieldExtract w G := by
  rw [fieldExtract, fieldExtract, fieldSigned_and_congr hsign]
  refine congrArg _ (packBytes_congr fun k h1 h5 => ?_)
  split
  · rfl
  · rw [hbytes] <;> unfold fieldCount fieldLo at * <;> omega

/-- Field `(0:5)` is the word itself (R180). -/
theorem fieldExtract_whole (w : MixWord) : fieldExtract w 5 = w :=
  mixWord_ext_magOf rfl ((magOf_fieldExtract w (by decide)).trans (by
    rw [show 5 - fieldRight 5 = 0 from rfl, pow_zero, Nat.div_one]; exact Nat.mod_eq_of_lt (magOf_lt w)))

/-- The low `n` bytes of a word over zeros. -/
theorem packBytes_lowBytes (v : MixWord) {n : Nat} (hn : n ≤ 5) :
    packBytes (fun k => if k ≤ 5 - n then 0 else byteOf v k) 5 = magOf v % 64 ^ n := by
  have hlt : magOf v % 64 ^ n < 64 ^ n := Nat.mod_lt _ (by positivity)
  rw [← Nat.mod_eq_of_lt (hlt.trans_le (Nat.pow_le_pow_right (by decide) hn)), ← packBytes_self]
  refine packBytes_congr fun k h1 h5 => ?_
  split
  · rw [byte_of_lt hlt (by omega)]
  · rw [byte_mod _ (by omega), byteOf]

/-- A field taken from where it was just put is the low end of the value (R207). -/
theorem fieldExtract_fieldInsert_same (old v : MixWord) (hF : fieldOk F) :
    fieldExtract (fieldInsert old v F) F = mixword (fieldSigned F && v.sign) (magOf v % 64 ^ fieldCount F) := by
  have hn : fieldCount F ≤ 5 := fieldCount_le ((fieldValid_iff F).2 hF)
  have hsign : (fieldSigned F && (fieldInsert old v F).sign) = (fieldSigned F && v.sign) :=
    fieldSigned_and_congr fun h0 => by rw [fieldInsert_sign, if_pos h0]
  rw [fieldExtract, hsign, ← packBytes_lowBytes v hn]
  refine congrArg _ (packBytes_congr fun k h1 h5 => ?_)
  split
  · rfl
  · have hpos : fieldLo F ≤ fieldLo F - 1 + (k - (5 - fieldCount F)) ∧ fieldLo F - 1 + (k - (5 - fieldCount F)) ≤ fieldRight F := by
      unfold fieldCount fieldLo at *; omega
    have hin : fieldRight F ≤ 5 := hF.2
    rw [byteOf_fieldInsert _ _ _ (by unfold fieldLo; omega) (by omega), if_pos hpos]
    congr 2; unfold fieldLo; omega

/-- A field that shares no byte with the one put in, and not the sign, is what it was (R207). -/
theorem fieldExtract_fieldInsert_disjoint (old v : MixWord) (hG : fieldOk G)
    (hbytes : fieldRight F < fieldLo G ∨ fieldRight G < fieldLo F) (hsign : F.toNat / 8 = 0 → 1 ≤ G.toNat / 8) :
    fieldExtract (fieldInsert old v F) G = fieldExtract old G := by
  refine fieldExtract_congr (fun h0 => ?_) fun k hlo hright => ?_
  · rw [fieldInsert_sign, if_neg fun hF0 => by have := hsign hF0; omega]
  · have hin : fieldRight G ≤ 5 := hG.2
    rw [byteOf_fieldInsert _ _ _ ((le_max_right _ _).trans hlo) (by omega), if_neg (by omega)]

end Sys2Proof.Machine
end

section
/-! The commands of MIX memory (41_mix_memory.md): what each reads and which words each changes. -/

namespace Sys2Proof.Machine

open Sys2Proof.Claims

variable {s t : State} {v : MixWord} {addr : MixAddr} {F : FieldCode}

theorem mmLoad_answers (hs : s.Live) (hF : fieldOk F) :
    Answers (.mmLoad addr F) s (answer1 (mixPort (fieldExtract (mixRead s addr.toNat) F))) :=
  answers_of_ok hs rfl (if_pos ((fieldValid_iff F).2 hF))

theorem exec_mmStore (hs : s.Live) (hF : fieldOk F) : exec (.mmStore v addr F) s =
    .next { mixWrite s addr.toNat (fieldInsert (mixRead s addr.toNat) v F) with resp := noResult } := by
  rw [exec, execMmStore, if_pos ((fieldValid_iff F).2 hF)]; exact perform_ok hs _ _

end Sys2Proof.Machine

namespace Sys2Proof.Proofs

open Sys2Proof.Machine Sys2Proof.Claims

/-- Settles O13: a load is an extraction from the word read, a dump the words at `start + k`. -/
theorem mixMemoryReads : Obligations.MixMemoryReads := by
  refine fun s addr hs => ⟨fun F => ⟨rfl, ?_⟩, ?_, fun count => ⟨rfl, respond_of_eq hs ?_⟩⟩
  · rw [mixRead_mod]
    refine answers_or_raises hs rfl (fun h => ?_) fun h => if_neg ((fieldValid_iff F).not.2 h)
    rw [if_pos ((fieldValid_iff F).2 h), mixPort_fieldExtract _ h]; rfl
  · have hload := mmLoad_answers (addr := addr) (F := 5) hs (by decide)
    rw [fieldExtract_whole, answer1_mixPort] at hload
    rw [mixRead_mod]; exact hload
  · simp only [mixRead_mod, mixReadSeq_eq_map, resultSeq, List.map_map, Function.comp_def, mixPort_eq]; rfl

/-- Settles O14: one write, at the index reduced modulo the size. -/
theorem mixStore : Obligations.MixStore := by
  refine fun s v addr F hs => ⟨rfl, ?_⟩
  split
  · rename_i hF
    refine ⟨_, exec_mmStore hs hF, rfl, fun a => ?_⟩
    rw [← rawNum_fieldInsert _ v hF, ← apply_ite rawNum]
    exact congrArg rawNum (mixRead_mixWrite s addr.toNat a _)
  · exact raises_of_error hs rfl (if_neg ((fieldValid_iff F).not.2 ‹_›))

/-- Settles O15: after the store the word at `addr` is the insertion. -/
theorem mixStoreThenLoad : Obligations.MixStoreThenLoad := by
  intro s t v addr F hs hF hstore
  rw [exec_mmStore hs hF] at hstore
  injection hstore with ht
  have hlive : t.Live := ht ▸ hs
  have hword : mixRead t addr.toNat = fieldInsert (mixRead s addr.toNat) v F :=
    ht ▸ (mixRead_mixWrite s addr.toNat addr.toNat _).trans (if_pos rfl)
  refine ⟨?_, fun G hG hbytes hsign => ?_, ?_⟩
  · have hload := mmLoad_answers (addr := addr) hlive hF
    rw [hword, fieldExtract_fieldInsert_same _ v hF, answer1_mixword _ ((Nat.mod_le _ _).trans_lt (magOf_lt v)),
      fieldCount_eq_fieldBytes hF] at hload
    exact hload
  · have hload := mmLoad_answers (addr := addr) hlive hG
    rw [hword, fieldExtract_fieldInsert_disjoint _ v hG hbytes hsign, mixPort_fieldExtract _ hG] at hload
    exact hload
  · rintro rfl
    simp only [hword, mbyte_eq_byteOf]
    refine ⟨fieldInsert_sign _ v _, fun k h1 h3 => ?_, fun k h4 h5 => ?_⟩
    · rw [byteOf_fieldInsert_address _ v h1 (by omega), if_neg (by omega)]
    · rw [byteOf_fieldInsert_address _ v (by omega) h5, if_pos h4]

/-- Settles O16: both loaders are one sequence of writes. -/
theorem mixLoadImage : Obligations.MixLoadImage := by
  refine fun s start ws hs => ⟨rfl, rfl, rfl, changesMixMem_of_ok hs rfl (mixWriteSeq_frame ws s _)
    ⟨fun k hk hlast => ?_, fun a hout => ?_⟩⟩
  · exact mixRead_mixWriteSeq ws s start.toNat k hk hlast
  · exact mixRead_mixWriteSeq_ne ws s start.toNat a fun k hk => (hout k hk).symm

/-- Settles O17: the empty memory reads `+0` everywhere; a cleared range is a sequence of `+0`. -/
theorem mixClear : Obligations.MixClear := by
  refine fun s hs => ⟨⟨rfl, changesMixMem_of_ok hs rfl rfl ⟨fun _ => rfl, rfl⟩⟩, fun start count => ⟨rfl, ?_⟩⟩
  have hread := mixRead_mixWriteSeq_replicate s start.toNat count.toNat
  refine changesMixMem_of_ok hs rfl (mixWriteSeq_frame _ s _) ⟨fun k hk => ?_, fun a hout => ?_⟩
  · exact (hread _ _).trans (if_pos ⟨k, hk, rfl⟩)
  · exact (hread _ _).trans (if_neg fun ⟨k, hk, hin⟩ => hout k hk hin)

end Sys2Proof.Proofs
end

section
/-! The MIX registers by their identifiers: the register each names, what a read shows of it, and a read after a write (R110, R111, R220,
R221). -/

namespace Sys2Proof.Machine

open Sys2Proof.Claims

variable {s t : State} {v w : MixWord} {id : BitVec 4} {r : MixReg}

/-! ### Identifiers -/

/-- The identifier of an index register, the registers counted from 0 (R110). -/
theorem mixRegOf_index {k : Fin 6} (hk : id.toNat = k.val + 2) : mixRegOf id = some (.i k) := by
  have hid : id = BitVec.ofNat 4 (k.val + 2) := by rw [← hk, BitVec.ofNat_toNat, BitVec.setWidth_eq]
  subst hid
  revert k; decide

theorem mixRegOf_ofNat_index (k : Fin 6) : mixRegOf (BitVec.ofNat 4 (k.val + 2)) = some (.i k) :=
  mixRegOf_index (by rw [BitVec.toNat_ofNat]; omega)

/-- `A` and `X` keep every word whole (R110, R221). -/
theorem mixRegOf_word (hid : id.toNat ≤ 1) : ∃ r, mixRegOf id = some r ∧ ∀ s v, mixRegRead (mixRegWrite s v r) r = v := by
  obtain rfl | rfl : id = 0 ∨ id = 1 := by bv_omega
  · exact ⟨.a, rfl, fun _ _ => rfl⟩
  · exact ⟨.x, rfl, fun _ _ => rfl⟩

/-- The identifiers that name no register (R110). -/
theorem mixRegOf_none (hid : 9 ≤ id.toNat) : mixRegOf id = none := by
  revert id; decide

/-! ### What a read shows, and what a write keeps -/

theorem setWidth_eq_ofNat_mod {n : Nat} (w : Nat) (m : BitVec n) : m.setWidth w = BitVec.ofNat w (m.toNat % 2 ^ w) :=
  BitVec.eq_of_toNat_eq (by rw [BitVec.toNat_setWidth, BitVec.toNat_ofNat, Nat.mod_mod])

theorem rawNum_mixword (sgn : Bool) {m : Nat} (hm : m < 2 ^ 30) : rawNum (mixword sgn m) = wordNum sgn m :=
  congrArg (wordNum sgn) ((magOf_mixword sgn m).trans (Nat.mod_eq_of_lt hm))

theorem mixRegRead_index (s : State) (k : Fin 6) : mixRegRead s (.i k) = mixword s.idx[k].sign s.idx[k].mag.toNat := by
  rw [mixword, BitVec.ofNat_toNat, mixRegRead]

theorem mixRegRead_jump (s : State) : mixRegRead s .j = mixword false s.regJ.toNat := by
  rw [mixword, BitVec.ofNat_toNat, mixRegRead]

theorem mixRegWrite_index (s : State) (v : MixWord) (k : Fin 6) :
    mixRegWrite s v (.i k) = { s with idx := s.idx.set k ⟨v.sign, BitVec.ofNat 12 (v.mag.toNat % 2 ^ 12)⟩ } := by
  rw [mixRegWrite, setWidth_eq_ofNat_mod]

theorem mixRegWrite_jump (s : State) (v : MixWord) :
    mixRegWrite s v .j = { s with regJ := BitVec.ofNat 12 (v.mag.toNat % 2 ^ 12) } := by
  rw [mixRegWrite, setWidth_eq_ofNat_mod]

theorem mixRegRead_mixRegWrite_index (s : State) (v : MixWord) (k : Fin 6) :
    mixRegRead (mixRegWrite s v (.i k)) (.i k) = mixword v.sign (v.mag.toNat % 2 ^ 12) := by
  simp [mixRegRead_index, mixRegWrite]

theorem mixRegRead_mixRegWrite_jump (s : State) (v : MixWord) :
    mixRegRead (mixRegWrite s v .j) .j = mixword false (v.mag.toNat % 2 ^ 12) := by
  simp [mixRegRead_jump, mixRegWrite]

/-- Writing back what a register reads as changes nothing, so truncation is idempotent (R228). -/
theorem mixRegWrite_mixRegRead (s : State) (r : MixReg) : mixRegWrite s (mixRegRead s r) r = s := by
  cases r with
  | a | x => rfl
  | i k =>
    have htrunc : (s.idx[k].mag.setWidth 30).setWidth 12 = s.idx[k].mag := by simp
    rw [mixRegWrite, mixRegRead, htrunc]
    exact congrArg (fun idx => { s with idx := idx }) (Vector.set_getElem_self k.isLt)
  | j => simp [mixRegRead, mixRegWrite]

/-! ### The commands on a register that an identifier names, or on none -/

theorem mrRead_answers (hs : s.Live) (hr : mixRegOf id = some r) : Answers (.mrRead id) s (result (rawNum (mixRegRead s r))) :=
  answers_of_ok hs rfl (by rw [hr, ← answer1_mixPort])

theorem mrRead_answers_mixword {sgn : Bool} {m : Nat} (hs : s.Live) (hr : mixRegOf id = some r)
    (hread : mixRegRead s r = mixword sgn m) (hm : m < 2 ^ 30) : Answers (.mrRead id) s (result (wordNum sgn m)) := by
  rw [← rawNum_mixword sgn hm, ← hread]; exact mrRead_answers hs hr

theorem mrRead_raises (hs : s.Live) (hr : mixRegOf id = none) : Raises (.mrRead id) s .registerIndex :=
  raises_of_error hs rfl (by rw [hr])

theorem exec_mrWrite (hs : s.Live) (hr : mixRegOf id = some r) :
    exec (.mrWrite v id) s = .next { mixRegWrite s v r with resp := noResult } := by
  rw [exec, execMrWrite, hr]; exact perform_ok hs _ _

theorem mrWrite_raises (hs : s.Live) (hr : mixRegOf id = none) : Raises (.mrWrite v id) s .registerIndex :=
  raises_of_error hs rfl (by rw [hr])

theorem exec_mrWrite_mixRegRead (hs : s.Live) (hr : mixRegOf id = some r) :
    exec (.mrWrite (mixRegRead s r) id) s = .next { s with resp := noResult } := by
  rw [exec_mrWrite hs hr, mixRegWrite_mixRegRead]

/-- After a register write the block is live and the register reads as the word `w` that the write keeps. -/
theorem after_mrWrite (hs : s.Live) (hr : mixRegOf id = some r) (hkept : mixRegRead (mixRegWrite s v r) r = w)
    (hwrite : exec (.mrWrite v id) s = .next t) : t.Live ∧ mixRegRead t r = w := by
  rw [exec_mrWrite hs hr] at hwrite
  injection hwrite with ht
  subst ht hkept
  cases r <;> exact ⟨hs, rfl⟩

/-! ### Index offsets -/

theorem idxValOf_eq_indexVal (x : MixIndex) : idxValOf x = indexVal x := by unfold idxValOf indexVal; split <;> simp

theorem idxOffset_eq_offsetOf (s : State) (n : BitVec 3) : idxOffset s n = offsetOf s n.toNat := by
  unfold idxOffset idxRegOf offsetOf
  by_cases h : 1 ≤ n.toNat ∧ n.toNat ≤ 6
  · simp only [dif_pos h]; exact idxValOf_eq_indexVal _
  · simp only [dif_neg h]

theorem indexVal_bounds (x : MixIndex) : -4095 ≤ indexVal x ∧ indexVal x ≤ 4095 := by
  have := x.mag.isLt
  unfold indexVal; split <;> omega

theorem offsetOf_bounds (s : State) (n : Nat) : -4095 ≤ offsetOf s n ∧ offsetOf s n ≤ 4095 := by
  unfold offsetOf; split
  · exact indexVal_bounds _
  · decide

end Sys2Proof.Machine
end

section
/-! The commands of the MIX register datapath (42_mix_regfile.md): what each reads, and the one register or flag each writes. -/

namespace Sys2Proof.Proofs

open Sys2Proof.Machine Sys2Proof.Claims

/-- Settles O18: the identifier names the register, and an index register and `J` fit a word. -/
theorem mixRegisterRead : Obligations.MixRegisterRead := by
  refine fun s hs => ⟨fun _ => rfl, mrRead_answers (r := .a) hs rfl, mrRead_answers (r := .x) hs rfl, fun k => ?_, ?_,
    fun id hid => mrRead_raises hs (mixRegOf_none hid)⟩
  · exact mrRead_answers_mixword hs (mixRegOf_ofNat_index k) (mixRegRead_index s k) (s.idx[k].mag.isLt.trans (by decide))
  · exact mrRead_answers_mixword hs rfl (mixRegRead_jump s) (s.regJ.isLt.trans (by decide))

/-- Settles O19: the identifier names the one register that changes. -/
theorem mixRegisterWrite : Obligations.MixRegisterWrite := by
  refine fun s v hs => ⟨fun _ => rfl, exec_mrWrite (r := .a) hs rfl, exec_mrWrite (r := .x) hs rfl, fun k => ?_, ?_,
    fun id hid => mrWrite_raises hs (mixRegOf_none hid)⟩
  · rw [exec_mrWrite hs (mixRegOf_ofNat_index k), mixRegWrite_index]
  · rw [exec_mrWrite hs rfl, mixRegWrite_jump]

/-- Settles O20: the model's offset is the statement's, and what a modulus of 4000 leaves fits an address. -/
theorem effectiveAddress : Obligations.EffectiveAddress := by
  refine fun s base n hs => ⟨⟨rfl, respond_of_eq hs ?_⟩, ⟨rfl, respond_of_eq hs ?_⟩⟩
  · have hzero : n = 0 ↔ n.toNat = 0 := (BitVec.toNat_inj (y := 0)).symm
    have hmod : (Config.mixEaMod : Int) = 4000 := rfl
    simp only [answer1_bitsPort, idxOffset_eq_offsetOf, hzero, hmod, apply_ite BitVec.toNat, BitVec.toNat_ofNat]
    split
    · rfl
    · rw [Nat.mod_eq_of_lt (by omega)]
  · rw [answer1_bitsPort, ofInt_toNat_eq_twos, idxOffset_eq_offsetOf]

/-- Settles O21: each flag is read or written as a whole. -/
theorem mixFlagCommands : Obligations.MixFlagCommands := by
  refine fun s hs => ⟨⟨rfl, respond_of_eq hs (answer1_boolPort s.ov)⟩, fun b => ⟨rfl, perform_ok hs _ _⟩,
    ⟨rfl, respond_of_eq hs ?_⟩, fun _ => rfl, perform_ok hs _ _, perform_ok hs _ _, perform_ok hs _ _,
    raises_of_error hs rfl rfl⟩
  cases s.ci <;> rfl

/-- Settles O22: a register reads as what the write kept of the word, and the address and the offset are those of O20. -/
theorem mixRegisterProperties : Obligations.MixRegisterProperties := by
  refine ⟨fun s t v id hs hwrite => ⟨fun hid => ?_, fun h2 h7 => ?_, fun hid => ?_⟩, fun s base n hs hn => ?_⟩
  · obtain ⟨r, hr, hkept⟩ := mixRegOf_word hid
    obtain ⟨hlive, hread⟩ := after_mrWrite hs hr (hkept s v) hwrite
    exact hread ▸ mrRead_answers hlive hr
  · have hr : mixRegOf id = some (.i ⟨id.toNat - 2, by omega⟩) := mixRegOf_index (Nat.sub_add_cancel h2).symm
    obtain ⟨hlive, hread⟩ := after_mrWrite hs hr (mixRegRead_mixRegWrite_index s v _) hwrite
    refine ⟨mrRead_answers_mixword hlive hr hread (by omega), ?_⟩
    have hagain := exec_mrWrite_mixRegRead hlive hr
    rw [hread] at hagain; exact hagain
  · obtain rfl : id = 8 := by bv_omega
    obtain ⟨hlive, hread⟩ := after_mrWrite (r := .j) hs rfl (mixRegRead_mixRegWrite_jump s v) hwrite
    exact mrRead_answers_mixword (sgn := false) hlive rfl hread (by omega)
  · obtain ⟨⟨-, hea⟩, -, hoff⟩ := effectiveAddress s base n hs
    obtain ⟨hlo, hhi⟩ := offsetOf_bounds s n.toNat
    rw [if_neg hn] at hea
    exact ⟨_, by omega, hea, _, hoff, hlo, hhi, by omega⟩

end Sys2Proof.Proofs
end

section
/-! What the commands of the MMIX integer unit show on the result ports, at every width (43_mmix_int.md). -/

namespace Sys2Proof.Machine

open Sys2Proof.Claims

variable {w : Nat}

/-- The four widths of a binary command of the integer unit are one answer `f`, so the answer is compared with the rule's once (R240).
The opcodes and the meanings of the four constructors are found by computation. -/
theorem sizedBinary_of_answer {op : Nat} {bw : Byte → Byte → Instr} {ww : Wyde → Wyde → Instr} {tw : Tetra → Tetra → Instr}
    {ow : Octa → Octa → Instr} {f r : (W : Nat) → BitVec W → BitVec W → Response} (h : ∀ W a b, f W a b = r W a b)
    (hb : ∀ a b s, HasOpcode (bw a b) op ∧ exec (bw a b) s = respond s (f 8 a b) := by exact fun _ _ _ => ⟨rfl, rfl⟩)
    (hw : ∀ a b s, HasOpcode (ww a b) (op + 1) ∧ exec (ww a b) s = respond s (f 16 a b) := by exact fun _ _ _ => ⟨rfl, rfl⟩)
    (ht : ∀ a b s, HasOpcode (tw a b) (op + 2) ∧ exec (tw a b) s = respond s (f 32 a b) := by exact fun _ _ _ => ⟨rfl, rfl⟩)
    (ho : ∀ a b s, HasOpcode (ow a b) (op + 3) ∧ exec (ow a b) s = respond s (f 64 a b) := by exact fun _ _ _ => ⟨rfl, rfl⟩) :
    SizedBinary op bw ww tw ow r := by
  obtain rfl : f = r := funext fun W => funext fun a => funext fun b => h W a b
  exact fun s hs => ⟨fun a b => (hb a b s).imp_right (·.trans (respond_live hs _)),
    fun a b => (hw a b s).imp_right (·.trans (respond_live hs _)), fun a b => (ht a b s).imp_right (·.trans (respond_live hs _)),
    fun a b => (ho a b s).imp_right (·.trans (respond_live hs _))⟩

/-! ### Numbers on the ports -/

theorem answer2_bitsPort {m : Nat} (v : BitVec w) (u : BitVec m) : answer2 (bitsPort v) (bitsPort u) = result2 v.toNat u.toNat :=
  congrArg₂ answer2 (bitsPort_eq v) (bitsPort_eq u)

theorem answer1_of_toNat {v : BitVec w} {n : Nat} (hv : v.toNat = n) : answer1 (bitsPort v) = result n :=
  hv ▸ answer1_bitsPort v

theorem answerOvf_of_toNat {v : BitVec w} {n : Nat} {o p : Bool} (hv : v.toNat = n) (ho : o = p) :
    answerOvf (bitsPort v) o = resultOvf n p := by
  subst hv ho; exact congrArg (answerOvf · o) (bitsPort_eq v)

theorem wrapAdd_toNat (a b : BitVec w) : (wrapAdd a b).toNat = (a.toNat + b.toNat) % 2 ^ w := BitVec.toNat_ofNat _ _

theorem wrapSub_toNat (a b : BitVec w) : (wrapSub a b).toNat = twos w ((a.toNat : Int) - b.toNat) := ofInt_toNat_eq_twos _ _

theorem wrapMul_toNat (a b : BitVec w) : (wrapMul a b).toNat = a.toNat * b.toNat % 2 ^ w := BitVec.toNat_ofNat _ _

theorem signedAnswer_eq (W : Nat) (t : Int) : signedAnswer W t = signedResult W t :=
  answerOvf_of_toNat (ofInt_toNat_eq_twos W t) rfl

/-- Sign extension keeps the signed value, whatever the width (R257). -/
theorem answer1_signExtend (v : BitVec w) : answer1 (v.signExtend 64) = result (twos 64 v.toInt) := by
  rw [← answer1_of_toNat (ofInt_toNat_eq_twos 64 v.toInt), bitsPort, BitVec.setWidth_eq]; rfl

theorem answer1_truncated (v : Octa) (W : Nat) : answer1 (bitsPort (v.setWidth W)) = result (v.toNat % 2 ^ W) :=
  answer1_of_toNat (BitVec.toNat_setWidth W v)

/-! ### Overflow (R245, R248) -/

/-- A number is `2^W` or more exactly when its high part is not zero. -/
theorem unsignedOverflow_eq_high (n : Nat) : unsignedOverflow w n = decide (n / 2 ^ w ≠ 0) := by
  have hpos : 2 ^ w ≠ 0 := by positivity
  exact decide_eq_decide.2 ⟨fun h => Nat.div_ne_zero_iff.2 ⟨hpos, h⟩, fun h => (Nat.div_ne_zero_iff.1 h).2⟩

theorem twos_toInt_add (a b : BitVec w) : twos w (a.toInt + b.toInt) = (a.toNat + b.toNat) % 2 ^ w := by
  rw [← ofInt_toNat_eq_twos, BitVec.ofInt_add, BitVec.ofInt_toInt, BitVec.ofInt_toInt, BitVec.toNat_add]

/-- The sum of two patterns leaves the signed range exactly when their sign bits agree and the sign bit of the sum differs. -/
theorem signedOverflow_add (a b : BitVec w) :
    signedOverflow w (a.toInt + b.toInt) = (a.msb == b.msb && (a + b).msb != a.msb) := by
  refine Eq.trans ?_ (BitVec.saddOverflow_eq a b)
  rw [BitVec.saddOverflow, ← Bool.decide_or]
  exact decide_eq_decide.2 (by omega)

/-- The sum with sign bits compared, as the rule has it (R245). -/
theorem signedAnswer_add (a b : BitVec w) : signedAnswer w (a.toInt + b.toInt) =
    resultOvf ((a.toNat + b.toNat) % 2 ^ w) (a.msb == b.msb && (a + b).msb != a.msb) :=
  answerOvf_of_toNat ((ofInt_toNat_eq_twos w _).trans (twos_toInt_add a b)) (signedOverflow_add a b)

/-! ### Multiplication and division (R250, R251) -/

theorem fullMulAnswer_eq (a b : BitVec w) : fullMulAnswer a b = result2 (a.toNat * b.toNat / 2 ^ w) (a.toNat * b.toNat % 2 ^ w) := by
  have hhigh : a.toNat * b.toNat / 2 ^ w < 2 ^ w := Nat.div_lt_of_lt_mul (Nat.mul_lt_mul'' a.isLt b.isLt)
  rw [fullMulAnswer, answer2_bitsPort, BitVec.toNat_ofNat, BitVec.toNat_ofNat, Nat.mod_eq_of_lt hhigh, Nat.mod_mod]

theorem divideAnswer_eq (a b : BitVec w) : divideAnswer a b =
    if b.toNat = 0 then result2 0 a.toNat else result2 (a.toNat / b.toNat) (a.toNat % b.toNat) := by
  have hquot : a.toNat / b.toNat < 2 ^ w := (Nat.div_le_self _ _).trans_lt a.isLt
  have hrem : a.toNat % b.toNat < 2 ^ w := (Nat.mod_le _ _).trans_lt a.isLt
  unfold divideAnswer
  split
  · exact congrArg (answer2 0) (bitsPort_eq a)
  · rw [answer2_bitsPort, BitVec.toNat_ofNat, BitVec.toNat_ofNat, Nat.mod_eq_of_lt hquot, Nat.mod_eq_of_lt hrem]

/-! ### Comparison (R252, R253) -/

theorem answer1_compare (x y : Int) : answer1 (cmpPort (compareInt x y)) = result (order x y) :=
  congrArg answer1 (cmpPort_compareInt x y)

theorem order_congr {x y u v : Int} (hlt : x < y ↔ u < v) (heq : x = y ↔ u = v) : order x y = order u v := by
  simp only [order, hlt, heq]

/-- With one sign bit both values of each operand differ by the same amount; with two, the negative operand is the greater pattern. -/
theorem order_toInt (a b : BitVec w) :
    order a.toInt b.toInt = if a.msb = b.msb then order a.toNat b.toNat else order b.toNat a.toNat := by
  by_cases hmsb : a.msb = b.msb
  · rw [if_pos hmsb]
    have hshift : a.toInt - a.toNat = b.toInt - b.toNat := by
      rw [BitVec.toInt_eq_msb_cond, BitVec.toInt_eq_msb_cond, hmsb]; split <;> omega
    exact order_congr (by omega) (by omega)
  · rw [if_neg hmsb]
    have hneg {x y : BitVec w} (hx : x.msb = true) (hy : y.msb = false) : x.toInt < y.toInt ∧ y.toNat < x.toNat :=
      ⟨(BitVec.toInt_neg_of_msb_true hx).trans_le (BitVec.toInt_nonneg_of_msb_false hy),
        (BitVec.toNat_lt_of_msb_false hy).trans_le (BitVec.toNat_ge_of_msb_true hx)⟩
    cases ha : a.msb <;> cases hb : b.msb
    case false.true => have := hneg hb ha; exact order_congr (by omega) (by omega)
    case true.false => have := hneg ha hb; exact order_congr (by omega) (by omega)
    all_goals exact absurd (ha.trans hb.symm) hmsb

/-! ### Halves (R254, R255) -/

section

variable {n : Nat} (hi lo : BitVec n)

theorem high_lt (v : BitVec w) (hw : w = n + n) : v.toNat / 2 ^ n < 2 ^ n :=
  Nat.div_lt_of_lt_mul (by rw [← pow_add, ← hw]; exact v.isLt)

theorem answer2_halves (v : BitVec w) (hw : w = n + n) :
    answer2 (bitsPort (v.extractLsb' n n)) (bitsPort (v.extractLsb' 0 n)) = result2 (v.toNat / 2 ^ n) (v.toNat % 2 ^ n) := by
  rw [answer2_bitsPort, BitVec.extractLsb'_toNat, BitVec.extractLsb'_toNat, Nat.shiftRight_eq_div_pow, Nat.shiftRight_zero,
    Nat.mod_eq_of_lt (high_lt v hw)]

theorem append_toNat : (hi ++ lo).toNat = hi.toNat * 2 ^ n + lo.toNat := by
  rw [BitVec.toNat_append, ← Nat.shiftLeft_add_eq_or_of_lt lo.isLt, Nat.shiftLeft_eq]

theorem answer1_append : answer1 (bitsPort (hi ++ lo)) = result (hi.toNat * 2 ^ n + lo.toNat) :=
  answer1_of_toNat (append_toNat hi lo)

/-- The two halves of a pattern, put together, are the pattern. -/
theorem answer1_append_halves (v : BitVec w) (hw : w = n + n) :
    answer1 (bitsPort (BitVec.ofNat n (v.toNat / 2 ^ n) ++ BitVec.ofNat n (v.toNat % 2 ^ n))) = result v.toNat := by
  refine answer1_of_toNat ?_
  rw [append_toNat, BitVec.toNat_ofNat, BitVec.toNat_ofNat, Nat.mod_mod, Nat.mod_eq_of_lt (high_lt v hw), Nat.div_add_mod']

/-- Two halves put together have these two halves. -/
theorem answer2_halves_append (hw : w = n + n) :
    answer2 (bitsPort ((BitVec.ofNat w (hi.toNat * 2 ^ n + lo.toNat)).extractLsb' n n))
      (bitsPort ((BitVec.ofNat w (hi.toNat * 2 ^ n + lo.toNat)).extractLsb' 0 n)) = result2 hi.toNat lo.toNat := by
  have hfits : (BitVec.ofNat w (hi.toNat * 2 ^ n + lo.toNat)).toNat = lo.toNat + 2 ^ n * hi.toNat := by
    rw [← append_toNat, hw, BitVec.toNat_ofNat, Nat.mod_eq_of_lt (hi ++ lo).isLt, append_toNat, Nat.add_comm, Nat.mul_comm]
  obtain ⟨hhigh, hlow⟩ := (Nat.div_mod_unique (by positivity)).2 ⟨hfits.symm, lo.isLt⟩
  rw [answer2_halves _ hw, hhigh, hlow]

end

end Sys2Proof.Machine
end

section
/-! What a command reads when the upper bits of its ports are cleared: a reader of the low bits reads the same (R240, R255). -/

namespace Sys2Proof

/-- The command with the first two operand ports reduced modulo `2^W`. -/
def lowPorts (W : Nat) (c : Command) : Command :=
  { c with p0 := BitVec.ofNat 64 (c.p0.toNat % 2 ^ W), p1 := BitVec.ofNat 64 (c.p1.toNat % 2 ^ W) }

variable {W : Nat} {c : Command}

theorem portBits_ofNat_mod (W : Nat) (p : Octa) : portBits W (BitVec.ofNat 64 (p.toNat % 2 ^ W)) = portBits W p := by
  have hport : p.toNat % 2 ^ W < 2 ^ 64 := (Nat.mod_le _ _).trans_lt p.isLt
  refine BitVec.eq_of_toNat_eq ?_
  rw [portBits, portBits, BitVec.toNat_setWidth, BitVec.toNat_setWidth, BitVec.toNat_ofNat, Nat.mod_eq_of_lt hport, Nat.mod_mod]

/-- A port reduced modulo `2^64` is the port. -/
theorem lowPorts_64 (c : Command) : lowPorts 64 c = c := by
  have hport (p : Octa) : BitVec.ofNat 64 (p.toNat % 2 ^ 64) = p := by
    rw [Nat.mod_eq_of_lt p.isLt, BitVec.ofNat_toNat, BitVec.setWidth_eq]
  rw [lowPorts, hport, hport]

/-- A row that reads the low `W` bits of two ports. -/
theorem decode_lowPorts {n : Nat} {op : BitVec 8} {m : String} {f : BitVec W → BitVec W → Instr} (hop : c.op.toNat = n)
    (hrow : opcodeRow (BitVec.ofNat 8 n) = some ⟨m, op, fun c => f (portBits W c.p0) (portBits W c.p1)⟩) :
    decode (lowPorts W c) = decode c := by
  rw [← hop, BitVec.ofNat_toNat, BitVec.setWidth_eq] at hrow
  exact (decode_of_row₂ (c := lowPorts W c) hrow (portBits_ofNat_mod W c.p0) (portBits_ofNat_mod W c.p1)).trans
    (decode_of_row hrow).symm

/-- Each of the thirteen binary commands of four widths reads the two ports at the width of its opcode (R104, R240). -/
theorem decode_lowPorts_binary {k z : Nat} (hk : k < 13) (hz : z < 4) (hop : c.op.toNat = 0x40 + 4 * k + z) :
    decode (lowPorts (8 * 2 ^ z) c) = decode c := by
  interval_cases z
  · interval_cases k <;> exact decode_lowPorts (W := 8) hop rfl
  · interval_cases k <;> exact decode_lowPorts (W := 16) hop rfl
  · interval_cases k <;> exact decode_lowPorts (W := 32) hop rfl
  · exact congrArg decode (lowPorts_64 c)

/-- `JOIN` reads the two ports at half its width (R255). -/
theorem decode_lowPorts_join {z : Nat} (h1 : 1 ≤ z) (h3 : z ≤ 3) (hop : c.op.toNat = 0x78 + z) :
    decode (lowPorts (4 * 2 ^ z) c) = decode c := by
  interval_cases z
  · exact decode_lowPorts (W := 8) hop rfl
  · exact decode_lowPorts (W := 16) hop rfl
  · exact decode_lowPorts (W := 32) hop rfl

end Sys2Proof
end

section
/-! The commands of the MMIX integer unit (43_mmix_int.md): each answers what its rule gives at each of its widths. -/

namespace Sys2Proof.Proofs

open Sys2Proof.Machine Sys2Proof.Claims

/-- Settles O24: each wrapped result is the rule's number. -/
theorem wrappingArithmetic : Obligations.WrappingArithmetic :=
  ⟨sizedBinary_of_answer fun _ a b => answer1_of_toNat (wrapAdd_toNat a b),
    sizedBinary_of_answer fun _ a b => answer1_of_toNat (wrapSub_toNat a b),
    sizedBinary_of_answer fun _ a b => answer1_of_toNat (wrapMul_toNat a b)⟩

/-- Settles O25: the wrapped results of O24, each with the rule's overflow bit. -/
theorem unsignedOverflowArithmetic : Obligations.UnsignedOverflowArithmetic :=
  ⟨sizedBinary_of_answer fun _ a b => answerOvf_of_toNat (wrapAdd_toNat a b) rfl,
    sizedBinary_of_answer fun _ a b => answerOvf_of_toNat (wrapSub_toNat a b) rfl,
    sizedBinary_of_answer fun _ a b => answerOvf_of_toNat (wrapMul_toNat a b) rfl,
    sizedBinary_of_answer fun _ a b => answerOvf_of_toNat (wrapMul_toNat a b) (unsignedOverflow_eq_high _)⟩

/-- Settles O26: the three commands are one answer, a function of the true result; the sum has a second form. -/
theorem signedOverflowArithmetic : Obligations.SignedOverflowArithmetic :=
  ⟨sizedBinary_of_answer fun W a b => signedAnswer_eq W (a.toInt + b.toInt),
    sizedBinary_of_answer fun W a b => signedAnswer_eq W (a.toInt - b.toInt),
    sizedBinary_of_answer fun W a b => signedAnswer_eq W (a.toInt * b.toInt),
    sizedBinary_of_answer fun _ a b => signedAnswer_add a b⟩

/-- Settles O27: high half, quotient and remainder each fit the width. -/
theorem fullMultiplyAndDivide : Obligations.FullMultiplyAndDivide :=
  ⟨sizedBinary_of_answer fun _ a b => fullMulAnswer_eq a b, sizedBinary_of_answer fun _ a b => divideAnswer_eq a b⟩

/-- Settles O28: the order of the signed values is that of the patterns, turned round where the sign bits differ. -/
theorem mmixComparison : Obligations.MmixComparison :=
  ⟨sizedBinary_of_answer fun _ a b => answer1_compare a.toNat b.toNat,
    sizedBinary_of_answer fun _ a b => answer1_compare a.toInt b.toInt,
    sizedBinary_of_answer fun _ a b => (answer1_compare a.toInt b.toInt).trans (congrArg result (order_toInt a b))⟩

/-- Settles O29: each answer is the rule's number, the round trips follow from the halves, and the opcodes select the decoder's rows. -/
theorem mmixConversions : Obligations.MmixConversions := by
  refine fun s hs => ⟨fun v => ⟨rfl, respond_of_eq hs (answer2_halves v rfl)⟩,
    fun v => ⟨rfl, respond_of_eq hs (answer2_halves v rfl)⟩, fun v => ⟨rfl, respond_of_eq hs (answer2_halves v rfl)⟩,
    fun hi lo => ⟨rfl, respond_of_eq hs (answer1_append hi lo)⟩, fun hi lo => ⟨rfl, respond_of_eq hs (answer1_append hi lo)⟩,
    fun hi lo => ⟨rfl, respond_of_eq hs (answer1_append hi lo)⟩,
    fun v => respond_of_eq hs (answer1_append_halves v rfl), fun v => respond_of_eq hs (answer1_append_halves v rfl),
    fun v => respond_of_eq hs (answer1_append_halves v rfl), fun hi lo => respond_of_eq hs (answer2_halves_append hi lo rfl),
    fun hi lo => respond_of_eq hs (answer2_halves_append hi lo rfl), fun hi lo => respond_of_eq hs (answer2_halves_append hi lo rfl),
    fun c hop i hd => ?reserved, fun c half hlo hhi hhalf => ?upperBits,
    fun v => ⟨⟨rfl, respond_of_eq hs (answer1_truncated v 8)⟩, ⟨rfl, respond_of_eq hs (answer1_truncated v 16)⟩,
      ⟨rfl, respond_of_eq hs (answer1_truncated v 32)⟩, ⟨rfl, respond_of_eq hs ?truncO⟩,
      ⟨rfl, respond_of_eq hs (answer1_signExtend v)⟩⟩,
    fun v => ⟨rfl, respond_of_eq hs (answer1_signExtend v)⟩, fun v => ⟨rfl, respond_of_eq hs (answer1_signExtend v)⟩,
    fun v => ⟨rfl, respond_of_eq hs (answer1_signExtend v)⟩⟩
  case reserved =>
    have hres : reservedOp c.op.toNat := by obtain h | h := hop <;> rw [h] <;> decide
    exact (decode_accepts_iff c).1 ⟨i, hd⟩ hres
  case upperBits => rw [hhalf]; exact decode_lowPorts_join (by omega) (by omega) (by omega)
  case truncO => rw [answer1_bitsPort, BitVec.setWidth_eq]

/-- Settles O58: the opcode is one of thirteen commands at one of four widths. -/
theorem upperPortBitsIgnored : Obligations.UpperPortBitsIgnored := by
  intro c i W hlo hhi hW hd
  rw [hW, ← hd]
  exact decode_lowPorts_binary (k := (c.op.toNat - 0x40) / 4) (by omega) (Nat.mod_lt _ (by decide)) (by omega)

end Sys2Proof.Proofs
end

section
/-! The loads and stores of MMIX memory as the statements put them: big-endian values, refused accesses, and which bytes and pages a store
changes (R76, R77, R281, R290). -/

namespace Sys2Proof.Machine

open Sys2Proof.Claims

variable {s t : State} {i : Instr} {a addr : Octa} {n : Nat}

/-! ### Values in memory -/

theorem loadBytes_eq_map (s : State) (a : Octa) (n : Nat) :
    loadBytes s a n = (List.range n).map fun k => byteAt s (a + BitVec.ofNat 64 k) :=
  List.ext_getElem (by simp [loadBytes_length]) fun k _ _ => by simp [loadBytes_getElem]

theorem joinBytes_concat (bs : List Byte) (b : Byte) : joinBytes (bs ++ [b]) = joinBytes bs * 256 + b.toNat := by
  simp only [joinBytes, List.foldl_append, List.foldl_cons, List.foldl_nil]

theorem joinBytes_loadBytes (s : State) (a : Octa) (n : Nat) : joinBytes (loadBytes s a n) = bigEndian s a n := by
  rw [loadBytes_eq_map]
  induction n with
  | zero => rfl
  | succ n ih => rw [List.range_succ, List.map_append, List.map_singleton, joinBytes_concat, ih, bigEndian]

theorem bigEndian_one (s : State) (a : Octa) : bigEndian s a 1 = (byteAt s a).toNat := by simp [bigEndian]

theorem answerSeq_bitsPort {w : Nat} (vs : List (BitVec w)) : answerSeq (vs.map bitsPort) = resultSeq (vs.map BitVec.toNat) := by
  simp only [resultSeq, List.map_map, Function.comp_def, ← bitsPort_eq]; rfl

/-! ### Refused accesses -/

theorem misaligned_iff (s : State) (addr : Octa) (n : Nat) : misaligned s addr n = true ↔ refusedAt s addr n := by
  rw [misaligned, Bool.and_eq_true, decide_eq_true_iff, and_comm]

theorem not_refusedAt_one (s : State) (addr : Octa) : ¬ refusedAt s addr 1 := fun h => h.2 (Nat.mod_one _)

theorem loadAnswer_eq (s : State) (addr : Octa) (n : Nat) :
    loadAnswer s addr n = if refusedAt s addr n then resultMisaligned else result (bigEndian s addr n) := by
  simp only [loadAnswer, misaligned_iff, answer1_bitsPort, memRead_toNat, joinBytes_loadBytes]; rfl

theorem loadAnswer_one (s : State) (addr : Octa) : loadAnswer s addr 1 = result (byteAt s addr).toNat := by
  rw [loadAnswer_eq, if_neg (not_refusedAt_one s addr), bigEndian_one]

theorem storeResult_refused (h : refusedAt s addr n) (v : BitVec (8 * n)) : storeResult s addr n v = (s, resultMisaligned) :=
  if_pos ((misaligned_iff s addr n).2 h)

theorem storeResult_accepted (h : ¬ refusedAt s addr n) (v : BitVec (8 * n)) :
    storeResult s addr n v = (memWrite s addr n v, noResult) :=
  if_neg fun hm => h ((misaligned_iff s addr n).1 hm)

/-- A byte is always aligned (R286). -/
theorem execStB_eq (v : Byte) (addr : Octa) (s : State) : execStB v addr s = perform s (.ok (storeResult s addr 1 v)) := by
  rw [storeResult_accepted (not_refusedAt_one s addr)]; rfl

/-! ### The bytes and pages of a store -/

/-- Byte `k` of a stored sequence of any length, unless a later one falls on the same address (R290). -/
theorem byteAt_storeBytes_last (bs : List Byte) (s : State) (a : Octa) (k : Nat) (hk : k < bs.length)
    (hlast : ∀ j, k < j → j < bs.length → a + BitVec.ofNat 64 j ≠ a + BitVec.ofNat 64 k) :
    byteAt (storeBytes s a bs) (a + BitVec.ofNat 64 k) = bs[k] := by
  induction bs generalizing s a k with
  | nil => exact absurd hk (Nat.not_lt_zero k)
  | cons b bs ih =>
    cases k with
    | zero =>
      have hout : ∀ j < bs.length, a + BitVec.ofNat 64 0 ≠ a + 1 + BitVec.ofNat 64 j := fun j hj => by
        rw [addr_succ]; exact (hlast (j + 1) j.succ_pos (Nat.succ_lt_succ hj)).symm
      rw [storeBytes, byteAt_storeBytes_ne _ _ _ _ hout, byteAt_setByte, if_pos (BitVec.add_zero a)]; rfl
    | succ k =>
      rw [storeBytes, ← addr_succ, List.getElem_cons_succ]
      refine ih (setByte s a b) (a + 1) k (Nat.lt_of_succ_lt_succ hk) fun j hkj hj => ?_
      rw [addr_succ, addr_succ]; exact hlast (j + 1) (Nat.succ_lt_succ hkj) (Nat.succ_lt_succ hj)

/-- A store of at most `2^64` bytes writes exactly these, the most significant at its address (R77). -/
theorem wroteBytes_memWrite (s : State) (a : Octa) (v : BitVec (8 * n)) (hn : n ≤ 2 ^ 64) :
    WroteBytes s (memWrite s a n v) a n v.toNat := by
  have hlen : (splitBytes v.toNat n).length = n := splitBytes_length _ _
  refine ⟨fun k hk => ?_, fun x hout => ?_, fun p => ?_⟩
  · rw [memWrite, byteAt_storeBytes _ s a k (by rwa [hlen]) (by rwa [hlen]), splitBytes_getElem, BitVec.toNat_ofNat]
  · exact byteAt_storeBytes_ne _ s a x (by rwa [hlen])
  · rw [memWrite, mem_allocated_storeBytes, hlen]; rfl

/-! ### What a store does -/

/-- A live block that completes a store of bytes changes nothing but MMIX memory. -/
theorem changesMem_of_storeBytes {bs : List Byte} {P : State → Prop} (hs : s.Live)
    (hexec : exec i s = perform s (.ok (storeBytes s a bs, noResult)))
    (hP : P { storeBytes s a bs with resp := noResult }) : ChangesMem i s noResult P :=
  ⟨_, hexec.trans (perform_ok hs _ _), by rw [storeBytes_frame], hP⟩

/-- A store that is not refused writes its bytes (R281, R286 to R289). -/
theorem changesMem_of_accepted {v : BitVec (8 * n)} (hs : s.Live) (hn : n ≤ 2 ^ 64)
    (hexec : exec i s = perform s (.ok (storeResult s addr n v))) (h : ¬ refusedAt s addr n) :
    ChangesMem i s noResult fun t => WroteBytes s t addr n v.toNat := by
  rw [storeResult_accepted h] at hexec
  exact changesMem_of_storeBytes hs hexec (wroteBytes_memWrite s addr v hn)

/-- A store answers `Misaligned` or writes its bytes (R281, R286 to R289). -/
theorem misaligned_or_changesMem {v : BitVec (8 * n)} (hs : s.Live) (hn : n ≤ 2 ^ 64)
    (hexec : exec i s = perform s (.ok (storeResult s addr n v))) :
    if refusedAt s addr n then Answers i s resultMisaligned
    else ChangesMem i s noResult fun t => WroteBytes s t addr n v.toNat := by
  split
  · exact answers_of_ok hs hexec (congrArg _ (storeResult_refused ‹_› v))
  · exact changesMem_of_accepted hs hn hexec ‹_›

/-- What later loads see of a completed store: the bytes, the alignment parameter, and that the block is live. -/
theorem after_storeBytes {bs : List Byte} {r : Response} (hs : s.Live) (hst : perform s (.ok (storeBytes s a bs, r)) = .next t) :
    t.Live ∧ t.cfg = s.cfg ∧ t.mmixmem = (storeBytes s a bs).mmixmem := by
  rw [perform_ok hs, storeBytes_frame] at hst
  injection hst with ht
  subst ht; exact ⟨hs, rfl, rfl⟩

/-- After a store that is not refused, the load of the same width and address answers the value stored (R292 (a)). -/
theorem load_after_store {v : BitVec (8 * n)} (hs : s.Live) (hn : n ≤ 2 ^ 64) (h : ¬ refusedAt s addr n)
    (hst : perform s (.ok (storeResult s addr n v)) = .next t) :
    respond t (loadAnswer t addr n) = .next { t with resp := result v.toNat } := by
  rw [storeResult_accepted h] at hst
  obtain ⟨hlive, hcfg, hmem⟩ := after_storeBytes hs hst
  have haccepted : ¬ refusedAt t addr n := by simpa only [refusedAt, hcfg] using h
  refine respond_of_eq hlive ?_
  rw [loadAnswer_eq, if_neg haccepted, ← joinBytes_loadBytes, ← memRead_toNat, memRead_congr hmem]
  exact congrArg (fun w => result w.toNat) (memRead_memWrite s addr n hn v)

/-- The dump of a range just loaded (R292 (e)). -/
theorem dump_after_loadimg {bs : List Byte} (hs : s.Live) (hbs : bs.length < 2 ^ 64)
    (hload : exec (.mbLoadimg addr bs) s = .next t) :
    Answers (.mbDump addr (BitVec.ofNat 64 bs.length)) t (resultSeq (bs.map BitVec.toNat)) := by
  obtain ⟨hlive, -, hmem⟩ := after_storeBytes hs hload
  refine respond_of_eq hlive ?_
  rw [BitVec.toNat_ofNat, Nat.mod_eq_of_lt hbs, loadBytes_congr hmem, loadBytes_storeBytes bs s addr hbs.le, answerSeq_bitsPort]

end Sys2Proof.Machine
end

section
/-! The commands of MMIX memory (44_mmix_memory.md): what each reads, and which bytes and pages each changes. -/

namespace Sys2Proof.Proofs

open Sys2Proof.Machine Sys2Proof.Claims

/-- Settles O30: the four loads are one answer at four widths, and a byte is never refused. -/
theorem mmixLoads : Obligations.MmixLoads := fun s addr hs =>
  ⟨⟨rfl, (execLdB_eq s addr).trans (respond_of_eq hs (loadAnswer_one s addr))⟩,
    ⟨rfl, respond_of_eq hs (loadAnswer_eq s addr 2)⟩, ⟨rfl, respond_of_eq hs (loadAnswer_eq s addr 4)⟩,
    ⟨rfl, respond_of_eq hs (loadAnswer_eq s addr 8)⟩⟩

/-- Settles O31: the four stores are one write at four widths, and a byte is never refused. -/
theorem mmixStores : Obligations.MmixStores := fun s addr hs =>
  ⟨fun v => ⟨rfl, changesMem_of_accepted (n := 1) hs (by decide) (execStB_eq v addr s) (not_refusedAt_one s addr)⟩,
    fun _ => ⟨rfl, misaligned_or_changesMem (n := 2) hs (by decide) rfl⟩,
    fun _ => ⟨rfl, misaligned_or_changesMem (n := 4) hs (by decide) rfl⟩,
    fun _ => ⟨rfl, misaligned_or_changesMem (n := 8) hs (by decide) rfl⟩⟩

/-- Settles O32: the empty memory reads zero everywhere; a load finds the bytes of the store, a dump those of the bulk load. -/
theorem mmixStoreThenLoad : Obligations.MmixStoreThenLoad := by
  refine ⟨fun cfg addr => ?_, fun s t addr hs => ⟨fun v hst => ?_, fun v hok hst => ?_, fun v hok hst => ?_, fun v hok hst => ?_,
    fun _ => dump_after_loadimg hs⟩⟩
  · have hlive : (State.resetWith cfg).Live := rfl
    exact (execLdB_eq _ addr).trans (respond_of_eq hlive (loadAnswer_one _ addr))
  · exact (execLdB_eq t addr).trans
      (load_after_store (n := 1) hs (by decide) (not_refusedAt_one s addr) ((execStB_eq v addr s).symm.trans hst))
  · exact load_after_store (n := 2) hs (by decide) hok hst
  · exact load_after_store (n := 4) hs (by decide) hok hst
  · exact load_after_store (n := 8) hs (by decide) hok hst

/-- Settles O34: a bulk load is a sequence of writes in rising order, a dump the bytes at `start + k`. -/
theorem mmixBulk : Obligations.MmixBulk := by
  refine fun s start hs => ⟨fun bs => ⟨rfl, changesMem_of_storeBytes hs rfl
    ⟨fun k hk hlast => ?_, fun x hout => ?_, fun p => ?_⟩⟩, fun count => ⟨rfl, respond_of_eq hs ?_⟩⟩
  · exact byteAt_storeBytes_last bs s start k hk fun j hkj hj heq => hlast j hkj hj ((BitVec.add_right_inj start).1 heq)
  · exact byteAt_storeBytes_ne bs s start x hout
  · exact mem_allocated_storeBytes bs s start p
  · rw [answerSeq_bitsPort, loadBytes_eq_map, List.map_map]; rfl

end Sys2Proof.Proofs
end

section
/-! The slots, the four cases of a general read and a general write, and the answers of the register-window commands, in the terms of
the statements (R300 to R302). -/

namespace Sys2Proof.Machine

open Sys2Proof.Claims

variable {s u : State} {c : Instr} {v : Octa} {i : BitVec 8}

/-! ### Slots (R300) -/

theorem generalAt_ofNat (s : State) (k : Nat) : generalAt s (BitVec.ofNat 8 k) = slot s k := rfl

theorem generalAt_eq_slot (s : State) (p : BitVec 8) : generalAt s p = slot s p.toNat := by
  rw [← generalAt_ofNat, BitVec.ofNat_toNat, BitVec.setWidth_eq]

theorem localSlot_eq_ofNat (s : State) (i : BitVec 8) : localSlot s i = BitVec.ofNat 8 ((rO s).toNat / 8 + i.toNat) := by
  rw [localSlot, alpha, BitVec.ofNat_add, BitVec.ofNat_toNat, BitVec.setWidth_eq]

theorem general_setGeneral_ofNat (s : State) (k : Nat) (v : Octa) :
    (setGeneral s (BitVec.ofNat 8 k) v).general = slotSet s k v := rfl

theorem general_setGeneral_eq (s : State) (p : BitVec 8) (v : Octa) : (setGeneral s p v).general = slotSet s p.toNat v := by
  rw [← general_setGeneral_ofNat, BitVec.ofNat_toNat, BitVec.setWidth_eq]

theorem general_setGeneral_local (s : State) (i : BitVec 8) (v : Octa) :
    (setGeneral s (localSlot s i) v).general = slotSet s ((rO s).toNat / 8 + i.toNat) v := by
  rw [localSlot_eq_ofNat, general_setGeneral_ofNat]

/-! ### The logical read (R301) -/

theorem answer1_eq_result (v : Octa) : answer1 v = result v.toNat := congrArg answer1 (by simp)

theorem generalRead_toNat (s : State) (i : BitVec 8) : (generalRead s i).toNat =
    if i.toNat = 0 then 0
    else if (rG s).toNat ≤ i.toNat then (slot s i.toNat).toNat
    else if i.toNat < (rL s).toNat then (slot s ((rO s).toNat / 8 + i.toNat)).toNat
    else 0 := by
  have hzero : i = 0 ↔ i.toNat = 0 := (BitVec.toNat_inj (y := 0)).symm
  simp only [generalRead, thresholdG, thresholdL, hzero, localSlot_eq_ofNat, generalAt_ofNat, generalAt_eq_slot s i,
    apply_ite BitVec.toNat]
  rfl

theorem grRead_answers (hs : s.Live) {n : Nat} (hn : (generalRead s i).toNat = n) : Answers (.grRead i) s (result n) :=
  respond_of_eq hs (hn ▸ answer1_eq_result _)

/-! ### The logical write (R302) -/

theorem exec_grWrite (hs : s.Live) (v : Octa) (i : BitVec 8) :
    exec (.grWrite v i) s = .next { generalWrite s i v with resp := noResult } := perform_ok hs _ _

theorem generalWrite_zero (h0 : i.toNat = 0) : generalWrite s i v = s := if_pos (BitVec.eq_of_toNat_eq h0)

theorem generalWrite_global (h0 : i.toNat ≠ 0) (hG : thresholdG s ≤ i.toNat) : generalWrite s i v = setGeneral s i v := by
  rw [generalWrite, if_neg fun h => h0 (congrArg _ h), if_pos hG]

theorem generalWrite_local (h0 : i.toNat ≠ 0) (hG : i.toNat < thresholdG s) (hL : i.toNat < thresholdL s) :
    generalWrite s i v = setGeneral s (localSlot s i) v := by
  rw [generalWrite, if_neg fun h => h0 (congrArg _ h), if_neg (not_le.2 hG), if_pos hL]

/-- The window of `s` grown until `$i` is a local (R302, R317). -/
def grownTo (s : State) (i : BitVec 8) : State := growBy (i.toNat - thresholdL s + 1) s

theorem generalWrite_marginal (h0 : i.toNat ≠ 0) (hG : i.toNat < thresholdG s) (hL : thresholdL s ≤ i.toNat) :
    generalWrite s i v = setGeneral (grownTo s i) (localSlot (grownTo s i) i) v := by
  rw [generalWrite, if_neg fun h => h0 (congrArg _ h), if_neg (not_le.2 hG), if_neg (not_lt.2 hL)]; rfl

theorem general_grownTo (s : State) (i : BitVec 8) : (grownTo s i).general = s.general := by rw [grownTo, growBy_frame]

theorem rO_grownTo (s : State) (i : BitVec 8) : rO (grownTo s i) = rO s :=
  have ⟨_, hO, _⟩ := growBy_regs _ s; hO

theorem thresholdG_grownTo (s : State) (i : BitVec 8) : thresholdG (grownTo s i) = thresholdG s :=
  have ⟨_, _, hG, _⟩ := growBy_regs _ s; congrArg BitVec.toNat hG

theorem thresholdL_grownTo (hL : thresholdL s ≤ i.toNat) : thresholdL (grownTo s i) = i.toNat + 1 := by
  have hi := i.isLt
  obtain ⟨hrL, -⟩ := growBy_regs (i.toNat - thresholdL s + 1) s
  unfold thresholdL at hL hrL ⊢
  rw [grownTo, thresholdL, hrL, BitVec.toNat_add, BitVec.toNat_ofNat]; omega

theorem specialAt_growStep (s : State) {n : BitVec 5} (hL : n ≠ s.cfg.numRL) (hS : n ≠ s.cfg.numRS) :
    specialAt (growStep s) n = specialAt s n := by
  have hset : specialAt (setSpecial s s.cfg.numRL (rL s + 1)) n = specialAt s n := by rw [specialAt_setSpecial, if_neg hL]
  unfold growStep; dsimp only; split
  · exact (specialAt_setRS _ _ _).trans ((if_neg hS).trans hset)
  · exact hset

theorem specialAt_growBy (d : Nat) (s : State) {n : BitVec 5} (hL : n ≠ s.cfg.numRL) (hS : n ≠ s.cfg.numRS) :
    specialAt (growBy d s) n = specialAt s n := by
  induction d generalizing s with
  | zero => rfl
  | succ d ih =>
    have hc : (growStep s).cfg = s.cfg := by rw [growStep_frame]
    exact (ih _ (hc ▸ hL) (hc ▸ hS)).trans (specialAt_growStep s hL hS)

/-- A promotion makes `$i` a local whose slot then holds the value (R302). -/
theorem generalRead_promoted (s : State) (v : Octa) (h0 : i.toNat ≠ 0) (hG : i.toNat < thresholdG s) (hL : thresholdL s ≤ i.toNat) :
    generalRead (setGeneral (grownTo s i) (localSlot (grownTo s i) i) v) i = v := by
  have hG' : ¬ thresholdG (grownTo s i) ≤ i.toNat := by rw [thresholdG_grownTo]; exact not_le.2 hG
  have hL' : i.toNat < thresholdL (grownTo s i) := (thresholdL_grownTo hL).symm ▸ i.toNat.lt_succ_self
  rw [generalRead, if_neg fun h => h0 (congrArg _ h), thresholdG_setGeneral, if_neg hG', thresholdL_setGeneral, if_pos hL',
    generalAt_setGeneral]
  exact if_pos rfl

/-! ### Commands that change the register file only -/

theorem changesRing_of_ok {P : State → Prop} (hs : s.Live) (hexec : exec c s = perform s (.ok (u, answer0)))
    (hframe : u = { s with general := u.general, special := u.special, memoryStack := u.memoryStack })
    (hP : P { u with resp := noResult }) : ChangesRing c s noResult P :=
  ⟨{ u with resp := noResult }, hexec.trans (perform_ok hs u _), by rw [hframe], hP⟩

/-! ### Frame push (R307) and the special registers (R309 to R316) -/

theorem exec_pushf (hs : s.Live) : exec .pushf s = .next { pushFrame s with resp := answer1 (rL s) } := perform_ok hs _ _

theorem breaksGeometry_iff (s : State) (n : BitVec 5) (v : Octa) : breaksGeometry s n v = true ↔ illegalWrite s n v := by
  simp only [breaksGeometry, Bool.or_eq_true, Bool.and_eq_true, decide_eq_true_eq, or_assoc]; rfl

theorem exec_srWrite (hs : s.Live) {n : BitVec 5} (h : ¬ illegalWrite s n v) :
    exec (.srWrite v n) s = .next { specialWrite s n v with resp := noResult } := by
  have hact : (if breaksGeometry s n v then .error .geometry else .ok (specialWrite s n v, answer0) : Except CvKind (State × Response)) =
      .ok (specialWrite s n v, answer0) := if_neg ((breaksGeometry_iff s n v).not.2 h)
  exact (congrArg (perform s) hact).trans (perform_ok hs _ _)

/-- Writing `rS` can only break its own alignment (R316). -/
theorem illegalWrite_rS (s : State) (v : Octa) : illegalWrite s s.cfg.numRS v ↔ v.toNat % 8 ≠ 0 := by
  obtain ⟨hOS, -, -, hSL, hSG, -⟩ := s.cfg.distinct
  simp [illegalWrite, hOS.symm, hSL, hSG]

/-- No entry is listed beyond the stack's length (R42). -/
theorem stackEntry_of_le (h : StackWf s) {k : Nat} (hk : stackLen s ≤ k) : stackEntry s k = 0 := by
  obtain ⟨hwf, hlt⟩ := h
  by_contra hne
  exact absurd (hlt _ ((mem_iff_sparseRead hwf k _).2 ⟨rfl, hne⟩)) (not_lt.2 hk)

end Sys2Proof.Machine
end

section
/-! A frame popped, and the ring kept in order by every general write and frame pop; the registers of the ring, wherever they stand
(R303 to R308, R320). -/

namespace Sys2Proof.Machine

open Sys2Proof.Claims

variable {s t u : State} {v : Octa} {i : BitVec 8} {size : BitVec 9}

/-! ### The ring in order (R305, R320) -/

theorem ringInv_of_ringOk (h : RingOk s) : s.RingInv := by
  obtain ⟨hO, hS, hle, hcount⟩ := h
  exact ⟨hle, by simp only [residentCount, thresholdL]; omega⟩

/-- `rS` after a promotion: one spill for each register beyond the 255 that fit, and none past `rO` (R302, R303). -/
theorem rS_grownTo (h : RingOk s) (hL : thresholdL s ≤ i.toNat) (hw : i.toNat ≤ 254 ∨ (rO s).toNat + 8 < 2 ^ 64) :
    (rS (grownTo s i)).toNat = (rS s).toNat + 8 * spillCount s i.toNat := by
  have hi := i.isLt
  unfold thresholdL at hL
  have hcount : (rO s).toNat / 8 - (rS s).toNat / 8 + (rL s).toNat + (i.toNat - (rL s).toNat + 1) - 255 = spillCount s i.toNat := by
    unfold spillCount; omega
  rw [← hcount]
  have ⟨hrS, _⟩ := growBy_ring (i.toNat - (rL s).toNat + 1) h (by omega) (by omega)
  exact hrS

theorem grownTo_ringOk (h : RingOk s) (hL : thresholdL s ≤ i.toNat) (hi : i.toNat ≤ 254) : RingOk (grownTo s i) := by
  have hrS := rS_grownTo h hL (.inl hi)
  have hrL := thresholdL_grownTo hL
  obtain ⟨hO, hS, hle, hcount⟩ := h
  unfold spillCount at hrS
  unfold thresholdL at hL hrL
  rw [RingOk, rO_grownTo]; omega

theorem setGeneral_ringOk (h : RingOk s) (p : BitVec 8) (v : Octa) : RingOk (setGeneral s p v) := h

/-- A write to a register up to `$254` keeps the ring in order (R320; `$255` as a local is the corner of R323). -/
theorem generalWrite_ringOk (h : RingOk s) (v : Octa) (hi : i.toNat ≤ 254) : RingOk (generalWrite s i v) := by
  by_cases h0 : i.toNat = 0
  · rwa [generalWrite_zero h0]
  by_cases hG : thresholdG s ≤ i.toNat
  · rw [generalWrite_global h0 hG]; exact setGeneral_ringOk h _ v
  by_cases hL : i.toNat < thresholdL s
  · rw [generalWrite_local h0 (not_le.1 hG) hL]; exact setGeneral_ringOk h _ v
  · rw [generalWrite_marginal h0 (not_le.1 hG) (not_lt.1 hL)]
    exact setGeneral_ringOk (grownTo_ringOk h (not_lt.1 hL) hi) _ v

/-! ### Frame push (R307) -/

theorem pushFrame_regs (s : State) :
    rO (pushFrame s) = rO s + 8 * rL s ∧ rS (pushFrame s) = rS s ∧ rL (pushFrame s) = 0 ∧ rG (pushFrame s) = rG s :=
  ⟨(rO_setRL _ _).trans (rO_setRO _ _), (rS_setRL _ _).trans (rS_setRO _ _), rL_setRL _ _, (rG_setRL _ _).trans (rG_setRO _ _)⟩

theorem rO_pushFrame (s : State) : (rO (pushFrame s)).toNat = ((rO s).toNat + 8 * (rL s).toNat) % 2 ^ 64 := by
  obtain ⟨hO, -⟩ := pushFrame_regs s
  rw [hO, BitVec.toNat_add, BitVec.toNat_mul, Nat.add_mod_mod]; rfl

/-- Without wrap the caller's locals become older residents: the count stays (R307). -/
theorem pushFrame_ringOk (h : RingOk s) (hw : (rO s).toNat + 8 * (rL s).toNat < 2 ^ 64) :
    RingOk (pushFrame s) ∧ residentCount (pushFrame s) = residentCount s := by
  obtain ⟨-, hrS, hrL, -⟩ := pushFrame_regs s
  have hrO := (rO_pushFrame s).trans (Nat.mod_eq_of_lt hw)
  obtain ⟨hO, hS, hle, hcount⟩ := h
  have hrL' : (rL (pushFrame s)).toNat = 0 := congrArg BitVec.toNat hrL
  simp only [RingOk, residentCount, thresholdL, hrO, hrS, hrL']
  omega

/-! ### Frame pop (R308) -/

theorem popOk_of_ringOk (h : RingOk s) : PopOk (setSpecial s s.cfg.numRL 0) := by
  obtain ⟨hO, hS, hle, hcount⟩ := h
  simp only [PopOk, rO_setRL, rS_setRL]
  omega

/-- What a frame pop of `n` registers leaves of the register file (R308, R306): the registers of the frame that had been spilled back
in the slots they came from, everything else as it was. -/
structure FramePopped (s t : State) (n : Nat) : Prop where
  rO_eq : (rO t).toNat = (rO s).toNat - 8 * n
  rL_eq : (rL t).toNat = n
  rS_eq : (rS t).toNat = min (rS s).toNat (rO t).toNat
  special_eq : ∀ m, m ≠ s.cfg.numRO → m ≠ s.cfg.numRL → m ≠ s.cfg.numRS → specialAt t m = specialAt s m
  filled : ∀ k, (rS t).toNat / 8 ≤ k → k < (rS s).toNat / 8 → slot t k = stackEntry s k
  slot_eq : ∀ p : Fin 256, (∀ k, (rS t).toNat / 8 ≤ k → k < (rS s).toNat / 8 → k % 256 ≠ p.val) → t.general[p] = s.general[p]
  entry_eq : ∀ k < (rS t).toNat / 8, stackEntry t k = stackEntry s k

/-- Under the ring invariant a frame that was pushed can be popped. -/
theorem popFrame_framePopped (h : RingOk s) (hG : size.toNat ≤ thresholdG s) (h256 : size.toNat ≤ 256)
    (hO : 8 * size.toNat ≤ (rO s).toNat) : ∃ t, popFrame s size = .ok t ∧ FramePopped s t size.toNat := by
  obtain ⟨u, hu, -, uO, uS, -, -, uspec, ufill, uslot, uentry⟩ :=
    popSteps_ring size.toNat (popOk_of_ringOk h) (by rwa [rO_setRL]) h256
  simp only [rO_setRL, rS_setRL] at uO uS ufill uslot uentry
  refine ⟨setSpecial u u.cfg.numRL (size.setWidth 64), by rw [popFrame, if_neg (not_lt.2 hG), hu], ?_⟩
  have hcfg : u.cfg = s.cfg := by rw [popSteps_frame _ hu]; rfl
  constructor
  case rO_eq => rw [rO_setRL, uO]
  case rL_eq => rw [rL_setRL, BitVec.toNat_setWidth]; omega
  case rS_eq => rw [rS_setRL, rO_setRL, uS]
  case special_eq =>
    intro m mO mL mS
    rw [specialAt_setSpecial, hcfg, if_neg mL, uspec m mO mS, specialAt_setSpecial, if_neg mL]
  case filled => rw [rS_setRL]; exact ufill
  case slot_eq =>
    rw [rS_setRL]
    intro p hp
    exact uslot (BitVec.ofFin p) fun k h1 h2 hk => hp k h1 h2 (congrArg BitVec.toNat hk).symm
  case entry_eq => rw [rS_setRL]; exact uentry

/-- Under the ring invariant the stack underflows when more is popped than was pushed. -/
theorem popFrame_underflow (h : RingOk s) (hG : size.toNat ≤ thresholdG s) (hO : (rO s).toNat < 8 * size.toNat) :
    popFrame s size = .error .stackUnderflow := by
  rw [popFrame, if_neg (not_lt.2 hG), popSteps_underflow _ (popOk_of_ringOk h) (by rwa [rO_setRL])]

/-- Under the ring invariant a frame that was popped had been pushed. -/
theorem framePopped_of_popFrame (h : RingOk s) (h256 : size.toNat ≤ 256) (hpop : popFrame s size = .ok u) :
    8 * size.toNat ≤ (rO s).toNat ∧ FramePopped s u size.toNat := by
  obtain ⟨hG, -⟩ := popFrame_ok hpop
  rcases Nat.lt_or_ge (rO s).toNat (8 * size.toNat) with hO | hO
  · rw [popFrame_underflow h hG hO] at hpop; cases hpop
  · obtain ⟨t, ht, hp⟩ := popFrame_framePopped h hG h256 hO
    rw [ht] at hpop; cases hpop; exact ⟨hO, hp⟩

/-- `rO` at zero and `rS` elsewhere, as only an out-of-band write leaves them (R387): nothing to fill, and no frame to move back to. -/
theorem popFrame_frameUnderflow (hG : size.toNat ≤ thresholdG s) (h0 : size.toNat ≠ 0) (hO : (rO s).toNat = 0)
    (hS : (rS s).toNat / 8 % 256 ≠ 0) : popFrame s size = .error .frameUnderflow := by
  obtain ⟨n, hn⟩ := Nat.exists_eq_succ_of_ne_zero h0
  have hne : ¬ alpha (setSpecial s s.cfg.numRL 0) = gamma (setSpecial s s.cfg.numRL 0) := by
    rw [alpha, gamma, ofNat8_eq, rO_setRL, rS_setRL, hO]; exact Ne.symm hS
  have hstep : popStep (setSpecial s s.cfg.numRL 0) = .error .frameUnderflow := by
    rw [popStep, if_neg hne]
    exact if_pos (by rw [rO_setRL, hO]; decide)
  rw [popFrame, if_neg (not_lt.2 hG), hn, popSteps, hstep]

theorem exec_popf_ok (hs : s.Live) (h : popFrame s size = .ok t) : exec (.popf size) s = .next { t with resp := noResult } := by
  simp only [exec, execPopf, h]; exact perform_ok hs _ _

theorem popf_raises {k : CvKind} (hs : s.Live) (h : popFrame s size = .error k) : Raises (.popf size) s k :=
  raises_of_error hs rfl (by rw [h])

/-- After a pop the residents are the frame's, and the older ones that are left (R320). -/
theorem framePopped_ringOk (h : RingOk s) {n : Nat} (hn : n ≤ 255) (hO : 8 * n ≤ (rO s).toNat) (hp : FramePopped s t n) :
    RingOk t ∧ residentCount t = max (((rO s).toNat / 8 : Int) - ((rS s).toNat / 8 : Int)) (n : Int) := by
  have hrO := hp.rO_eq
  have hrS := hp.rS_eq
  have hrL := hp.rL_eq
  obtain ⟨aO, aS, hle, hcount⟩ := h
  simp only [RingOk, residentCount, thresholdL]
  omega

/-! ### The registers of the ring, counted from the first one ever pushed -/

/-- Register `k` of the ring: on the spill stack once it was spilled, in its slot until then (R304, R305). -/
def ringRegister (s : State) (k : Nat) : Octa := if k < (rS s).toNat / 8 then stackEntry s k else slot s k

theorem ringRegister_of_resident {k : Nat} (hk : (rS s).toNat / 8 ≤ k) : ringRegister s k = slot s k := if_neg (not_lt.2 hk)

/-- Growth moves registers from their slots to the stack and loses none (R303, R304). -/
theorem ringRegister_growBy (h : RingOk s) {n : Nat} (hn : thresholdL s + n ≤ 255) (k : Nat) :
    ringRegister (growBy n s) k = ringRegister s k := by
  obtain ⟨hrS, hspilled, holder⟩ := growBy_ring n h (hn.trans (by decide)) (.inl hn)
  obtain ⟨-, -, -, hgeneral⟩ := growBy_regs n s
  have hslot : slot (growBy n s) k = slot s k := hgeneral (BitVec.ofNat 8 k)
  unfold ringRegister
  by_cases hk : k < (rS s).toNat / 8
  · rw [if_pos hk, if_pos (by omega), holder k hk]
  · rw [if_neg hk, hslot]
    split
    · exact hspilled k (not_lt.1 hk) ‹_›
    · rfl

/-- A local of the current frame shares no slot with a register pushed before (R305). -/
theorem ringRegister_setLocal (h : RingOk s) (hi : i.toNat < thresholdL s) {k : Nat} (hk : k < (rO s).toNat / 8) :
    ringRegister (setGeneral s (localSlot s i) v) k = ringRegister s k := by
  unfold ringRegister
  rw [rS_setGeneral]
  split
  · rfl
  · obtain ⟨-, -, -, hcount⟩ := h
    have hne : BitVec.ofNat 8 k ≠ localSlot s i := by
      rw [localSlot_eq_ofNat, Ne, ofNat8_eq]; unfold thresholdL at hi; omega
    rw [← generalAt_ofNat, generalAt_setGeneral, if_neg hne, generalAt_ofNat]

/-- A write to a local or a marginal keeps every register pushed before (R321). -/
theorem ringRegister_generalWrite (h : RingOk s) (v : Octa) (hG : i.toNat < thresholdG s) (hi : i.toNat ≤ 254) {k : Nat}
    (hk : k < (rO s).toNat / 8) : ringRegister (generalWrite s i v) k = ringRegister s k := by
  by_cases h0 : i.toNat = 0
  · rw [generalWrite_zero h0]
  by_cases hL : i.toNat < thresholdL s
  · rw [generalWrite_local h0 hG hL, ringRegister_setLocal h hL hk]
  · have hL' := not_lt.1 hL
    rw [generalWrite_marginal h0 hG hL',
      ringRegister_setLocal (grownTo_ringOk h hL' hi) (by rw [thresholdL_grownTo hL']; omega) (by rwa [rO_grownTo]),
      grownTo, ringRegister_growBy h (by omega)]

/-- A pop fills what the stack held and loses no register pushed before (R306, R308). -/
theorem ringRegister_framePopped {n : Nat} (hn : n ≤ 256) (hp : FramePopped s t n) {k : Nat}
    (hk : k < (rO s).toNat / 8) : ringRegister t k = ringRegister s k := by
  have hrO := hp.rO_eq
  have hrS := hp.rS_eq
  unfold ringRegister
  by_cases ht : k < (rS t).toNat / 8
  · rw [if_pos ht, if_pos (by omega), hp.entry_eq k ht]
  · rw [if_neg ht]
    split
    · exact hp.filled k (not_lt.1 ht) ‹_›
    · exact hp.slot_eq ⟨k % 256, Nat.mod_lt _ (by decide)⟩ fun j h1 h2 => by
        show j % 256 ≠ k % 256
        omega

/-! ### Writes in a callee's frame (R321) -/

/-- What the callee's writes leave as it was: the live block, the ring in order, `rO`, `G`, and every register pushed before. -/
structure CalleeOk (s t : State) : Prop where
  live : t.Live
  ring : RingOk t
  rO_eq : rO t = rO s
  rG_eq : rG t = rG s
  kept : ∀ k < (rO s).toNat / 8, ringRegister t k = ringRegister s k

/-- The callee starts with the frame just pushed, whatever stands on the response port. -/
theorem calleeOk_pushFrame (hs : s.Live) (h : RingOk s) (hw : (rO s).toNat + 8 * (rL s).toNat < 2 ^ 64) (r : Response) :
    CalleeOk (pushFrame s) { pushFrame s with resp := r } :=
  ⟨hs, (pushFrame_ringOk h hw).1, rfl, rfl, fun _ _ => rfl⟩

theorem generalWrite_regs (s : State) (i : BitVec 8) (v : Octa) : rO (generalWrite s i v) = rO s ∧ rG (generalWrite s i v) = rG s := by
  obtain ⟨-, hO, hG, -⟩ := growBy_regs (i.toNat - thresholdL s + 1) s
  unfold generalWrite
  split_ifs
  exacts [⟨rfl, rfl⟩, ⟨rfl, rfl⟩, ⟨rfl, rfl⟩, ⟨hO, hG⟩]

theorem CalleeOk.generalWrite (h : CalleeOk s t) (v : Octa) (hG : i.toNat < thresholdG s) (hi : i.toNat ≤ 254) :
    CalleeOk s { generalWrite t i v with resp := noResult } := by
  obtain ⟨hlive, hring, hO, hrG, hkept⟩ := h
  obtain ⟨wO, wG⟩ := generalWrite_regs t i v
  have hGt : i.toNat < thresholdG t := by rwa [thresholdG, hrG]
  refine ⟨?_, generalWrite_ringOk hring v hi, wO.trans hO, wG.trans hrG, fun k hk => ?_⟩
  · rw [generalWrite_frame]; exact hlive
  · exact (ringRegister_generalWrite hring v hGt hi (by rwa [hO])).trans (hkept k hk)

theorem CalleeOk.writes {ws : List (BitVec 8 × Octa)} (hws : ∀ w ∈ ws, w.1.toNat < thresholdG s ∧ w.1.toNat ≤ 254)
    (h : CalleeOk s t) (hrun : Writes ws t u) : CalleeOk s u := by
  induction ws generalizing t with
  | nil => exact (show u = t from hrun) ▸ h
  | cons w ws ih =>
    obtain ⟨t', hexec, hrest⟩ := hrun
    obtain ⟨⟨hG, hi⟩, hws'⟩ := List.forall_mem_cons.1 hws
    rw [exec_grWrite h.live] at hexec
    injection hexec with ht
    exact ih hws' (ht ▸ h.generalWrite w.2 hG hi) hrest

/-- The pop of the caller's frame brings back `rO`, `rL` and the caller's locals: each was kept while the callee ran, and is resident
again when `rS` is no higher than the caller's `rO` (R321). -/
theorem popFrame_calleeOk (hok : RingOk s) (hLG : thresholdL s ≤ thresholdG s) (hL : (rL s).toNat ≤ 255)
    (hw : (rO s).toNat + 8 * (rL s).toNat < 2 ^ 64) (hsize : size.toNat = (rL s).toNat) (h : CalleeOk (pushFrame s) u) :
    ∃ t, popFrame u size = .ok t ∧ rO t = rO s ∧ rL t = rL s ∧
      ∀ i < (rL s).toNat, slot t ((rO t).toNat / 8 + i) = slot s ((rO s).toNat / 8 + i) := by
  obtain ⟨-, pS, -, pG⟩ := pushFrame_regs s
  have pO : (rO (pushFrame s)).toNat = (rO s).toNat + 8 * (rL s).toNat := (rO_pushFrame s).trans (Nat.mod_eq_of_lt hw)
  have uO : (rO u).toNat = (rO s).toNat + 8 * (rL s).toNat := (congrArg BitVec.toNat h.rO_eq).trans pO
  have uG : thresholdG u = thresholdG s := congrArg BitVec.toNat (h.rG_eq.trans pG)
  obtain ⟨t, hpop, ht⟩ := popFrame_framePopped h.ring (by rw [hsize, uG]; exact hLG) (by omega) (by omega)
  rw [hsize] at ht
  have tO : rO t = rO s := BitVec.eq_of_toNat_eq (by rw [ht.rO_eq]; omega)
  have tS := ht.rS_eq
  obtain ⟨aO, -, hle, -⟩ := hok
  refine ⟨t, hpop, tO, BitVec.eq_of_toNat_eq ht.rL_eq, fun i hi => ?_⟩
  rw [tO] at tS ⊢
  calc slot t ((rO s).toNat / 8 + i)
      = ringRegister t ((rO s).toNat / 8 + i) := (ringRegister_of_resident (by omega)).symm
    _ = ringRegister u ((rO s).toNat / 8 + i) := ringRegister_framePopped (hL.trans (by decide)) ht (by omega)
    _ = ringRegister (pushFrame s) ((rO s).toNat / 8 + i) := h.kept _ (by omega)
    _ = slot s ((rO s).toNat / 8 + i) := ringRegister_of_resident (by rw [pS]; omega)

end Sys2Proof.Machine
end

section
/-! The commands of the register window (45_mmix_regwindow.md): reads, writes, promotions and their spills, frames, and the special
registers. -/

namespace Sys2Proof.Proofs

open Sys2Proof.Machine Sys2Proof.Claims

/-- Settles O36: the model tests `$0`, global, local and marginal in the statement's order. -/
theorem generalRead : Obligations.GeneralRead := fun s i hs => ⟨rfl, grRead_answers hs (generalRead_toNat s i)⟩

/-- Settles O37: each of the three writes touches the slot it names, or none. -/
theorem generalWriteInPlace : Obligations.GeneralWriteInPlace := by
  refine fun s v i hs => ⟨rfl, fun h0 => ?_, fun h0 hG => ?_, fun h0 hG hL => ?_⟩
  · rw [Answers, exec_grWrite hs, generalWrite_zero h0]
  · rw [exec_grWrite hs, generalWrite_global h0 hG, ← general_setGeneral_eq]; rfl
  · rw [exec_grWrite hs, generalWrite_local h0 hG hL, ← general_setGeneral_local]; rfl

/-- Settles O38: growth moves `rL` and `rS` only, and the last write is to the slot `$i` then has. -/
theorem generalWritePromotes : Obligations.GeneralWritePromotes := by
  intro s v i hs h0 hL hG
  have hwrite := generalWrite_marginal (v := v) h0 hG hL
  refine changesRing_of_ok hs rfl (generalWrite_frame s i v) ?_
  rw [hwrite]
  refine ⟨thresholdL_grownTo hL, ?_, fun n hnL hnS => specialAt_growBy _ s hnL hnS, grRead_answers ?_ ?_⟩
  · refine (general_setGeneral_local _ _ _).trans ?_
    simp only [slotSet, general_grownTo, rO_grownTo]
  · rw [← hwrite, generalWrite_frame]; exact hs
  · exact congrArg BitVec.toNat (generalRead_promoted s v h0 hG hL)

/-- Settles O39: the spills are those of the growth loop, and the write that follows reaches neither `rS` nor the stack. -/
theorem promotionSpills : Obligations.PromotionSpills := by
  intro s t v i hs hgeo hring hO h0 hL hG hexec
  have hok := ringOk_of_inv hgeo hring
  have hi := i.isLt
  have hfit : (rL s).toNat + (i.toNat - thresholdL s + 1) ≤ 256 := by unfold thresholdL; omega
  obtain ⟨-, hspilled, holder⟩ := growBy_ring _ hok hfit (.inr hO)
  rw [exec_grWrite hs, generalWrite_marginal h0 hG hL] at hexec
  injection hexec with ht
  subst ht
  exact ⟨rS_grownTo hok hL (.inr hO), hspilled, holder⟩

/-- Settles O41: the frame's registers come back one by one, filled from the stack where they had been spilled. -/
theorem framePop : Obligations.FramePop := by
  intro s size hs hgeo hring hG hO
  have ⟨_, hG256, _⟩ := hgeo
  have h256 : size.toNat ≤ 256 := hG.trans hG256
  obtain ⟨t, hpop, ht⟩ := popFrame_framePopped (ringOk_of_inv hgeo hring) hG h256 hO
  exact ⟨rfl, { t with resp := noResult }, exec_popf_ok hs hpop, by rw [popFrame_frame hpop], ht.rO_eq, ht.rL_eq, ht.rS_eq,
    ht.special_eq, ht.filled, ht.slot_eq, ht.entry_eq⟩

/-- Settles O42: the size is checked first; then the stack runs empty before `rO` does, unless `rS` is not where a run leaves it. -/
theorem framePopViolations : Obligations.FramePopViolations := fun _ _ hs =>
  ⟨fun hG => popf_raises hs (if_pos hG),
    fun hgeo hring hG hO => popf_raises hs (popFrame_underflow (ringOk_of_inv hgeo hring) hG hO),
    fun hG h0 hO hS => popf_raises hs (popFrame_frameUnderflow hG h0 hO hS)⟩

/-- Settles O43: push, the callee's writes and pop each keep every register of the ring that was pushed before, and after the pop the
caller's are resident again. -/
theorem frameRoundTrip : Obligations.FrameRoundTrip := by
  intro s s1 s2 ws hs hgeo hring hL hw hws hpush hwrites
  have hok := ringOk_of_inv hgeo hring
  rw [exec_pushf hs] at hpush
  injection hpush with h1
  subst h1
  obtain ⟨-, -, -, pG⟩ := pushFrame_regs s
  have hws' : ∀ w ∈ ws, w.1.toNat < thresholdG (pushFrame s) ∧ w.1.toNat ≤ 254 := by rw [thresholdG, pG]; exact hws
  have hcallee := (calleeOk_pushFrame hs hok hw (answer1 (rL s))).writes hws' hwrites
  have hsize : (BitVec.ofNat 9 (rL s).toNat).toNat = (rL s).toNat := by rw [BitVec.toNat_ofNat]; omega
  obtain ⟨t, hpop, tO, tL, tslots⟩ := popFrame_calleeOk hok hgeo.1 hL hw hsize hcallee
  refine ⟨{ t with resp := noResult }, exec_popf_ok hcallee.live hpop, ?_, tO, tL, tslots⟩
  rw [popFrame_frame hpop]; exact hcallee.live

/-- Settles O44: each command keeps the ring in order, and a violation changes nothing of it. -/
theorem ringInvariantKept : Obligations.RingInvariantKept := by
  intro s t hs hgeo hring
  have hok := ringOk_of_inv hgeo hring
  refine ⟨fun v i hi hexec => ?_, fun hw hexec => ?_, fun size hsize hexec => ?_⟩
  · rw [exec_grWrite hs] at hexec
    injection hexec with ht
    exact ht ▸ ringInv_of_ringOk (generalWrite_ringOk hok v hi)
  · rw [exec_pushf hs] at hexec
    injection hexec with ht
    obtain ⟨pring, pcount⟩ := pushFrame_ringOk hok hw
    exact ht ▸ ⟨ringInv_of_ringOk pring, pcount⟩
  · cases hpop : popFrame s size with
    | error k =>
      obtain ⟨valid, hraise⟩ := popf_raises hs hpop
      cases hraise.symm.trans hexec
      exact ⟨hring, fun hlive => nomatch hlive⟩
    | ok u =>
      cases (exec_popf_ok hs hpop).symm.trans hexec
      obtain ⟨hO, hp⟩ := framePopped_of_popFrame hok (hsize.trans (by decide)) hpop
      obtain ⟨uring, ucount⟩ := framePopped_ringOk hok hsize hO hp
      exact ⟨ringInv_of_ringOk uring, fun _ => ucount⟩

/-- Settles O45: the model's check is the statement's, and every register but `rS` is plain storage. -/
theorem specialReadWrite : Obligations.SpecialReadWrite := by
  refine fun s n hs => ⟨⟨rfl, respond_of_eq hs (answer1_eq_result _)⟩, fun v => ⟨rfl, fun hill => ?_, fun hn hlegal => ?_⟩⟩
  · exact raises_of_error hs rfl (if_pos ((breaksGeometry_iff s n v).2 hill))
  · rw [exec_srWrite hs hlegal, specialWrite, if_neg hn]; rfl

/-- Settles O46: the entries below the new length stay, and nothing is listed beyond the old one. -/
theorem stackPointerWrite : Obligations.StackPointerWrite := by
  intro s v hs hwf hv
  obtain ⟨-, -, -, hstack⟩ := hwf
  have hlegal : ¬ illegalWrite s s.cfg.numRS v := fun h => (illegalWrite_rS s v).1 h hv
  refine ⟨{ setRS s v with resp := noResult }, ?_, rfl, stackLen_setRS s v, ?_, fun k => ?_⟩
  · rw [exec_srWrite hs hlegal, specialWrite, if_pos rfl]
  · exact (congrArg (fun r : Octa => (BitVec.ofNat 8 (r.toNat / 8)).toNat) (rS_setRS s v)).trans (BitVec.toNat_ofNat _ _)
  · refine (stackEntry_setRS s v k).trans ?_
    by_cases hk : k < stackLen s
    · simp only [hk, and_true]
    · simp only [hk, and_false, stackEntry_of_le hstack (not_lt.1 hk), ite_self]

/-- Settles O40: the model's 64-bit sum is the statement's sum modulo `2^64`. -/
theorem framePush : Obligations.FramePush := by
  intro s hs
  have hO : BitVec.ofNat 64 (((rO s).toNat + 8 * (rL s).toNat) % 2 ^ 64) = rO s + 8 * rL s := by
    rw [← rO_pushFrame, BitVec.ofNat_toNat, BitVec.setWidth_eq, (pushFrame_regs s).1]
  rw [hO, ← answer1_eq_result]
  exact ⟨rfl, exec_pushf hs⟩

end Sys2Proof.Proofs
end

section
/-! What a command that meets a check answers, by its instruction: a violation of the table (R342), an answer to the state as it
was, or an effect, which is never answered by nil or a misaligned access (R341, R344, R345). -/

namespace Sys2Proof.Machine

open Sys2Proof.Claims

variable {s t : State} {i : Instr}

/-- What `i` hands to `perform` at `s`: a violation of the table; an answer to the state as it is; or an effect, answered with `valid` 1 and
no `err`. -/
inductive Act (i : Instr) (s : State) : Except CvKind (State × Response) → Prop
  | raised {k : CvKind} (h : k ∈ raises i) : Act i s (.error k)
  | answered (r : Response) : Act i s (.ok (s, r))
  | wrote {u : State} {r : Response} (hu : Effect s i u) (herr : r.err = .none) (hvalid : r.valid = true) : Act i s (.ok (u, r))

theorem act_check {c : Prop} [Decidable c] {k : CvKind} (hk : k ∈ raises i) {a : Except CvKind (State × Response)} (ha : Act i s a) :
    Act i s (if c then a else .error k) := iteInduction (fun _ => ha) fun _ => .raised hk

theorem act_refuse {c : Prop} [Decidable c] {k : CvKind} (hk : k ∈ raises i) {a : Except CvKind (State × Response)}
    (ha : ¬ c → Act i s a) : Act i s (if c then .error k else a) := iteInduction (fun _ => .raised hk) ha

/-- A refused store answers to the state as it was (R281). -/
theorem act_storeResult {addr : Octa} {n : Nat} {v : BitVec (8 * n)} (hu : Effect s i (memWrite s addr n v)) :
    Act i s (.ok (storeResult s addr n v)) := by
  rw [storeResult]
  split
  · exact .answered _
  · exact .wrote hu rfl rfl

theorem mem_raises_popf {size : BitVec 9} {k : CvKind} (h : popFrame s size = .error k) : k ∈ raises (.popf size) := by
  obtain rfl | rfl | rfl := popFrame_error h
  · exact .tail _ (.head _)
  · exact .head _
  · exact .tail _ (.tail _ (.head _))

/-- Every command is one `perform`, of a violation the table gives it, of an answer or of its effect (R342, R380). -/
theorem exec_act (i : Instr) (s : State) : ∃ act, exec i s = perform s act ∧ Act i s act := by
  cases i with
  | fsEnc | fsDec | mxFget | mxFput | mmLoad => exact ⟨_, rfl, act_check (.head _) (.answered _)⟩
  | mmStore => exact ⟨_, rfl, act_check (.head _) (.wrote (.mmStore _ _ _) rfl rfl)⟩
  | mxMake | mxFromint | mxGetb => exact ⟨_, rfl, act_refuse (.head _) fun _ => .answered _⟩
  | mxSetb => exact ⟨_, rfl, act_refuse (.head _) fun _ => act_refuse (.tail _ (.head _)) fun _ => .answered _⟩
  | mxDiv => exact ⟨_, rfl, iteInduction (fun _ => .answered _) fun _ => act_refuse (.head _) fun _ => .answered _⟩
  | mrRead id =>
    refine ⟨_, rfl, ?_⟩
    cases mixRegOf id with
    | none => exact .raised (.head _)
    | some r => exact .answered _
  | mrWrite v id =>
    refine ⟨_, rfl, ?_⟩
    cases hr : mixRegOf id with
    | none => exact .raised (.head _)
    | some r => exact .wrote (.mrWrite v id r hr) rfl rfl
  | mrSetci c =>
    refine ⟨_, rfl, ?_⟩
    cases hc : cmpOfCode c with
    | none => exact .raised (.head _)
    | some v => exact .wrote (.mrSetci c v hc) rfl rfl
  | srWrite v n => exact ⟨_, rfl, act_refuse (.head _) fun hb => .wrote (.srWrite v n (Bool.not_eq_true _ ▸ hb)) rfl rfl⟩
  | popf size =>
    refine ⟨_, rfl, ?_⟩
    cases hp : popFrame s size with
    | error k => exact .raised (mem_raises_popf hp)
    | ok u => exact .wrote (.popf size u hp) rfl rfl
  | mmLoadprog => exact ⟨_, rfl, .wrote (.mmLoadprog _ _) rfl rfl⟩
  | mmLoadimg => exact ⟨_, rfl, .wrote (.mmLoadimg _ _) rfl rfl⟩
  | mmClear => exact ⟨_, rfl, .wrote .mmClear rfl rfl⟩
  | mmClrrng => exact ⟨_, rfl, .wrote (.mmClrrng _ _) rfl rfl⟩
  | mrSetov => exact ⟨_, rfl, .wrote (.mrSetov _) rfl rfl⟩
  | stB => exact ⟨_, rfl, .wrote (.stB _ _) rfl rfl⟩
  | stW => exact ⟨_, rfl, act_storeResult (.stW _ _)⟩
  | stT => exact ⟨_, rfl, act_storeResult (.stT _ _)⟩
  | stO => exact ⟨_, rfl, act_storeResult (.stO _ _)⟩
  | mbLoadimg => exact ⟨_, rfl, .wrote (.mbLoadimg _ _) rfl rfl⟩
  | grWrite => exact ⟨_, rfl, .wrote (.grWrite _ _) rfl rfl⟩
  | pushf => exact ⟨_, rfl, .wrote .pushf rfl rfl⟩
  | maMake | mxTrunc | mxToint | mxSign | mxMag | mxNeg | mxAdd | mxSub | mxMul | mxCmp | mxIszero | mxEqbits
  | mxShl | mxShr | mxRol | mxRor | mxShld | mxShrd | mxRold | mxRord | mmDump | mrEa | mrIdxoff | mrGetov | mrGetci
  | addB | addW | addT | addO | subB | subW | subT | subO | mulB | mulW | mulT | mulO
  | adduoB | adduoW | adduoT | adduoO | addsoB | addsoW | addsoT | addsoO
  | subuoB | subuoW | subuoT | subuoO | subsoB | subsoW | subsoT | subsoO
  | muluoB | muluoW | muluoT | muluoO | mulsoB | mulsoW | mulsoT | mulsoO
  | mulfuB | mulfuW | mulfuT | mulfuO | divuB | divuW | divuT | divuO
  | cmpuB | cmpuW | cmpuT | cmpuO | cmpsB | cmpsW | cmpsT | cmpsO
  | splitW | splitT | splitO | joinW | joinT | joinO | truncB | truncW | truncT | truncO
  | svalB | svalW | svalT | svalO | ldB | ldW | ldT | ldO | mbDump | grRead | srRead => exact ⟨_, rfl, .answered _⟩

theorem none_notMem_raises (i : Instr) : CvKind.none ∉ raises i := by
  unfold raises
  split <;> decide

/-- What a command leaves of a live block: a violation of the table and nothing else; or the block live, its state as it was or its answer
neither nil nor misaligned (R341, R342, R344, R345). -/
theorem exec_live_cases (hs : s.Live) (h : exec i s = .next t) :
    (∃ k ∈ raises i, t = violated s k true) ∨
    (t.fatal = false ∧ (t = { s with resp := t.resp } ∨ (t.resp.err = .none ∧ t.resp.valid = true))) := by
  obtain ⟨act, hexec, hact⟩ := exec_act i s
  rw [hexec] at h
  cases hact with
  | raised hk =>
    rw [perform_error hs] at h
    cases h
    exact .inl ⟨_, hk, rfl⟩
  | answered r =>
    rw [perform_ok hs] at h
    cases h
    exact .inr ⟨hs, .inl rfl⟩
  | wrote hu herr hvalid =>
    obtain ⟨-, hfatal, -⟩ := effect_block hu
    rw [perform_ok hs] at h
    cases h
    exact .inr ⟨hfatal.trans hs, .inr ⟨herr, hvalid⟩⟩

/-- A command that leaves a live block fatal has raised a violation of the table (R342). -/
theorem violated_of_fatal (hs : s.Live) (h : exec i s = .next t) (hf : t.fatal = true) : ∃ k ∈ raises i, t = violated s k true := by
  obtain hraised | ⟨hlive, -⟩ := exec_live_cases hs h
  · exact hraised
  · exact absurd hf (Bool.eq_false_iff.1 hlive)

/-! ### While fatal (R341) -/

theorem exec_fatal (i : Instr) (h : s.fatal = true) : exec i s = .next { s with resp := noResult } := by
  obtain ⟨act, hexec, -⟩ := exec_act i s
  rw [hexec]; exact perform_fatal h

/-- While fatal every opcode is ignored, a reserved one too. -/
theorem step_command_fatal {c : Command} {rest : List Input} (h : s.fatal = true) (hin : s.inputs = .command c :: rest) :
    step s = .next { s with inputs := rest, resp := noResult } := by
  cases hd : decode c with
  | ok i => rw [step_decoded hin hd]; exact exec_fatal (s := { s with inputs := rest }) i h
  | error e => rw [step_rejected hin hd]; exact perform_fatal (s := { s with inputs := rest }) h

theorem step_reset {rest : List Input} (hin : s.inputs = .reset :: rest) : step s = .next (applyReset { s with inputs := rest }) := by
  simp only [step, hin]

end Sys2Proof.Machine

namespace Sys2Proof.Proofs

open Sys2Proof.Machine Sys2Proof.Claims

/-- Settles O47: a command that completes and answers nil or misaligned wrote nothing; a violation writes `fatal` and its kind. -/
theorem violationsAreAtomic : Obligations.ViolationsAreAtomic := by
  refine ⟨fun i s t hs hexec => ⟨fun hf => ?_, fun hf hanswer => ?_⟩, fun s c rest hf hin => ⟨true, step_command_fatal hf hin⟩,
    fun s t rest hin hstep => ?_⟩
  · obtain ⟨k, hk, rfl⟩ := violated_of_fatal hs hexec hf
    exact ⟨⟨true, rfl⟩, fun hnone => none_notMem_raises i (hnone ▸ hk)⟩
  · obtain ⟨k, -, rfl⟩ | ⟨-, hsame | ⟨herr, hvalid⟩⟩ := exec_live_cases hs hexec
    · cases hf
    · exact hsame
    · simp [herr, hvalid] at hanswer
  · cases (step_reset hin).symm.trans hstep
    exact ⟨rfl, rfl⟩

/-- Settles O48: the kinds are those of the checks of each command, and a violation answers as a command without a result does. -/
theorem violationTable : Obligations.ViolationTable := by
  refine ⟨rfl, fun i s t hs hexec hf => ?_, fun i s t hexec hf => ?_, fun s hs => ⟨true, rejectOpcode_live hs⟩⟩
  · obtain ⟨k, hk, rfl⟩ := violated_of_fatal hs hexec hf
    exact hk
  · cases hs : s.fatal with
    | true =>
      cases (exec_fatal i hs).symm.trans hexec
      rfl
    | false =>
      obtain ⟨k, -, rfl⟩ := violated_of_fatal hs hexec hf
      rfl

end Sys2Proof.Proofs
end

section
/-! Which operands a command checks, and that the check alone decides whether it raises, but in `MX.DIV`, `SR.WRITE` and `POPF` (R342,
R390). -/

namespace Sys2Proof.Machine

open Sys2Proof.Claims

variable {s t : State} {i : Instr}

/-! ### Well-formedness in the terms of the commands' own checks -/

theorem mxMake_wellFormed_iff (neg : Bool) (m : BitVec 32) : (Instr.mxMake neg m).WellFormed ↔ ¬ 2 ^ 30 ≤ m.toNat :=
  decide_eq_true_iff.trans not_le.symm

theorem mxFromint_wellFormed_iff (v : BitVec 32) : (Instr.mxFromint v).WellFormed ↔ ¬ 2 ^ 30 ≤ v.toInt.natAbs :=
  decide_eq_true_iff.trans not_le.symm

theorem mxGetb_wellFormed_iff (w : MixWord) (k : BitVec 3) : (Instr.mxGetb w k).WellFormed ↔ ¬ (k.toNat < 1 ∨ 5 < k.toNat) := by
  rw [not_or, not_lt, not_lt]; exact decide_eq_true_iff

theorem mxSetb_wellFormed_iff (w : MixWord) (k : BitVec 3) (b : BitVec 8) :
    (Instr.mxSetb w k b).WellFormed ↔ ¬ (k.toNat < 1 ∨ 5 < k.toNat) ∧ ¬ 64 ≤ b.toNat := by
  rw [not_le, ← mxGetb_wellFormed_iff w k, ← decide_eq_true_iff (p := b.toNat < 64)]
  exact Bool.and_eq_true_iff

theorem mrRead_wellFormed_iff (id : BitVec 4) : (Instr.mrRead id).WellFormed ↔ (mixRegOf id).isSome = true := by
  revert id; decide

theorem mrWrite_wellFormed_iff (v : MixWord) (id : BitVec 4) : (Instr.mrWrite v id).WellFormed ↔ (mixRegOf id).isSome = true :=
  mrRead_wellFormed_iff id

theorem mrSetci_wellFormed_iff (c : BitVec 2) : (Instr.mrSetci c).WellFormed ↔ (cmpOfCode c).isSome = true := by
  revert c; decide

theorem popf_wellFormed_iff (size : BitVec 9) : (Instr.popf size).WellFormed ↔ size.toNat ≤ 256 := decide_eq_true_iff

/-! ### A check of the operands -/

/-- What a command hands to `perform` when its operands alone decide whether it raises: a violation for an ill-formed command, a state
as fatal as before for a well-formed one. -/
inductive OperandChecked (i : Instr) (s : State) : Except CvKind (State × Response) → Prop
  | rejected {k : CvKind} (h : ¬ i.WellFormed) : OperandChecked i s (.error k)
  | accepted {u : State} {r : Response} (h : i.WellFormed) (hu : u.fatal = s.fatal) : OperandChecked i s (.ok (u, r))

theorem operandChecked_check {c : Prop} [Decidable c] {k : CvKind} {u : State} {r : Response} (hwf : i.WellFormed ↔ c)
    (hu : u.fatal = s.fatal) : OperandChecked i s (if c then .ok (u, r) else .error k) :=
  iteInduction (fun h => .accepted (hwf.2 h) hu) fun h => .rejected (mt hwf.1 h)

theorem operandChecked_refuse {c : Prop} [Decidable c] {k : CvKind} {u : State} {r : Response} (hwf : i.WellFormed ↔ ¬ c)
    (hu : u.fatal = s.fatal) : OperandChecked i s (if c then .error k else .ok (u, r)) :=
  iteInduction (fun h => .rejected fun hi => hwf.1 hi h) fun h => .accepted (hwf.2 h) hu

/-- Two checks in the order of their violations (R348). -/
theorem operandChecked_refuse_refuse {c d : Prop} [Decidable c] [Decidable d] {k l : CvKind} {u : State} {r : Response}
    (hwf : i.WellFormed ↔ ¬ c ∧ ¬ d) (hu : u.fatal = s.fatal) :
    OperandChecked i s (if c then .error k else if d then .error l else .ok (u, r)) :=
  iteInduction (fun h => .rejected fun hi => (hwf.1 hi).1 h) fun hc => operandChecked_refuse (hwf.trans (and_iff_right hc)) hu

/-! ### Every command -/

/-- The commands that raise on the state or on the quotient (R156, R308, R316). -/
def StateDecides (i : Instr) : Prop := (∃ hi lo d, i = .mxDiv hi lo d) ∨ (∃ v n, i = .srWrite v n) ∨ ∃ size, i = .popf size

/-- A command checks nothing, or the state too, or its operands alone (R342). -/
theorem operand_check_cases (i : Instr) (s : State) :
    (raises i = [] ∧ i.WellFormed) ∨ StateDecides i ∨ ∃ act, exec i s = perform s act ∧ OperandChecked i s act := by
  cases i with
  | mxDiv => exact .inr (.inl (.inl ⟨_, _, _, rfl⟩))
  | srWrite => exact .inr (.inl (.inr (.inl ⟨_, _, rfl⟩)))
  | popf => exact .inr (.inl (.inr (.inr ⟨_, rfl⟩)))
  | fsEnc => exact .inr (.inr ⟨_, rfl, operandChecked_check decide_eq_true_iff rfl⟩)
  | fsDec | mxFget | mxFput | mmLoad | mmStore => exact .inr (.inr ⟨_, rfl, operandChecked_check Iff.rfl rfl⟩)
  | mxMake => exact .inr (.inr ⟨_, rfl, operandChecked_refuse (mxMake_wellFormed_iff _ _) rfl⟩)
  | mxFromint => exact .inr (.inr ⟨_, rfl, operandChecked_refuse (mxFromint_wellFormed_iff _) rfl⟩)
  | mxGetb => exact .inr (.inr ⟨_, rfl, operandChecked_refuse (mxGetb_wellFormed_iff _ _) rfl⟩)
  | mxSetb => exact .inr (.inr ⟨_, rfl, operandChecked_refuse_refuse (mxSetb_wellFormed_iff _ _ _) rfl⟩)
  | mrRead id =>
    refine .inr (.inr ⟨_, rfl, ?_⟩)
    cases h : mixRegOf id with
    | none => exact .rejected (by rw [mrRead_wellFormed_iff, h]; decide)
    | some r => exact .accepted (by rw [mrRead_wellFormed_iff, h]; rfl) rfl
  | mrWrite v id =>
    refine .inr (.inr ⟨_, rfl, ?_⟩)
    cases h : mixRegOf id with
    | none => exact .rejected (by rw [mrWrite_wellFormed_iff, h]; decide)
    | some r => exact .accepted (by rw [mrWrite_wellFormed_iff, h]; rfl) (by rw [mixRegWrite_frame])
  | mrSetci c =>
    refine .inr (.inr ⟨_, rfl, ?_⟩)
    cases h : cmpOfCode c with
    | none => exact .rejected (by rw [mrSetci_wellFormed_iff, h]; decide)
    | some v => exact .accepted (by rw [mrSetci_wellFormed_iff, h]; rfl) rfl
  | _ => exact .inl ⟨rfl, rfl⟩

/-- Where the operands alone decide, a command raises exactly when it is ill formed (R390). -/
theorem fatal_iff_of_operandChecked {act : Except CvKind (State × Response)} (hs : s.Live) (hact : OperandChecked i s act)
    (h : perform s act = .next t) : t.fatal = true ↔ ¬ i.WellFormed := by
  cases hact with
  | rejected hill =>
    rw [perform_error hs] at h
    cases h
    exact iff_of_true rfl hill
  | accepted hwf hu =>
    rw [perform_ok hs] at h
    cases h
    exact iff_of_false (Bool.eq_false_iff.1 (hu.trans hs)) (not_not.2 hwf)

/-- Of the commands whose state decides, only `POPF` can be ill formed: a size above 256 is above every legal `G` (R308). -/
theorem raises_of_illFormed_of_stateDecides (hs : s.Live) (hG : thresholdG s ≤ 256) (hi : StateDecides i) (hill : ¬ i.WellFormed) :
    Raises i s .geometry := by
  obtain ⟨hi, lo, d, rfl⟩ | ⟨v, n, rfl⟩ | ⟨size, rfl⟩ := hi
  · exact absurd rfl hill
  · exact absurd rfl hill
  · have hsize : 256 < size.toNat := not_le.1 (mt (popf_wellFormed_iff size).2 hill)
    exact popf_raises hs (if_pos (hG.trans_lt hsize))

end Sys2Proof.Machine

namespace Sys2Proof.Proofs

open Sys2Proof.Machine

/-- Settles O49: a command checks nothing, or it is one of the three, or its operands alone decide. -/
theorem operandChecksSuffice : Obligations.OperandChecksSuffice := by
  intro i s t hs hgeo hexec
  obtain ⟨hnone, hwf⟩ | hstate | ⟨act, hperform, hact⟩ := operand_check_cases i s
  · refine ⟨absurd hwf, fun _ hf => ?_⟩
    obtain ⟨k, hk, -⟩ := violated_of_fatal hs hexec hf
    exact absurd (hnone ▸ hk) List.not_mem_nil
  · refine ⟨fun hill => ?_, fun _ _ => hstate⟩
    obtain ⟨-, hG, -⟩ := hgeo
    obtain ⟨valid, hraise⟩ := raises_of_illFormed_of_stateDecides hs hG hstate hill
    cases hraise.symm.trans hexec
    rfl
  · have hiff := fatal_iff_of_operandChecked hs hact (hperform.symm.trans hexec)
    exact ⟨hiff.2, fun hwf hf => absurd hwf (hiff.1 hf)⟩

end Sys2Proof.Proofs
end

section
/-! The reset input, and the ring after reset (R370 to R372). -/

namespace Sys2Proof.Machine

theorem step_noInput {s : State} (hin : s.inputs = []) : step s = .next s := by
  simp only [step, hin]

/-- The ring is empty after reset: `rO`, `rS` and `L` are zero (R305). -/
theorem resetWith_ringInv (cfg : Config) : (State.resetWith cfg).RingInv := by
  simp [State.RingInv, residentCount, thresholdL]

end Sys2Proof.Machine

namespace Sys2Proof.Proofs

open Sys2Proof.Machine

/-- Settles O52: the reset input runs `applyReset` with itself taken off the inputs. -/
theorem resetInput : Obligations.ResetInput := ⟨fun _ _ hin => step_reset hin, fun _ hin => step_noInput hin⟩

/-- Settles O54: the invariant every step keeps holds of the reset state, and the ring is empty. -/
theorem resetMeetsInvariants : Obligations.ResetMeetsInvariants := fun cfg => ⟨resetWith_inv cfg, resetWith_ringInv cfg⟩

end Sys2Proof.Proofs
end
